-- ==== Sys2Proof/Word.lean ====
section
/-!
DEFINITION. The word types of the ATR core: a Sample and a raw sample are 16 bits, a register, a bus
datum and a FIFO token are 32 bits (R9, R49, R84).
-/

namespace Sys2Proof

/-- Eight bits: one byte of a memory, a gain range, an amplifier code. -/
abbrev Byte := BitVec 8

/-- Sixteen bits: a raw sample (unsigned) or a Sample (two's complement), R9. -/
abbrev Half := BitVec 16

/-- Thirty-two bits: a register, a bus address, a bus datum, a FIFO token, R9, R49, R84. -/
abbrev Word := BitVec 32

end Sys2Proof
end

