-- ==== Sys2Proof/Syntax.lean ====
section
/-!
DEFINITION. The operations of the core: the eighteen command operations and the two bus operations of
spec/opcode_table.json, one constructor each, and the bus transaction that carries an operation to
the core (R120).
-/

namespace Sys2Proof

/-- The processor that receives each published Half-Frame (R30, R190): 0 `NONE`, 1 `RING`, 2 `USB`. -/
inductive Proc where
  | none
  | ring
  | usb
  deriving DecidableEq, Repr

/-- The ring's mode (R36, R266): 0 `CONTINUOUS`, 1 `TRIGGERED`, 2 `GATED`. -/
inductive Mode where
  | continuous
  | triggered
  | gated
  deriving DecidableEq, Repr

/-- The operations, one constructor per row of spec/opcode_table.json. Operands are the fields of the
formats of R121 to R126; an operation on the bus carries its address and datum (R150, R151). -/
inductive Instr where
  | nop
  | sysReset
  | gainSet (range : Byte) (dis : Bool)
  | gainSetdb (db : Half) (dis : Bool)
  | gainUp
  | gainDown
  | gainGetdb
  | gainGetshift
  | gainForrange (range : Byte)
  | gainShiftfor (range : Byte)
  | procSet (sel : Proc)
  | hfReady (half : BitVec 1) (offset : Half) (shift : BitVec 4)
  | detBegin
  | detWin
  | detCommit
  | ringReset (mode : Mode)
  | ringGetnext
  | ringRecdone
  | busRd (addr : Word)
  | busWr (addr data : Word)
  deriving DecidableEq, Repr

/-- What a master puts on the bus (R120): a read of an address or a write of a datum to an address.
A command operation is the write of its command word to `CMD`. -/
inductive BusOp where
  | rd (addr : Word)
  | wr (addr data : Word)
  deriving DecidableEq, Repr

/-- The bus address of the register `CMD` (R24, R120). -/
abbrev cmdAddr : Word := 0x00000004

end Sys2Proof
end

