-- ==== Sys2Proof/Decode.lean ====
section
/-!
DEFINITION. The decoder of R131, total on all `2^32` command words and on every bus transaction, which
rejects by name, and after it the encoder, both written from the formats of R121 to R126 and the map
of R127.
-/

namespace Sys2Proof

/-- `v[hi:lo]` read as an unsigned integer (R12). -/
def slice (v : Word) (hi lo : Nat) : Nat := v.toNat / 2 ^ lo % 2 ^ (hi + 1 - lo)

/-- Why a command word is illegal (R128). -/
inductive DecodeError where
  /-- The opcode is not in the map of R127. -/
  | unassignedOpcode
  /-- A reserved bit of the opcode's format is set. -/
  | reservedBit
  /-- `PROC.SET` or `RING.RESET` with `sel = 3`. -/
  | illegalSelector
  deriving DecidableEq, Repr

/-- Format `Z` (R121): no operand. -/
def formatZ (w : Word) (i : Instr) : Except DecodeError Instr :=
  if slice w 23 0 = 0 then .ok i else .error .reservedBit

/-- Format `R` (R122): a range index. -/
def formatR (w : Word) (f : Byte → Instr) : Except DecodeError Instr :=
  if slice w 23 8 = 0 then .ok (f (.ofNat 8 (slice w 7 0))) else .error .reservedBit

/-- Format `G` (R123): a range index and the disable bit. -/
def formatG (w : Word) (f : Byte → Bool → Instr) : Except DecodeError Instr :=
  if slice w 23 9 = 0 then .ok (f (.ofNat 8 (slice w 7 0)) (slice w 8 8 == 1))
  else .error .reservedBit

/-- Format `D` (R124): a number of dB and the disable bit. -/
def formatD (w : Word) (f : Half → Bool → Instr) : Except DecodeError Instr :=
  if slice w 23 17 = 0 then .ok (f (.ofNat 16 (slice w 15 0)) (slice w 16 16 == 1))
  else .error .reservedBit

/-- The 2-bit selector of `PROC.SET` (R190). -/
def procOfSel : Nat → Option Proc
  | 0 => some .none
  | 1 => some .ring
  | 2 => some .usb
  | _ => none

/-- The 2-bit selector of `RING.RESET` (R266). -/
def modeOfSel : Nat → Option Mode
  | 0 => some .continuous
  | 1 => some .triggered
  | 2 => some .gated
  | _ => none

/-- Format `S` (R125): a 2-bit selector, 3 illegal. -/
def formatS {α : Type} (w : Word) (sel : Nat → Option α) (f : α → Instr) :
    Except DecodeError Instr :=
  if slice w 23 2 = 0 then
    match sel (slice w 1 0) with
    | some v => .ok (f v)
    | none => .error .illegalSelector
  else .error .reservedBit

/-- Format `H` (R126): the half of `RAW`, the left shift, the offset code. -/
def formatH (w : Word) (f : BitVec 1 → Half → BitVec 4 → Instr) : Except DecodeError Instr :=
  if slice w 3 1 = 0 then
    .ok (f (.ofNat 1 (slice w 0 0)) (.ofNat 16 (slice w 23 8)) (.ofNat 4 (slice w 7 4)))
  else .error .reservedBit

/-- The decoding procedure of R131 over the opcode map of R127. It depends on the word alone. -/
def decodeCommand (w : Word) : Except DecodeError Instr :=
  match slice w 31 24 with
  | 0x00 => formatZ w .nop
  | 0x01 => formatZ w .sysReset
  | 0x10 => formatG w .gainSet
  | 0x11 => formatD w .gainSetdb
  | 0x12 => formatZ w .gainUp
  | 0x13 => formatZ w .gainDown
  | 0x14 => formatZ w .gainGetdb
  | 0x15 => formatZ w .gainGetshift
  | 0x16 => formatR w .gainForrange
  | 0x17 => formatR w .gainShiftfor
  | 0x20 => formatS w procOfSel .procSet
  | 0x21 => formatH w .hfReady
  | 0x30 => formatZ w .detBegin
  | 0x31 => formatZ w .detWin
  | 0x32 => formatZ w .detCommit
  | 0x40 => formatS w modeOfSel .ringReset
  | 0x41 => formatZ w .ringGetnext
  | 0x42 => formatZ w .ringRecdone
  | _ => .error .unassignedOpcode

/-- Which operation a bus transaction is (R120): a write to `CMD` is the command its datum encodes, or
nothing legal; any other transaction is a bus operation. -/
def decode : BusOp → Except DecodeError Instr
  | .rd addr => .ok (.busRd addr)
  | .wr addr data => if addr = cmdAddr then decodeCommand data else .ok (.busWr addr data)

/-- The instruction the core performs on a transaction: the decoded one; for an illegal command word
the bus write itself, whose rule (R151, R154) refuses the word with `ERR_CMD`. -/
def BusOp.instr : BusOp → Instr
  | .rd addr => .busRd addr
  | .wr addr data =>
    match decode (.wr addr data) with
    | .ok i => i
    | .error _ => .busWr addr data

/-- A command word from its opcode and argument (R120). -/
def commandWord (op arg : Nat) : Word := .ofNat 32 (op * 2 ^ 24 + arg)

/-- The 2-bit code of a processor (R190). -/
def Proc.code : Proc → Nat
  | .none => 0
  | .ring => 1
  | .usb => 2

/-- The 2-bit code of a mode (R266). -/
def Mode.code : Mode → Nat
  | .continuous => 0
  | .triggered => 1
  | .gated => 2

/-- The command word of a command operation, by the table of R134; a bus operation has none (R120). -/
def encodeCommand : Instr → Option Word
  | .nop => some (commandWord 0x00 0)
  | .sysReset => some (commandWord 0x01 0)
  | .gainSet range dis => some (commandWord 0x10 (dis.toNat * 2 ^ 8 + range.toNat))
  | .gainSetdb db dis => some (commandWord 0x11 (dis.toNat * 2 ^ 16 + db.toNat))
  | .gainUp => some (commandWord 0x12 0)
  | .gainDown => some (commandWord 0x13 0)
  | .gainGetdb => some (commandWord 0x14 0)
  | .gainGetshift => some (commandWord 0x15 0)
  | .gainForrange range => some (commandWord 0x16 range.toNat)
  | .gainShiftfor range => some (commandWord 0x17 range.toNat)
  | .procSet sel => some (commandWord 0x20 sel.code)
  | .hfReady half offset shift =>
    some (commandWord 0x21 (offset.toNat * 2 ^ 8 + shift.toNat * 2 ^ 4 + half.toNat))
  | .detBegin => some (commandWord 0x30 0)
  | .detWin => some (commandWord 0x31 0)
  | .detCommit => some (commandWord 0x32 0)
  | .ringReset mode => some (commandWord 0x40 mode.code)
  | .ringGetnext => some (commandWord 0x41 0)
  | .ringRecdone => some (commandWord 0x42 0)
  | .busRd _ => none
  | .busWr _ _ => none

/-- The bus transaction that carries an instruction (R120): for a command, the write of its command
word to `CMD`. -/
def encode (i : Instr) : BusOp :=
  match i with
  | .busRd addr => .rd addr
  | .busWr addr data => .wr addr data
  | i => .wr cmdAddr ((encodeCommand i).getD 0)

/-- The instruction the decoder reads from a word of spec/opcode_table.json's numbering: the word is a
command word, 32 bits, one datum of the bus (R120, R130). The two bus rows have no command word and no
bits of their own to be told by (log 13). -/
def decodeTableWord (nbits w : Nat) : Option Instr :=
  if nbits ≤ 32 then
    match decodeCommand (.ofNat 32 (w % 2 ^ nbits)) with
    | .ok i => some i
    | .error _ => none
  else none

end Sys2Proof
end

