-- ==== Sys2Proof/Config.lean ====
section
/-!
DEFINITION. The build parameters (R8) as plain data, and the free values of the model: constants
without a body, whose values nothing can know.
-/

namespace Sys2Proof

/-- One row of the gain tables (R50): linear gain, bit shift, whole dB (signed), amplifier code. -/
structure GainRow where
  lin  : BitVec 32
  shift : BitVec 4
  db   : Half
  code : Byte
  deriving DecidableEq, Repr

/-- The build parameter `NARROW` (R194), the instance a build was made with: the default (keep the
low 16 bits), the other natural instance (saturation), or a builder's own function, known only by a
number. All three leave an in-range value alone (`Machine.narrow`). -/
inductive NarrowKind where
  | wrap
  | saturate
  | builder (id : Nat)
  deriving DecidableEq, Repr

/-- The build parameter `POWER_FN` (R231), the instance a build was made with: the reference function
of R232 with the tables `HANN`, `COS`, `SIN` the builder lists (R233), or a builder's own function,
known only by a number. -/
inductive PowerKind where
  | reference (hann cos sin : List Int)
  | builder (id : Nat)
  deriving DecidableEq, Repr

/-- The build parameters of R8, one value of each for one core. `nb` is derived (`Build.nb`). The gain
tables of R50 are one list of `nr + 1` rows, the last of them the disabled row. -/
structure Build where
  h   : Nat
  w   : Nat
  nsw : Nat
  n   : Nat
  e   : Nat
  fc  : Nat
  nr  : Nat
  gain : List GainRow
  narrow : NarrowKind
  power  : PowerKind
  deriving DecidableEq, Repr

/-- A draw (R90): the bits that the `k`-th read of an element that nothing has written since reset
answers. FREE VALUE (log 7): no body, so no proof can know it. -/
opaque Config.draw : Nat → BitVec 32

/-- The `k`-th choice among operations that several masters offer at once (R327: "which comes first
when both are offered together is not specified"). FREE VALUE (log 4). -/
opaque Config.arbiter : Nat → Nat

/-- What the builder's own `NARROW` number `id` makes of an out-of-range value (R194).
FREE VALUE (log 9). -/
opaque Config.builderNarrow : Nat → Int → Half

/-- The power of a bucket by the builder's own `POWER_FN` number `id`: of the `W` Samples of a
sub-window and the bucket's index alone (R231). FREE VALUE (log 10). -/
opaque Config.builderPower : Nat → List Half → Nat → BitVec 64

end Sys2Proof
end

