-- ==== Sys2Proof/Machine/Reference.lean ====
section
/-!
DEFINITION. The reference tables that R233 lists, the gain tables of fixture GT1 and the builds of the
fixtures of 95_test_vectors.md (test fixtures, "none is the product's configuration").
-/

namespace Sys2Proof.Machine

/-- `HANN` for `W = 16` (R233). -/
def hann16 : List Int :=
  [0, 1247, 4799, 10114, 16384, 22654, 27969, 31521, 32767, 31521, 27969, 22654, 16384, 10114,
    4799, 1247]

/-- `COS` for `W = 16` (R233). -/
def cos16 : List Int :=
  [32767, 30274, 23170, 12540, 0, -12540, -23170, -30274, -32768, -30274, -23170, -12540, 0, 12540,
    23170, 30274]

/-- `SIN` for `W = 16` (R233). -/
def sin16 : List Int :=
  [0, 12540, 23170, 30274, 32767, 30274, 23170, 12540, 0, -12540, -23170, -30274, -32768, -30274,
    -23170, -12540]

/-- `HANN` for `W = 32` (R233). -/
def hann32 : List Int :=
  [0, 315, 1247, 2761, 4799, 7282, 10114, 13188, 16384, 19580, 22654, 25486, 27969, 30007, 31521,
    32453, 32767, 32453, 31521, 30007, 27969, 25486, 22654, 19580, 16384, 13188, 10114, 7282, 4799,
    2761, 1247, 315]

/-- `COS` for `W = 32` (R233). -/
def cos32 : List Int :=
  [32767, 32138, 30274, 27246, 23170, 18205, 12540, 6393, 0, -6393, -12540, -18205, -23170, -27246,
    -30274, -32138, -32768, -32138, -30274, -27246, -23170, -18205, -12540, -6393, 0, 6393, 12540,
    18205, 23170, 27246, 30274, 32138]

/-- `SIN` for `W = 32` (R233). -/
def sin32 : List Int :=
  [0, 6393, 12540, 18205, 23170, 27246, 30274, 32138, 32767, 32138, 30274, 27246, 23170, 18205,
    12540, 6393, 0, -6393, -12540, -18205, -23170, -27246, -30274, -32138, -32768, -32138, -30274,
    -27246, -23170, -18205, -12540, -6393]

/-- The gain tables of fixture GT1 (95_test_vectors.md section 0): four ranges and the disabled row. -/
def gainGT1 : List GainRow :=
  [{ lin := 8, shift := 0, db := 18, code := 3 },
   { lin := 4, shift := 1, db := 12, code := 2 },
   { lin := 2, shift := 2, db := 6, code := 1 },
   { lin := 1, shift := 3, db := 0, code := 0 },
   { lin := 1, shift := 3, db := 0, code := 0xFF }]

/-- The build of fixture DT1 (95_test_vectors.md section 0) with gain tables GT1, `NARROW = wrap` and
the reference `POWER_FN`. `State.reset` is the reset state of this build: DESIGN CHOICE, the spec fixes
no build (log 1). -/
def buildDT1 : Build :=
  { h := 16, w := 16, nsw := 1, n := 8, e := 16, fc := 10, nr := 4, gain := gainGT1,
    narrow := .wrap, power := .reference hann16 cos16 sin16 }

end Sys2Proof.Machine
end

