-- ==== Sys2Proof/WellFormed.lean ====
section
/-!
DEFINITION. Which instruction terms stand for an operation of their own, and which build parameters
make a core of this spec (R8).
-/

namespace Sys2Proof

/-- A bus write is an operation of its own unless it writes `CMD`: then it IS the command operation
its datum encodes (R120, R151). Every other term is an operation; a selector of 3 (R125, R128) cannot
be written as a term at all. -/
def Instr.wellFormed : Instr → Bool
  | .nop => true
  | .sysReset => true
  | .gainSet _ _ => true
  | .gainSetdb _ _ => true
  | .gainUp => true
  | .gainDown => true
  | .gainGetdb => true
  | .gainGetshift => true
  | .gainForrange _ => true
  | .gainShiftfor _ => true
  | .procSet _ => true
  | .hfReady _ _ _ => true
  | .detBegin => true
  | .detWin => true
  | .detCommit => true
  | .ringReset _ => true
  | .ringGetnext => true
  | .ringRecdone => true
  | .busRd _ => true
  | .busWr addr _ => addr != cmdAddr

/-- The bucket count `NB = W / 2` (R8, R226). -/
def Build.nb (b : Build) : Nat := b.w / 2

/-- The Half-Frame length: `H >= 1` (R8), and the `2*H` elements of `RAW` have bus addresses in its
`2^28` byte window (R52, R81; DEDUCED, log 2). -/
def Build.halfOk (b : Build) : Bool := 1 ≤ b.h && 4 * b.h ≤ 2 ^ 28

/-- `W` is a power of two with `2 <= W <= H` and `NB <= 256` (R8). -/
def Build.windowOk (b : Build) : Bool :=
  2 ^ Nat.log2 b.w == b.w && 2 ≤ b.w && b.w ≤ b.h && b.nb ≤ 256

/-- `NSW >= 1`, `NSW * W <= H` (R8), and `WIN` counts `0..NSW` in 8 bits (R34; DEDUCED, log 2). -/
def Build.subWindowsOk (b : Build) : Bool := 1 ≤ b.nsw && b.nsw * b.w ≤ b.h && b.nsw ≤ 255

/-- `2 <= N <= 65535` (R8). -/
def Build.slotsOk (b : Build) : Bool := 2 ≤ b.n && b.n ≤ 65535

/-- `E >= 1`, `2*N*E <= 2^28` (R8). -/
def Build.entriesOk (b : Build) : Bool := 1 ≤ b.e && 2 * b.n * b.e ≤ 2 ^ 28

/-- `FC >= N + 2` (R8), and the `FC` elements of `FIFO` have bus addresses in its `2^28` byte window
(R52, R81; DEDUCED, log 2). -/
def Build.fifoOk (b : Build) : Bool := b.n + 2 ≤ b.fc && 4 * b.fc ≤ 2 ^ 28

/-- `1 <= NR <= 255`, one gain row per range and the disabled row, linear gains `>= 1` (R8). -/
def Build.gainOk (b : Build) : Bool :=
  1 ≤ b.nr && b.nr ≤ 255 && b.gain.length == b.nr + 1 && b.gain.all (fun r => 1 ≤ r.lin.toNat)

/-- The reference `POWER_FN` comes with tables of `W` entries, each a Q15 number (R232, R233); a
builder's own function is total as it is (R231). -/
def Build.powerOk (b : Build) : Bool :=
  match b.power with
  | .reference hann cos sin =>
    [hann, cos, sin].all
      (fun t => t.length == b.w && t.all (fun v => -32768 ≤ v && v ≤ 32767))
  | .builder _ => true

/-- The constraints of R8 on the builder: "a configuration that breaks one is not a core of this spec". -/
def Build.wf (b : Build) : Bool :=
  b.halfOk && b.windowOk && b.subWindowsOk && b.slotsOk && b.entriesOk && b.fifoOk && b.gainOk &&
    b.powerOk

end Sys2Proof
end

