-- ==== Sys2Proof/Machine/State.lean ====
section
/-!
DEFINITION. The state of the core as plain data: every register and flag of 10_state.md, the four
memories, the build parameters, and the model's own record of what the masters offer and of what
leaves the core. Each register stands with the unit that owns it (R170, R220, R260).
-/

namespace Sys2Proof.Machine

/-- Why the model stops. It has no constructor: every operation of this core, also one that the core
itself refuses or that raises one of its faults (R320 to R322, R330), is a completed step, so nobody
raises a stop (log 15). -/
inductive Fault where
  deriving DecidableEq, Repr

/-- Why an instruction has no meaning. -/
inductive Refusal where
  /-- Raised by `exec` alone, for an instruction of the table that has no meaning in the model. No arm
  raises it: every row has its meaning. Safe: the machine goes no further. -/
  | notModelled (mnemonic : String)
  deriving DecidableEq, Repr

/-- The register `FAULT` (R27): two sticky bits, cleared by reset alone. -/
structure FaultReg where
  fifoOvf  : Bool
  lifetime : Bool
  deriving DecidableEq, Repr

/-- `STATUS[11:8]` (R26): the sticky bits that the host clears by writing ones. -/
structure Sticky where
  ovl      : Bool
  errCmd   : Bool
  errState : Bool
  errBus   : Bool
  deriving DecidableEq, Repr

/-- The Sample Acquirer: `HF_READY`, `GEN`, `PROC`, `SCL_CORR`, `OVL_THR` (R26, R28, R30, R40, R41). -/
structure AcqUnit where
  hfReady : Bool
  gen     : Word
  proc    : Proc
  sclCorr : Half
  ovlThr  : Half
  deriving DecidableEq, Repr

/-- The Gain Controller: `GAIN_STATE`, `GAIN_MIN`, `GAIN_MAX` (R31, R42). -/
structure GainUnit where
  range : Byte
  dis   : Bool
  min   : Byte
  max   : Byte
  deriving DecidableEq, Repr

/-- One entry of the threshold table (R44): `THR_LO`, `THR_HI`, `THR_CTL.EN`. -/
structure Threshold where
  lo : Word
  hi : Word
  en : Bool
  deriving DecidableEq, Repr

/-- The Spectral Trigger Detector: `DET_BUSY`, `DET_GEN`, `DET_WIN` (`WIN`, `ACC`), `MATCH_VEC` (bucket
`b` is bit `b`, R230), `MATCH_CNT`, `TRIG_MAXCNT` and the threshold table (R32 to R35, R43, R44). -/
structure DetUnit where
  busy       : Bool
  gen        : Word
  win        : Byte
  acc        : Bool
  matchVec   : BitVec 256
  matchCnt   : Half
  trigMaxCnt : Half
  thr        : List Threshold
  deriving DecidableEq, Repr

/-- The Buffer Ring & Sequencer (R36 to R39, R45, R260). `lastEnq` and `gnToken` are two's complement. -/
structure RingUnit where
  mode          : Mode
  fill          : BitVec 31
  wpos          : Word
  head          : Word
  tail          : Word
  count         : Word
  isTriggered   : Bool
  trigIndex     : Word
  finalIndex    : Word
  lastEnq       : Word
  gatedReading  : Bool
  recDone       : Bool
  rdActive      : Bool
  gnToken       : Word
  pretrigSlots  : Half
  minSlots      : Half
  bufferDelta   : Half
  maxReadLead   : Half
  deriving DecidableEq, Repr

/-- One memory: the bytes that something has written since reset, by byte offset in the memory's
address space, offsets strictly rising (`Memory.wf`). An offset that is not listed has no value (R90,
log 7). -/
abbrev Memory := List Host.Cell

/-- The four memories of R52, each its own address space. -/
structure Memories where
  raw  : Memory
  hf   : Memory
  slot : Memory
  fifo : Memory
  deriving DecidableEq, Repr

/-- The bus masters that drive the core (R340): `DMA`, `I`, `M`, `RD`. -/
inductive Agent where
  | dma
  | acq
  | main
  | reader
  deriving DecidableEq, Repr

/-- The events of the output trace (R58). -/
inductive Event where
  | ovlEvt
  | trigEvt
  | gainCmd (code : Byte)
  | usbOut (samples : List Half)
  deriving DecidableEq, Repr

/-- What a bus read returns, and to whom (R150). -/
structure BusReply where
  agent : Agent
  addr  : Word
  data  : Word
  deriving DecidableEq, Repr

/-- What is not state of the core but the model's own record of its surroundings (R21, R58, R340): the
operations each master offers, in its order; a pending pulse of the reset pin; the master whose
operation is being performed; the counters that the free values are applied to; the output trace and
the replies to bus reads, oldest first. No rule of the core reads the trace or the replies. -/
structure Env where
  dmaQ     : List BusOp
  acqQ     : List BusOp
  mainQ    : List BusOp
  readerQ  : List BusOp
  resetPin : Bool
  grant    : Agent
  turns    : Nat
  draws    : Nat
  trace    : List Event
  reads    : List BusReply
  deriving DecidableEq, Repr

/-- The machine. -/
structure State where
  /-- The build parameters (R8): no step changes them. -/
  build : Build
  /-- `RESP` (R25). -/
  resp : Word
  /-- `FAULT` (R27). -/
  fault : FaultReg
  /-- `STATUS[11:8]` (R26). -/
  sticky : Sticky
  /-- `TRIG_FLAG`, the handshake from DET to RBC (R26, R99). -/
  trigFlag : Bool
  acq : AcqUnit
  gain : GainUnit
  det : DetUnit
  ring : RingUnit
  mem : Memories
  env : Env
  deriving DecidableEq, Repr

/-- ACQ after reset (R47, R60). -/
def AcqUnit.reset : AcqUnit :=
  { hfReady := false, gen := 0, proc := .none, sclCorr := 0, ovlThr := 0x7000 }

/-- GAIN after reset (R47, R60): `GAIN_MAX = NR - 1`. -/
def GainUnit.reset (b : Build) : GainUnit :=
  { range := 0, dis := false, min := 0, max := .ofNat 8 (b.nr - 1) }

/-- A threshold after reset (R44): not finite and disabled. -/
def Threshold.reset : Threshold := { lo := 0xFFFFFFFF, hi := 0xFFFFFFFF, en := false }

/-- DET after reset (R47, R60): `NB` thresholds. -/
def DetUnit.reset (b : Build) : DetUnit :=
  { busy := false, gen := 0, win := 0, acc := false, matchVec := 0, matchCnt := 0, trigMaxCnt := 0,
    thr := List.replicate b.nb Threshold.reset }

/-- RBC after reset (R47, R60): continuous, an empty ring, all configuration 0. -/
def RingUnit.reset : RingUnit :=
  { mode := .continuous, fill := 0, wpos := 0, head := 0, tail := 0, count := 0,
    isTriggered := false, trigIndex := 0, finalIndex := 0, lastEnq := 0xFFFFFFFF,
    gatedReading := false, recDone := false, rdActive := false, gnToken := 0xFFFFFFFF,
    pretrigSlots := 0, minSlots := 0, bufferDelta := 0, maxReadLead := 0 }

/-- The memories after reset: nothing is listed, every element is unspecified (R60, R90). -/
def Memories.reset : Memories := { raw := [], hf := [], slot := [], fifo := [] }

/-- The surroundings when the model starts: nothing offered, nothing put out (logs 3, 4, 6, 7, 12). -/
def Env.reset : Env :=
  { dmaQ := [], acqQ := [], mainQ := [], readerQ := [], resetPin := false, grant := .main,
    turns := 0, draws := 0, trace := [], reads := [] }

/-- The core of build `b` after reset (R60, R360), in the surroundings `env`. -/
def State.resetOf (b : Build) (env : Env) : State :=
  { build := b, resp := 0, fault := { fifoOvf := false, lifetime := false },
    sticky := { ovl := false, errCmd := false, errState := false, errBus := false },
    trigFlag := false, acq := .reset, gain := .reset b, det := .reset b, ring := .reset,
    mem := .reset, env := env }

/-- The machine right after reset (R360). Its build is the model's choice (log 1). -/
def State.reset : State := State.resetOf buildDT1 Env.reset

end Sys2Proof.Machine
end

