-- ==== Sys2Proof/Machine/Memory.lean ====
section
/-!
DEFINITION. Reading and writing the memories (R52, R80 to R84, R90): bytes in one canonical list, elements
of two or four bytes built from them in one place, little-endian (R82), and runs of elements.
-/

namespace Sys2Proof.Machine

/-- The canonical form of a memory: offsets strictly rising. An unlisted offset has no value, so no
entry can equal what it reads as (log 7). -/
abbrev Memory.wf (m : Memory) : Prop := (m.map Prod.fst).Pairwise (· < ·)

/-- The byte at an offset; none where nothing has written one since reset (R90, log 7). -/
def Memory.readByte : Memory → Nat → Option Byte
  | [], _ => none
  | (a, v) :: rest, off => if off = a then some v else Memory.readByte rest off

/-- Write one byte, keeping the offsets rising. -/
def Memory.writeByte : Memory → Nat → Byte → Memory
  | [], off, v => [(off, v)]
  | (a, x) :: rest, off, v =>
    if off < a then (off, v) :: (a, x) :: rest
    else if off = a then (off, v) :: rest
    else (a, x) :: Memory.writeByte rest off v

/-- The 16-bit element `i`, if written: the byte at the lower address is the less significant (R82). -/
def Memory.read16 (m : Memory) (i : Nat) : Option Half :=
  match m.readByte (2 * i), m.readByte (2 * i + 1) with
  | some lo, some hi => some (hi ++ lo)
  | _, _ => none

/-- Write the 16-bit element `i` whole (R82, R84). -/
def Memory.write16 (m : Memory) (i : Nat) (v : Half) : Memory :=
  (m.writeByte (2 * i) (v.extractLsb' 0 8)).writeByte (2 * i + 1) (v.extractLsb' 8 8)

/-- The 32-bit element `i`, if written (R82). -/
def Memory.read32 (m : Memory) (i : Nat) : Option Word :=
  match m.readByte (4 * i), m.readByte (4 * i + 1), m.readByte (4 * i + 2), m.readByte (4 * i + 3) with
  | some b0, some b1, some b2, some b3 => some (b3 ++ b2 ++ b1 ++ b0)
  | _, _, _, _ => none

/-- Write the 32-bit element `i` whole (R82, R84). -/
def Memory.write32 (m : Memory) (i : Nat) (v : Word) : Memory :=
  (((m.writeByte (4 * i) (v.extractLsb' 0 8)).writeByte (4 * i + 1) (v.extractLsb' 8 8)).writeByte
    (4 * i + 2) (v.extractLsb' 16 8)).writeByte (4 * i + 3) (v.extractLsb' 24 8)

/-- Read the 16-bit element `i`, drawing a value where it was never written (R90): the value, and the
number of draws made so far. -/
def Memory.fetch16 (m : Memory) (i draws : Nat) : Half × Nat :=
  match m.read16 i with
  | some v => (v, draws)
  | none => ((Config.draw draws).setWidth 16, draws + 1)

/-- Read the 32-bit element `i`, drawing a value where it was never written (R90). -/
def Memory.fetch32 (m : Memory) (i draws : Nat) : Word × Nat :=
  match m.read32 i with
  | some v => (v, draws)
  | none => (Config.draw draws, draws + 1)

/-- Read `n` consecutive 16-bit elements from element `i` on. -/
def Memory.fetchRun (m : Memory) (i : Nat) : Nat → Nat → List Half × Nat
  | 0, draws => ([], draws)
  | n + 1, draws =>
    let x := m.fetch16 i draws
    let xs := Memory.fetchRun m (i + 1) n x.2
    (x.1 :: xs.1, xs.2)

/-- Write consecutive 16-bit elements from element `i` on. -/
def Memory.writeRun (m : Memory) (i : Nat) : List Half → Memory
  | [] => m
  | v :: vs => Memory.writeRun (m.write16 i v) (i + 1) vs

end Sys2Proof.Machine
end

