-- ==== Sys2Proof/Machine/Ops.lean ====
section
/-!
DEFINITION. The named operations over registers and outputs that the rules share (R14): the response,
the event trace, the replies to bus reads, the error bits, the two faults, the halted state and reset.
The core takes no exception (R330): what a processor would do there is here the raising of a fault
(R321: the bit and nothing else) and of an error (R320), and the way back is reset (R322, R360).
-/

namespace Sys2Proof.Machine

/-- `0xFFFF_FFFF`, what a command that ended in an error, or was refused while halted, answers (R25). -/
abbrev refusedResp : Word := 0xFFFFFFFF

/-- `RESP <- v` (R14, R25). -/
def State.setResp (s : State) (v : Word) : State := { s with resp := v }

/-- `emit EVENT` (R14, R58): one event more at the end of the trace. -/
def State.emit (s : State) (e : Event) : State :=
  { s with env := { s.env with trace := s.env.trace ++ [e] } }

/-- The datum a bus read returns to the master that issued it (R150). -/
def State.reply (s : State) (addr data : Word) : State :=
  { s with env := { s.env with reads := s.env.reads ++ [⟨s.env.grant, addr, data⟩] } }

/-- Record that unspecified elements have been drawn (R90). -/
def State.setDraws (s : State) (n : Nat) : State := { s with env := { s.env with draws := n } }

/-- `error ERR_BUS` (R14, R326). -/
def State.errBus (s : State) : State := { s with sticky := { s.sticky with errBus := true } }

/-- `error ERR_CMD` and its response (R128, R324). -/
def State.errCmd (s : State) : State :=
  { s with sticky := { s.sticky with errCmd := true }, resp := refusedResp }

/-- `error ERR_STATE` and its response (R325). -/
def State.errState (s : State) : State :=
  { s with sticky := { s.sticky with errState := true }, resp := refusedResp }

/-- `fault FIFO_OVF` (R14, R321): the bit and nothing else at that moment. -/
def State.faultFifoOvf (s : State) : State := { s with fault := { s.fault with fifoOvf := true } }

/-- `fault LIFETIME` (R14, R321). -/
def State.faultLifetime (s : State) : State := { s with fault := { s.fault with lifetime := true } }

/-- Halted: `FAULT != 0` (R22, R322). -/
def State.halted (s : State) : Bool := s.fault.fifoOvf || s.fault.lifetime

/-- Reset (R360): every register to its reset value, the memories unspecified, no event. The build
parameters, the trace and what the masters offer are no state of the core and stay. -/
def State.resetCore (s : State) : State := State.resetOf s.build s.env

/-- A command while halted is refused with `0xFFFF_FFFF` and no other effect, not even an error bit;
otherwise its rule is performed (R154, R322). -/
def command (rule : State → State) (s : State) : State :=
  if s.halted then s.setResp refusedResp else rule s

end Sys2Proof.Machine
end

