-- ==== Sys2Proof/Machine/Operands.lean ====
section
/-!
DEFINITION. The operand arithmetic of the operations, over unbounded integers with explicit narrowing
(R13): the gain helpers of R171, the scaler of R192 and R194, the slot arithmetic of the ring.
-/

namespace Sys2Proof.Machine

/-- `clamp(x, lo, hi) = max(lo, min(x, hi))` (R13). -/
def clamp (x lo hi : Nat) : Nat := max lo (min x hi)

/-- Row `r` of the gain tables (R50); a build of R8 has every row that a rule reads (log 11). -/
def gainRow (b : Build) (r : Nat) : GainRow :=
  b.gain.getD r { lin := 1, shift := 0, db := 0, code := 0 }

/-- The most sensitive range `SENS` among the first `n` ranges: the smallest index whose linear gain
is maximal (R50). -/
def sensAmong (b : Build) : Nat → Nat
  | 0 => 0
  | n + 1 =>
    if (gainRow b (sensAmong b n)).lin.toNat < (gainRow b n).lin.toNat then n else sensAmong b n

/-- `SENS`: the smallest `r` in `0..NR-1` with `GAIN_LIN[r]` maximal (R50). -/
def sens (b : Build) : Nat := sensAmong b b.nr

/-- `ClampRange` (R171). -/
def clampRange (s : State) (x : Nat) : Nat :=
  clamp (clamp x s.gain.min.toNat s.gain.max.toNat) 0 (s.build.nr - 1)

/-- `LO` (R171). -/
def rangeLo (s : State) : Nat := clampRange s 0

/-- `HI` (R171). -/
def rangeHi (s : State) : Nat := clampRange s 255

/-- The effective row `EROW` (R31, R171): row `NR` while disabled. -/
def erow (s : State) : Nat := if s.gain.dis then s.build.nr else s.gain.range.toNat

/-- The distance of range `r` from a wanted number of dB (R173). -/
def dbDistance (b : Build) (db : Half) (r : Nat) : Nat :=
  ((gainRow b r).db.toInt - db.toInt).natAbs

/-- The search of `GAIN.SETDB` (R173) over the `n` ranges from `r` on, `best` the best so far: a
strictly smaller distance wins, so ties keep the smaller index. -/
def nearestFrom (b : Build) (db : Half) (best r : Nat) : Nat → Nat
  | 0 => best
  | n + 1 =>
    nearestFrom b db (if dbDistance b db r < dbDistance b db best then r else best) (r + 1) n

/-- The range nearest to `db` within `LO..HI` (R173). -/
def nearestRange (s : State) (db : Half) : Nat :=
  nearestFrom s.build db (rangeLo s) (rangeLo s) (rangeHi s + 1 - rangeLo s)

/-- The scaler, `((raw - offset) << shift) - sext_16(SCL_CORR)` over the unbounded integers (R192). -/
def scaled (raw offset : Half) (shift : BitVec 4) (corr : Half) : Int :=
  ((raw.toNat : Int) - (offset.toNat : Int)) * 2 ^ shift.toNat - corr.toInt

/-- `NARROW` (R194): the identity on the range of a Sample; outside it the build's own choice. -/
def narrow (k : NarrowKind) (v : Int) : Half :=
  if -32768 ≤ v ∧ v ≤ 32767 then .ofInt 16 v
  else
    match k with
    | .wrap => .ofInt 16 v
    | .saturate => if v < 0 then 0x8000 else 0x7FFF
    | .builder id => Config.builderNarrow id v

/-- Where sub-window `i` begins in the Half-Frame: `i * (H div NSW)` (R225). -/
def subWindowStart (b : Build) (i : Nat) : Nat := i * (b.h / b.nsw)

/-- The `START` token, -1 (R265). -/
abbrev startToken : Word := 0xFFFFFFFF

/-- The `END` token, -2 (R265). -/
abbrev endToken : Word := 0xFFFFFFFE

/-- The physical slot of a token or of the fill counter: `t mod N` (R80). -/
def slotOf (b : Build) (t : Int) : Nat := (t % (b.n : Int)).toNat

/-- The first slot a trigger taken at slot `k` backfills: the largest of the four bounds of R273. -/
def backfillFirst (s : State) : Nat :=
  let k : Int := s.ring.fill.toNat
  (max (max 0 (k - s.ring.pretrigSlots.toNat))
    (max (k - s.build.n + s.ring.bufferDelta.toNat + 1) (s.ring.lastEnq.toInt + 1))).toNat

/-- The response that yields slot `j` (R132): `VALID` and the physical slot index. -/
def slotResp (j : Nat) : Word := .ofNat 32 (2 ^ 31 + j)

/-- The response `CLOSE` (R132). -/
abbrev closeResp : Word := 0x40000000

end Sys2Proof.Machine
end

