-- ==== Sys2Proof/Machine/Flags.lean ====
section
/-!
DEFINITION. The flags: the words `STATUS` and `FAULT` as the bus sees them (R26, R27), the
write-one-to-clear (R49), overload (R193), and the detector's match, count and fired results (R227, R229,
R236).
-/

namespace Sys2Proof.Machine

/-- Bits as a number, the first the least significant (R12). -/
def packBits : List Bool → Nat
  | [] => 0
  | b :: bs => b.toNat + 2 * packBits bs

/-- The fields of `STATUS` from bit 0 up (R26); bits 31:12 are zero. -/
def statusBits (s : State) : List Bool :=
  [s.acq.hfReady, s.trigFlag, s.det.busy, s.ring.isTriggered, s.ring.gatedReading, s.ring.recDone,
    s.ring.rdActive, s.halted, s.sticky.ovl, s.sticky.errCmd, s.sticky.errState, s.sticky.errBus]

/-- The register `STATUS` as read (R26). -/
def statusWord (s : State) : Word := .ofNat 32 (packBits (statusBits s))

/-- The register `FAULT` as read (R27). -/
def faultWord (s : State) : Word := .ofNat 32 (packBits [s.fault.fifoOvf, s.fault.lifetime])

/-- A write of `data` to `STATUS`: a one clears the bit, for bits 11:8 alone (R26, R49, R151). -/
def clearSticky (p : Sticky) (data : Word) : Sticky :=
  { ovl := p.ovl && !data.getLsbD 8
    errCmd := p.errCmd && !data.getLsbD 9
    errState := p.errState && !data.getLsbD 10
    errBus := p.errBus && !data.getLsbD 11 }

/-- A scaled value is overloaded iff it lies strictly outside `-T..T`, before narrowing (R193). -/
def overloaded (thr : Half) (v : Int) : Bool := decide (v > thr.toNat) || decide (v < -thr.toNat)

/-- The 64-bit threshold `THR_HI ++ THR_LO` (R44). -/
def Threshold.value (t : Threshold) : Nat := t.hi.toNat * 2 ^ 32 + t.lo.toNat

/-- An enabled trigger flag and a finite threshold: not `2^64 - 1` (R44, R227). -/
def Threshold.armed (t : Threshold) : Bool := t.en && t.value != 2 ^ 64 - 1

/-- The gain-compensated comparison, exact and without division: `P * g_m^2 >= THR * g_e^2` (R236). -/
def reaches (power gm thr ge : Nat) : Bool := thr * ge ^ 2 ≤ power * gm ^ 2

/-- Whether a bucket of power `p` matches its threshold `t` in the present gain state (R222). -/
def bucketMatch (s : State) (p : BitVec 64) (t : Threshold) : Bool :=
  t.armed && reaches p.toNat (gainRow s.build (sens s.build)).lin.toNat t.value
    (gainRow s.build (erow s)).lin.toNat

/-- The match bits of a sub-window with bucket powers `p`, buckets `0 .. NB-1` (R222). -/
def matchBits (s : State) (p : Nat → BitVec 64) : List Bool :=
  (List.range s.build.nb).map (fun b => bucketMatch s (p b) (s.det.thr.getD b Threshold.reset))

/-- Whether a sub-window with match count `cnt` fires: `0 < cnt <= TRIG_MAXCNT` (R227). -/
def fired (maxCnt : Half) (cnt : Nat) : Bool := decide (0 < cnt) && decide (cnt ≤ maxCnt.toNat)

end Sys2Proof.Machine
end

