-- ==== Sys2Proof/Machine/Ring.lean ====
section
/-!
DEFINITION. The Buffer Ring & Sequencer (44_ring.md): the FIFO, the producer's procedures that
`HF.READY` runs, and the ring's own operations.
-/

namespace Sys2Proof.Machine

/-- `Push` (R268): a token on a full FIFO is dropped and raises `FIFO_OVF`; otherwise it is put in
place before it is counted. -/
def push (t : Word) (s : State) : State :=
  if s.ring.count.toNat = s.build.fc then s.faultFifoOvf
  else
    { s with
      mem := { s.mem with fifo := s.mem.fifo.write32 s.ring.tail.toNat t }
      ring :=
        { s.ring with
          tail := .ofNat 32 ((s.ring.tail.toNat + 1) % s.build.fc)
          count := .ofNat 32 (s.ring.count.toNat + 1) } }

/-- `Pop` (R269): the element keeps its value. -/
def pop (s : State) : State :=
  { s with
    ring :=
      { s.ring with
        head := .ofNat 32 ((s.ring.head.toNat + 1) % s.build.fc)
        count := .ofNat 32 (s.ring.count.toNat - 1) } }

/-- `Push(j); LAST_ENQ <- j` (R272, R274): `LAST_ENQ` is written also when the token was dropped. -/
def enqueueSlot (j : Nat) (s : State) : State :=
  let s1 := push (.ofNat 32 j) s
  { s1 with ring := { s1.ring with lastEnq := .ofNat 32 j } }

/-- The backfill loop of R272: `n` slots from `j` on, ascending. -/
def backfill : Nat → Nat → State → State
  | 0, _, s => s
  | n + 1, j, s => backfill n (j + 1) (enqueueSlot j s)

/-- The final index of a trigger taken at the active slot: `FILL + MIN_SLOTS` (R275). -/
def newFinal (s : State) : Nat := s.ring.fill.toNat + s.ring.minSlots.toNat

/-- The retrigger branch of `OnTrigger` (R272): the window is extended, no token is pushed. -/
def retrigger (s : State) : State :=
  { s with
    ring :=
      { s.ring with
        finalIndex := .ofNat 32 (max s.ring.finalIndex.toNat (newFinal s))
        trigIndex := s.ring.fill.setWidth 32 } }

/-- The first-trigger branch of `OnTrigger` (R272): `START` in triggered mode, the backfill of R273,
the trigger state. -/
def firstTrigger (s : State) : State :=
  let s1 := if s.ring.mode = .triggered then push startToken s else s
  let s2 := backfill (s.ring.fill.toNat - backfillFirst s) (backfillFirst s) s1
  { s2 with
    ring :=
      { s2.ring with
        isTriggered := true
        trigIndex := s.ring.fill.setWidth 32
        finalIndex := .ofNat 32 (newFinal s) } }

/-- `OnTrigger` (R272). -/
def onTrigger (s : State) : State := if s.ring.isTriggered then retrigger s else firstTrigger s

/-- The first two lines of `OnSlotFull` (R274): `WPOS <- 0`, and the fill counter advances or raises
`LIFETIME` at its last value (R277). -/
def advanceFill (s : State) : State :=
  let s1 := { s with ring := { s.ring with wpos := 0 } }
  if s.ring.fill.toNat < 2 ^ 31 - 1 then
    { s1 with ring := { s1.ring with fill := .ofNat 31 (s.ring.fill.toNat + 1) } }
  else s1.faultLifetime

/-- `Push(END)`, and the trigger state is left (R274). -/
def endSequence (s : State) : State :=
  let s1 := push endToken s
  { s1 with ring := { s1.ring with isTriggered := false } }

/-- `GATED_READING <- 1` (R274, R276). -/
def closeGate (s : State) : State := { s with ring := { s.ring with gatedReading := true } }

/-- The triggered part of `OnSlotFull` for the completed slot `c` (R274): enqueue it, and end the
sequence when it reaches the final index. -/
def slotWhileTriggered (c : Nat) (s : State) : State :=
  if s.ring.isTriggered then
    let s1 := enqueueSlot c s
    if s1.ring.finalIndex.toNat ≤ c then
      let s2 := endSequence s1
      if s2.ring.mode = .gated then closeGate s2 else s2
    else s1
  else s

/-- The last part of `OnSlotFull` (R274, R276): in gated mode a batch of `N + 1` entries closes the
gate. -/
def closeFullBatch (s : State) : State :=
  if s.ring.mode = .gated ∧ s.ring.gatedReading = false ∧ s.build.n + 1 ≤ s.ring.count.toNat then
    closeGate (endSequence s)
  else s

/-- `OnSlotFull` (R274), called when the active slot has received its `E`-th Sample. -/
def onSlotFull (s : State) : State :=
  let c := s.ring.fill.toNat
  let s1 := advanceFill s
  if s.ring.mode = .continuous then enqueueSlot c s1
  else closeFullBatch (slotWhileTriggered c s1)

/-- Store one Sample in the active slot (R270): `SLOT[(FILL mod N)*E + WPOS] <- x; WPOS <- WPOS + 1`. -/
def storeSample (x : Half) (s : State) : State :=
  { s with
    mem :=
      { s.mem with
        slot := s.mem.slot.write16
          (slotOf s.build s.ring.fill.toNat * s.build.e + s.ring.wpos.toNat) x }
    ring := { s.ring with wpos := .ofNat 32 (s.ring.wpos.toNat + 1) } }

/-- One pass of the loop of `RingAppend` (R270), the gate open. -/
def appendSample (x : Half) (s : State) : State :=
  let s1 := storeSample x s
  if s1.ring.wpos.toNat = s.build.e then onSlotFull s1 else s1

/-- The gate is closed (R263, R276). -/
def gateClosed (s : State) : Bool := s.ring.mode == .gated && s.ring.gatedReading

/-- The loop of `RingAppend` (R270): a gate that closes in mid-call discards the rest. -/
def appendSamples : List Half → State → State
  | [], s => s
  | x :: xs, s => if gateClosed s then s else appendSamples xs (appendSample x s)

/-- The gate reopens (R270, R276): `REC_DONE` and `GATED_READING` cleared, the new `START` pushed. -/
def reopenGate (s : State) : State :=
  push startToken { s with ring := { s.ring with recDone := false, gatedReading := false } }

/-- `RingAppend` (R270): take the one-shot flag; a closed gate discards everything unless the consumer
has signalled; the reopening call drops the flag it took; a trigger acts outside continuous mode
(R271). -/
def ringAppend (xs : List Half) (s : State) : State :=
  let s0 := { s with trigFlag := false }
  if gateClosed s then
    if s.ring.recDone then appendSamples xs (reopenGate s0) else s0
  else if s.trigFlag = true ∧ s.ring.mode ≠ .continuous then appendSamples xs (onTrigger s0)
  else appendSamples xs s0

/-- The rule of `RING.RESET` (R266): every ring register but the configuration, and `TRIG_FLAG`; in
gated mode the batch's `START` is pushed. -/
def ringResetRule (mode : Mode) (s : State) : State :=
  let s1 :=
    { s with
      trigFlag := false
      ring :=
        { s.ring with
          mode := mode, fill := 0, wpos := 0, head := 0, tail := 0, count := 0
          isTriggered := false, trigIndex := 0, finalIndex := 0, lastEnq := 0xFFFFFFFF
          gatedReading := false, recDone := false, rdActive := false, gnToken := 0xFFFFFFFF } }
  (if mode = .gated then push startToken s1 else s1).setResp 0

/-- The token at the head of the FIFO (R280: "peek"); an element never written is drawn (R90). -/
def headToken (s : State) : Word × Nat := s.mem.fifo.fetch32 s.ring.head.toNat s.env.draws

/-- A token older than the retention window (R282): `t < FILL - N + 1`. -/
def stale (s : State) (t : Int) : Bool := decide (t < (s.ring.fill.toNat : Int) - s.build.n + 1)

/-- A token not yet filled (R283): `t >= FILL`. -/
def future (s : State) (t : Int) : Bool := decide ((s.ring.fill.toNat : Int) ≤ t)

/-- A token held back at the start of a sequence (R284): `FILL - t < MAX_READ_LEAD`, never in gated
mode, never once a slot of the sequence has been yielded. -/
def deferred (s : State) (t : Int) : Bool :=
  s.ring.mode != .gated && !s.ring.rdActive &&
    decide ((s.ring.fill.toNat : Int) - t < s.ring.maxReadLead.toNat)

/-- `RD_ACTIVE <- v` (R280). -/
def setRdActive (v : Bool) (s : State) : State := { s with ring := { s.ring with rdActive := v } }

/-- The yield of a valid token (R280): it is popped and recorded, and its physical slot answered. -/
def yieldSlot (t : Word) (s : State) : State :=
  let s1 := pop (setRdActive true s)
  ({ s1 with ring := { s1.ring with gnToken := t } }).setResp (slotResp (slotOf s.build t.toInt))

/-- The loop of `RING.GETNEXT` (R280). Each pass that continues has popped one token, so `FIFO_COUNT`
passes are enough; with none left the FIFO is empty and the answer is 0. -/
def getNextLoop : Nat → State → State
  | 0, s => s.setResp 0
  | n + 1, s0 =>
    if s0.ring.count.toNat = 0 then s0.setResp 0
    else
      let t := (headToken s0).1
      let s := s0.setDraws (headToken s0).2
      if t = endToken then (pop (setRdActive false s)).setResp closeResp
      else if t = startToken then getNextLoop n (pop (setRdActive false s))
      else if stale s t.toInt then getNextLoop n (pop s)
      else if future s t.toInt then getNextLoop n (pop s)
      else if deferred s t.toInt then s.setResp 0
      else yieldSlot t s

/-- The rule of `RING.GETNEXT` (R280): with the gate open nothing is ready. -/
def ringGetnextRule (s : State) : State :=
  if s.ring.mode = .gated ∧ s.ring.gatedReading = false then s.setResp 0
  else getNextLoop s.ring.count.toNat s

/-- The rule of `RING.RECDONE` (R281). -/
def ringRecdoneRule (s : State) : State :=
  (if gateClosed s then { s with ring := { s.ring with recDone := true } } else s).setResp 0

/-- `RING.RESET` (R266). -/
def execRingReset (mode : Mode) (s : State) : Host.Outcome State Fault Refusal :=
  .next (command (ringResetRule mode) s)

/-- `RING.GETNEXT` (R280). -/
def execRingGetnext (s : State) : Host.Outcome State Fault Refusal :=
  .next (command ringGetnextRule s)

/-- `RING.RECDONE` (R281). -/
def execRingRecdone (s : State) : Host.Outcome State Fault Refusal :=
  .next (command ringRecdoneRule s)

end Sys2Proof.Machine
end

