-- ==== Sys2Proof/Machine/Acquire.lean ====
section
/-!
DEFINITION. The Sample Acquirer's operations (42_acquire.md).
-/

namespace Sys2Proof.Machine

/-- The rule of `PROC.SET` (R190): the single processor slot. -/
def procSetRule (sel : Proc) (s : State) : State :=
  { s with acq := { s.acq with proc := sel } }.setResp 0

/-- The raw samples of a half of `RAW` (R191): `RAW[half*H .. half*H+H-1]`, an element never written
drawn (R90), and the number of draws made so far. -/
def rawHalf (half : BitVec 1) (s : State) : List Half × Nat :=
  s.mem.raw.fetchRun (half.toNat * s.build.h) s.build.h s.env.draws

/-- The scaled values of raw samples (R191, R192). -/
def scaleAll (offset : Half) (shift : BitVec 4) (s : State) (raws : List Half) : List Int :=
  raws.map (fun raw => scaled raw offset shift s.acq.sclCorr)

/-- Publication (R195): the stable buffer, the generation counter and the ready flag. -/
def publish (samples : List Half) (s : State) : State :=
  { s with
    mem := { s.mem with hf := s.mem.hf.writeRun 0 samples }
    acq := { s.acq with gen := s.acq.gen + 1, hfReady := true } }

/-- The overload report of a Half-Frame (R193): the sticky bit and one event, if any sample was
overloaded. -/
def reportOverload (vs : List Int) (s : State) : State :=
  if vs.any (overloaded s.acq.ovlThr) then
    { s with sticky := { s.sticky with ovl := true } }.emit .ovlEvt
  else s

/-- The hand-over to the registered processor (R196). -/
def handOver (samples : List Half) (s : State) : State :=
  match s.acq.proc with
  | .none => s
  | .ring => ringAppend samples s
  | .usb => s.emit (.usbOut samples)

/-- The rule of `HF.READY` (R191). -/
def hfReadyRule (half : BitVec 1) (offset : Half) (shift : BitVec 4) (s : State) : State :=
  let raws := rawHalf half s
  let vs := scaleAll offset shift s raws.1
  let samples := vs.map (narrow s.build.narrow)
  (handOver samples (reportOverload vs (publish samples (s.setDraws raws.2)))).setResp 0

/-- `PROC.SET` (R190). -/
def execProcSet (sel : Proc) (s : State) : Host.Outcome State Fault Refusal :=
  .next (command (procSetRule sel) s)

/-- `HF.READY` (R191). -/
def execHfReady (half : BitVec 1) (offset : Half) (shift : BitVec 4) (s : State) :
    Host.Outcome State Fault Refusal :=
  .next (command (hfReadyRule half offset shift) s)

end Sys2Proof.Machine
end

