-- ==== Sys2Proof/Machine/Power.lean ====
section
/-!
DEFINITION. `POWER_FN` (R231): the reference function of R232, or the builder's own.
-/

namespace Sys2Proof.Machine

/-- The windowing of R232: `xw[n] = (x[n] * HANN[n]) >> 15`, the shift rounding down (R13). -/
def windowed : List Half → List Int → List Int
  | x :: xs, g :: gs => (x.toInt * g / 2 ^ 15) :: windowed xs gs
  | _, _ => []

/-- The sum of R232 for bin `k` against a table, from sample `n` on: `xw[n] * T[(k*n) mod W]`. -/
def binSum (w : Nat) (table : List Int) (k : Nat) : Nat → List Int → Int
  | _, [] => 0
  | n, x :: xs => x * table.getD (k * n % w) 0 + binSum w table k (n + 1) xs

/-- The reference power of bucket `k` (R232): one rescale after each sum, then `re*re + im*im`. -/
def referencePower (hann cos sin : List Int) (w : Nat) (x : List Half) (k : Nat) : BitVec 64 :=
  let xw := windowed x hann
  let re := binSum w cos k 0 xw / 2 ^ 15
  let im := binSum w sin k 0 xw / 2 ^ 15
  .ofInt 64 (re * re + im * im)

/-- The power of bucket `k` of the `W` Samples `x` by the build's `POWER_FN` (R231): a function of the
Samples alone, a number in `0 .. 2^64 - 1`. -/
def bucketPower (b : Build) (x : List Half) (k : Nat) : BitVec 64 :=
  match b.power with
  | .reference hann cos sin => referencePower hann cos sin b.w x k
  | .builder id => Config.builderPower id x k

end Sys2Proof.Machine
end

