-- ==== Sys2Proof/Machine/Detect.lean ====
section
/-!
DEFINITION. The Spectral Trigger Detector's operations (43_trigger.md).
-/

namespace Sys2Proof.Machine

/-- The rule of `DET.BEGIN` (R221). -/
def detBeginRule (s : State) : State :=
  if s.det.busy then s.errState
  else if s.acq.hfReady then
    { s with
      acq := { s.acq with hfReady := false }
      det := { s.det with gen := s.acq.gen, busy := true, win := 0, acc := false } }.setResp 1
  else s.setResp 0

/-- The Samples of sub-window `WIN` (R222, R225): the copy to the scratch buffer; an element of `HF`
never written is drawn (R90). -/
def subWindow (s : State) : List Half × Nat :=
  s.mem.hf.fetchRun (subWindowStart s.build s.det.win.toNat) s.build.w s.env.draws

/-- Steps 4 to 6 of an evaluation on the bucket powers `p` of one sub-window (R222, R227, R228). -/
def judgeWindow (p : Nat → BitVec 64) (s : State) : State :=
  let ms := matchBits s p
  let f := fired s.det.trigMaxCnt (ms.count true)
  { s with
    det :=
      { s.det with
        matchVec := .ofNat 256 (packBits ms)
        matchCnt := .ofNat 16 (ms.count true)
        acc := s.det.acc || f
        win := .ofNat 8 (s.det.win.toNat + 1) } }.setResp (if f then 1 else 0)

/-- The rule of `DET.WIN` (R222). -/
def detWinRule (s : State) : State :=
  if s.det.busy = false ∨ s.build.nsw ≤ s.det.win.toNat then s.errState
  else
    let x := subWindow s
    judgeWindow (bucketPower s.build x.1) (s.setDraws x.2)

/-- The rule of `DET.COMMIT` (R223). -/
def detCommitRule (s : State) : State :=
  if s.det.busy = false then s.errState
  else
    let s1 := { s with det := { s.det with busy := false } }
    if s.det.acc then
      if s.acq.gen = s.det.gen then ({ s1 with trigFlag := true }.emit .trigEvt).setResp 1
      else s1.setResp 2
    else s1.setResp 0

/-- `DET.BEGIN` (R221). -/
def execDetBegin (s : State) : Host.Outcome State Fault Refusal := .next (command detBeginRule s)

/-- `DET.WIN` (R222). -/
def execDetWin (s : State) : Host.Outcome State Fault Refusal := .next (command detWinRule s)

/-- `DET.COMMIT` (R223). -/
def execDetCommit (s : State) : Host.Outcome State Fault Refusal := .next (command detCommitRule s)

end Sys2Proof.Machine
end

