-- ==== Sys2Proof/Machine/Gain.lean ====
section
/-!
DEFINITION. The Gain Controller's operations (41_gain.md).
-/

namespace Sys2Proof.Machine

/-- `GainEmit` (R171): the amplifier command, sent twice. -/
def gainEmit (s : State) : State :=
  let code := (gainRow s.build (erow s)).code
  (s.emit (.gainCmd code)).emit (.gainCmd code)

/-- Store the active range (8 bits, R31). -/
def setRange (s : State) (r : Nat) : State := { s with gain := { s.gain with range := .ofNat 8 r } }

/-- Store the disabled flag (R31). -/
def setDisabled (s : State) (dis : Bool) : State := { s with gain := { s.gain with dis := dis } }

/-- What `GAIN.SET` and `GAIN.SETDB` do with the range they arrive at: store it and the flag, send the
command, answer the range (R172, R173). -/
def selectRange (s : State) (r : Nat) (dis : Bool) : State :=
  let s1 := gainEmit (setDisabled (setRange s r) dis)
  s1.setResp (s1.gain.range.setWidth 32)

/-- The rule of `GAIN.SET` (R172). -/
def gainSetRule (range : Byte) (dis : Bool) (s : State) : State :=
  selectRange s (clampRange s range.toNat) dis

/-- The rule of `GAIN.SETDB` (R173). -/
def gainSetdbRule (db : Half) (dis : Bool) (s : State) : State :=
  selectRange s (nearestRange s db) dis

/-- The rule of `GAIN.UP` (R174). -/
def gainUpRule (s : State) : State :=
  if s.gain.range.toNat < rangeHi s then
    (gainEmit (setRange s (s.gain.range.toNat + 1))).setResp 1
  else s.setResp 0

/-- The rule of `GAIN.DOWN` (R175). -/
def gainDownRule (s : State) : State :=
  if rangeLo s < s.gain.range.toNat then
    (gainEmit (setRange s (s.gain.range.toNat - 1))).setResp 1
  else s.setResp 0

/-- The rule of `GAIN.GETDB` (R176). -/
def gainGetdbRule (s : State) : State :=
  s.setResp ((gainRow s.build (erow s)).db.signExtend 32)

/-- The rule of `GAIN.GETSHIFT` (R177). -/
def gainGetshiftRule (s : State) : State :=
  s.setResp ((gainRow s.build (erow s)).shift.setWidth 32)

/-- The rule of `GAIN.FORRANGE` (R178): the limits do not apply, the index is clamped to the table. -/
def gainForrangeRule (range : Byte) (s : State) : State :=
  s.setResp (gainRow s.build (clamp range.toNat 0 (s.build.nr - 1))).lin

/-- The rule of `GAIN.SHIFTFOR` (R179). -/
def gainShiftforRule (range : Byte) (s : State) : State :=
  s.setResp ((gainRow s.build (clamp range.toNat 0 (s.build.nr - 1))).shift.setWidth 32)

/-- `GAIN.SET` (R172). -/
def execGainSet (range : Byte) (dis : Bool) (s : State) : Host.Outcome State Fault Refusal :=
  .next (command (gainSetRule range dis) s)

/-- `GAIN.SETDB` (R173). -/
def execGainSetdb (db : Half) (dis : Bool) (s : State) : Host.Outcome State Fault Refusal :=
  .next (command (gainSetdbRule db dis) s)

/-- `GAIN.UP` (R174). -/
def execGainUp (s : State) : Host.Outcome State Fault Refusal := .next (command gainUpRule s)

/-- `GAIN.DOWN` (R175). -/
def execGainDown (s : State) : Host.Outcome State Fault Refusal := .next (command gainDownRule s)

/-- `GAIN.GETDB` (R176). -/
def execGainGetdb (s : State) : Host.Outcome State Fault Refusal := .next (command gainGetdbRule s)

/-- `GAIN.GETSHIFT` (R177). -/
def execGainGetshift (s : State) : Host.Outcome State Fault Refusal :=
  .next (command gainGetshiftRule s)

/-- `GAIN.FORRANGE` (R178). -/
def execGainForrange (range : Byte) (s : State) : Host.Outcome State Fault Refusal :=
  .next (command (gainForrangeRule range) s)

/-- `GAIN.SHIFTFOR` (R179). -/
def execGainShiftfor (range : Byte) (s : State) : Host.Outcome State Fault Refusal :=
  .next (command (gainShiftforRule range) s)

end Sys2Proof.Machine
end

