-- ==== Sys2Proof/Machine/System.lean ====
section
/-!
DEFINITION. The system commands: `NOP` (R152) and `SYS.RESET` (R153).
-/

namespace Sys2Proof.Machine

/-- The rule of `NOP` (R152): only `RESP` is written. -/
def nopRule (s : State) : State := s.setResp 0

/-- The rule of `SYS.RESET` (R153): the reset of R360; `RESP` is 0 after it. -/
def sysResetRule (s : State) : State := s.resetCore

/-- `NOP` (R152). -/
def execNop (s : State) : Host.Outcome State Fault Refusal := .next (command nopRule s)

/-- `SYS.RESET` (R153), the only command accepted while halted (R154). -/
def execSysReset (s : State) : Host.Outcome State Fault Refusal := .next (sysResetRule s)

end Sys2Proof.Machine
end

