-- ==== Sys2Proof/Machine/Command.lean ====
section
/-!
DEFINITION. The command dispatch (R154): what a write of a command word to `CMD` does.
-/

namespace Sys2Proof.Machine

/-- Perform the rule of a decoded command (R131, R154). A bus operation is no command and is never
decoded from a command word (R120); were it, it would be an illegal word. -/
def perform : Instr → State → State
  | .nop, s => nopRule s
  | .sysReset, s => sysResetRule s
  | .gainSet range dis, s => gainSetRule range dis s
  | .gainSetdb db dis, s => gainSetdbRule db dis s
  | .gainUp, s => gainUpRule s
  | .gainDown, s => gainDownRule s
  | .gainGetdb, s => gainGetdbRule s
  | .gainGetshift, s => gainGetshiftRule s
  | .gainForrange range, s => gainForrangeRule range s
  | .gainShiftfor range, s => gainShiftforRule range s
  | .procSet sel, s => procSetRule sel s
  | .hfReady half offset shift, s => hfReadyRule half offset shift s
  | .detBegin, s => detBeginRule s
  | .detWin, s => detWinRule s
  | .detCommit, s => detCommitRule s
  | .ringReset mode, s => ringResetRule mode s
  | .ringGetnext, s => ringGetnextRule s
  | .ringRecdone, s => ringRecdoneRule s
  | .busRd _, s => s.errCmd
  | .busWr _ _, s => s.errCmd

/-- The word of `SYS.RESET`, the only one accepted while halted (R154). -/
abbrev sysResetWord : Word := 0x01000000

/-- `CmdWrite` (R154): halted first, then the decoding, then the rule. -/
def cmdWrite (w : Word) (s : State) : State :=
  if s.halted = true ∧ w ≠ sysResetWord then s.setResp refusedResp
  else
    match decodeCommand w with
    | .ok i => perform i s
    | .error _ => s.errCmd

end Sys2Proof.Machine
end

