-- ==== Sys2Proof/Machine/Csr.lean ====
section
/-!
DEFINITION. The control and status registers (10_state.md section 3): the complete map of R47, the access
kinds of R49, what a read answers and what a write stores.
-/

namespace Sys2Proof.Machine

/-- The registers of R47. `matchVec w` is `MATCH_VEC[w]`; `thrLo b`, `thrHi b`, `thrCtl b` are the
threshold entry of bucket `b`. -/
inductive Csr where
  | id | cmd | resp | status | fault | gen | hfPtr | hfBytes | proc | sclCorr | ovlThr
  | gainState | gainMin | gainMax | trigMaxCnt | matchCnt | detGen | detWin
  | matchVec (w : Nat)
  | mode | fill | wpos | wslot | fifoCount | fifoHead | fifoTail
  | trigIndex | finalIndex | lastEnq | gnToken
  | pretrigSlots | minSlots | bufferDelta | maxReadLead
  | pH | pW | pNsw | pNb | pN | pE | pFc | pNr
  | thrLo (b : Nat) | thrHi (b : Nat) | thrCtl (b : Nat)
  deriving DecidableEq, Repr

/-- The register of the threshold table at an offset (R44): entries of 16 bytes from `0x400` for the
buckets `0..NB-1`, the fourth word of an entry unmapped. -/
def thresholdAt (b : Build) (off : Nat) : Option Csr :=
  if 0x400 ≤ off ∧ (off - 0x400) / 16 < b.nb then
    match (off - 0x400) % 16 with
    | 0 => some (.thrLo ((off - 0x400) / 16))
    | 4 => some (.thrHi ((off - 0x400) / 16))
    | 8 => some (.thrCtl ((off - 0x400) / 16))
    | _ => none
  else none

/-- The complete CSR map (R47): the register at a byte offset, none where it is unmapped (R48). -/
def csrAt (b : Build) (off : Nat) : Option Csr :=
  match off with
  | 0x000 => some .id
  | 0x004 => some .cmd
  | 0x008 => some .resp
  | 0x00C => some .status
  | 0x010 => some .fault
  | 0x020 => some .gen
  | 0x024 => some .hfPtr
  | 0x028 => some .hfBytes
  | 0x02C => some .proc
  | 0x030 => some .sclCorr
  | 0x034 => some .ovlThr
  | 0x040 => some .gainState
  | 0x044 => some .gainMin
  | 0x048 => some .gainMax
  | 0x050 => some .trigMaxCnt
  | 0x054 => some .matchCnt
  | 0x058 => some .detGen
  | 0x05C => some .detWin
  | 0x060 => some (.matchVec 0)
  | 0x064 => some (.matchVec 1)
  | 0x068 => some (.matchVec 2)
  | 0x06C => some (.matchVec 3)
  | 0x070 => some (.matchVec 4)
  | 0x074 => some (.matchVec 5)
  | 0x078 => some (.matchVec 6)
  | 0x07C => some (.matchVec 7)
  | 0x080 => some .mode
  | 0x084 => some .fill
  | 0x088 => some .wpos
  | 0x08C => some .wslot
  | 0x090 => some .fifoCount
  | 0x094 => some .fifoHead
  | 0x098 => some .fifoTail
  | 0x09C => some .trigIndex
  | 0x0A0 => some .finalIndex
  | 0x0A4 => some .lastEnq
  | 0x0A8 => some .gnToken
  | 0x0B0 => some .pretrigSlots
  | 0x0B4 => some .minSlots
  | 0x0B8 => some .bufferDelta
  | 0x0BC => some .maxReadLead
  | 0x0C0 => some .pH
  | 0x0C4 => some .pW
  | 0x0C8 => some .pNsw
  | 0x0CC => some .pNb
  | 0x0D0 => some .pN
  | 0x0D4 => some .pE
  | 0x0D8 => some .pFc
  | 0x0DC => some .pNr
  | _ => thresholdAt b off

/-- The access kinds (R49); `STATUS` is the one register with write-one-to-clear bits (R26). -/
inductive Access where
  | ro
  | rw
  | wo
  | w1c
  deriving DecidableEq, Repr

/-- The access kind of each register (R47). -/
def Csr.access : Csr → Access
  | .cmd => .wo
  | .status => .w1c
  | .sclCorr => .rw
  | .ovlThr => .rw
  | .gainMin => .rw
  | .gainMax => .rw
  | .trigMaxCnt => .rw
  | .pretrigSlots => .rw
  | .minSlots => .rw
  | .bufferDelta => .rw
  | .maxReadLead => .rw
  | .thrLo _ => .rw
  | .thrHi _ => .rw
  | .thrCtl _ => .rw
  | _ => .ro

/-- The threshold entry of bucket `b` (R44). -/
def thrEntry (s : State) (b : Nat) : Threshold := s.det.thr.getD b Threshold.reset

/-- What a read of a register answers (R23 to R46); fields not listed read as zero (R49). -/
def csrRead (s : State) : Csr → Word
  | .id => 0x42470595
  | .cmd => 0
  | .resp => s.resp
  | .status => statusWord s
  | .fault => faultWord s
  | .gen => s.acq.gen
  | .hfPtr => 0x20000000
  | .hfBytes => .ofNat 32 (2 * s.build.h)
  | .proc => .ofNat 32 (match s.acq.proc with | .none => 0 | .ring => 1 | .usb => 2)
  | .sclCorr => s.acq.sclCorr.setWidth 32
  | .ovlThr => s.acq.ovlThr.setWidth 32
  | .gainState => .ofNat 32 (s.gain.range.toNat + s.gain.dis.toNat * 2 ^ 8)
  | .gainMin => s.gain.min.setWidth 32
  | .gainMax => s.gain.max.setWidth 32
  | .trigMaxCnt => s.det.trigMaxCnt.setWidth 32
  | .matchCnt => s.det.matchCnt.setWidth 32
  | .detGen => s.det.gen
  | .detWin => .ofNat 32 (s.det.win.toNat + s.det.acc.toNat * 2 ^ 8)
  | .matchVec w => s.det.matchVec.extractLsb' (32 * w) 32
  | .mode => .ofNat 32 (match s.ring.mode with | .continuous => 0 | .triggered => 1 | .gated => 2)
  | .fill => s.ring.fill.setWidth 32
  | .wpos => s.ring.wpos
  | .wslot => .ofNat 32 (slotOf s.build s.ring.fill.toNat)
  | .fifoCount => s.ring.count
  | .fifoHead => s.ring.head
  | .fifoTail => s.ring.tail
  | .trigIndex => s.ring.trigIndex
  | .finalIndex => s.ring.finalIndex
  | .lastEnq => s.ring.lastEnq
  | .gnToken => s.ring.gnToken
  | .pretrigSlots => s.ring.pretrigSlots.setWidth 32
  | .minSlots => s.ring.minSlots.setWidth 32
  | .bufferDelta => s.ring.bufferDelta.setWidth 32
  | .maxReadLead => s.ring.maxReadLead.setWidth 32
  | .pH => .ofNat 32 s.build.h
  | .pW => .ofNat 32 s.build.w
  | .pNsw => .ofNat 32 s.build.nsw
  | .pNb => .ofNat 32 s.build.nb
  | .pN => .ofNat 32 s.build.n
  | .pE => .ofNat 32 s.build.e
  | .pFc => .ofNat 32 s.build.fc
  | .pNr => .ofNat 32 s.build.nr
  | .thrLo b => (thrEntry s b).lo
  | .thrHi b => (thrEntry s b).hi
  | .thrCtl b => .ofNat 32 (thrEntry s b).en.toNat

/-- Put a threshold entry in the table (R44). -/
def setThr (s : State) (b : Nat) (t : Threshold) : State :=
  { s with det := { s.det with thr := s.det.thr.set b t } }

/-- What a write to an RW register stores: its field, the other bits dropped (R40 to R45, R49). The
registers that are not RW have no field to store. -/
def csrStore (v : Word) (s : State) : Csr → State
  | .sclCorr => { s with acq := { s.acq with sclCorr := v.setWidth 16 } }
  | .ovlThr => { s with acq := { s.acq with ovlThr := v.setWidth 16 } }
  | .gainMin => { s with gain := { s.gain with min := v.setWidth 8 } }
  | .gainMax => { s with gain := { s.gain with max := v.setWidth 8 } }
  | .trigMaxCnt => { s with det := { s.det with trigMaxCnt := v.setWidth 16 } }
  | .pretrigSlots => { s with ring := { s.ring with pretrigSlots := v.setWidth 16 } }
  | .minSlots => { s with ring := { s.ring with minSlots := v.setWidth 16 } }
  | .bufferDelta => { s with ring := { s.ring with bufferDelta := v.setWidth 16 } }
  | .maxReadLead => { s with ring := { s.ring with maxReadLead := v.setWidth 16 } }
  | .thrLo b => setThr s b { thrEntry s b with lo := v }
  | .thrHi b => setThr s b { thrEntry s b with hi := v }
  | .thrCtl b => setThr s b { thrEntry s b with en := v.getLsbD 0 }
  | _ => s

end Sys2Proof.Machine
end

