-- ==== Sys2Proof/Machine/Bus.lean ====
section
/-!
DEFINITION. The bus operations `BUS.RD` (R150) and `BUS.WR` (R151) over the five address spaces (R80,
R81).
-/

namespace Sys2Proof.Machine

/-- The address spaces (R80). -/
inductive Space where
  | csr
  | raw
  | hf
  | slot
  | fifo
  deriving DecidableEq, Repr

/-- The space that `addr[31:28]` selects; selectors 5 to 15 are unmapped (R81). -/
def spaceOf (addr : Word) : Option Space :=
  match slice addr 31 28 with
  | 0 => some .csr
  | 1 => some .raw
  | 2 => some .hf
  | 3 => some .slot
  | 4 => some .fifo
  | _ => none

/-- The byte offset `addr[27:0]` (R81). -/
def offsetOf (addr : Word) : Nat := slice addr 27 0

/-- The element of a memory that a byte offset names (R81, R83): naturally aligned in elements of
`width` bytes and inside the `size` elements of the space; none otherwise. -/
def elementAt (width size off : Nat) : Option Nat :=
  if off % width = 0 ∧ off / width < size then some (off / width) else none

/-- What a bus address names: a register, or an element of a memory; none where the access is
misaligned, outside the populated range or unmapped (R83, R89). -/
inductive Target where
  | csr (r : Csr)
  | raw (i : Nat)
  | hf (i : Nat)
  | slot (i : Nat)
  | fifo (i : Nat)
  deriving DecidableEq, Repr

/-- The address map (R47, R80, R81, R83). An offset that is not a multiple of 4 is no register's. -/
def targetOf (b : Build) (addr : Word) : Option Target :=
  match spaceOf addr with
  | some .csr => (csrAt b (offsetOf addr)).map .csr
  | some .raw => (elementAt 2 (2 * b.h) (offsetOf addr)).map .raw
  | some .hf => (elementAt 2 b.h (offsetOf addr)).map .hf
  | some .slot => (elementAt 2 (b.n * b.e) (offsetOf addr)).map .slot
  | some .fifo => (elementAt 4 b.fc (offsetOf addr)).map .fifo
  | none => none

/-- The datum of a read of a 16-bit element: zero-extended (R84), with the draws made so far (R90). -/
def wide (x : Half × Nat) : Word × Nat := (x.1.setWidth 32, x.2)

/-- The datum a target answers (R150), with the number of draws made so far (R90). -/
def readTarget (s : State) : Target → Word × Nat
  | .csr r => (csrRead s r, s.env.draws)
  | .raw i => wide (s.mem.raw.fetch16 i s.env.draws)
  | .hf i => wide (s.mem.hf.fetch16 i s.env.draws)
  | .slot i => wide (s.mem.slot.fetch16 i s.env.draws)
  | .fifo i => s.mem.fifo.fetch32 i s.env.draws

/-- The rule of `BUS.RD` (R150): the datum goes back to the issuing master; a bad access answers 0 and
sets `ERR_BUS`. Halted or not makes no difference. -/
def busRdRule (addr : Word) (s : State) : State :=
  match targetOf s.build addr with
  | none => s.errBus.reply addr 0
  | some t =>
    let x := readTarget s t
    (s.setDraws x.2).reply addr x.1

/-- A write to a register (R151): `CMD` runs the command; while halted `STATUS` and the RW registers
ignore it; a read-only register sets `ERR_BUS`. -/
def writeCsr (r : Csr) (data : Word) (s : State) : State :=
  match r.access with
  | .wo => cmdWrite data s
  | .w1c => if s.halted then s else { s with sticky := clearSticky s.sticky data }
  | .rw => if s.halted then s else csrStore data s r
  | .ro => s.errBus

/-- The rule of `BUS.WR` (R151): `RAW` is written also while halted; `HF`, `SLOT` and `FIFO` are
read-only on the bus. -/
def busWrRule (addr data : Word) (s : State) : State :=
  match targetOf s.build addr with
  | some (.csr r) => writeCsr r data s
  | some (.raw i) =>
    { s with mem := { s.mem with raw := s.mem.raw.write16 i (data.setWidth 16) } }
  | some (.hf _) => s.errBus
  | some (.slot _) => s.errBus
  | some (.fifo _) => s.errBus
  | none => s.errBus

/-- `BUS.RD` (R150). -/
def execBusRd (addr : Word) (s : State) : Host.Outcome State Fault Refusal :=
  .next (busRdRule addr s)

/-- `BUS.WR` (R151). -/
def execBusWr (addr data : Word) (s : State) : Host.Outcome State Fault Refusal :=
  .next (busWrRule addr data s)

end Sys2Proof.Machine
end

