-- ==== Sys2Proof/Machine/Dispatch.lean ====
section
/-!
DEFINITION. The operations' dispatch: one arm per constructor of `Instr`.
-/

namespace Sys2Proof.Machine

def exec (i : Instr) (s : State) : Host.Outcome State Fault Refusal :=
  match i with
  | .nop => Sys2Proof.Machine.execNop s
  | .sysReset => Sys2Proof.Machine.execSysReset s
  | .gainSet range dis => Sys2Proof.Machine.execGainSet range dis s
  | .gainSetdb db dis => Sys2Proof.Machine.execGainSetdb db dis s
  | .gainUp => Sys2Proof.Machine.execGainUp s
  | .gainDown => Sys2Proof.Machine.execGainDown s
  | .gainGetdb => Sys2Proof.Machine.execGainGetdb s
  | .gainGetshift => Sys2Proof.Machine.execGainGetshift s
  | .gainForrange range => Sys2Proof.Machine.execGainForrange range s
  | .gainShiftfor range => Sys2Proof.Machine.execGainShiftfor range s
  | .procSet sel => Sys2Proof.Machine.execProcSet sel s
  | .hfReady half offset shift => Sys2Proof.Machine.execHfReady half offset shift s
  | .detBegin => Sys2Proof.Machine.execDetBegin s
  | .detWin => Sys2Proof.Machine.execDetWin s
  | .detCommit => Sys2Proof.Machine.execDetCommit s
  | .ringReset mode => Sys2Proof.Machine.execRingReset mode s
  | .ringGetnext => Sys2Proof.Machine.execRingGetnext s
  | .ringRecdone => Sys2Proof.Machine.execRingRecdone s
  | .busRd addr => Sys2Proof.Machine.execBusRd addr s
  | .busWr addr data => Sys2Proof.Machine.execBusWr addr data s

end Sys2Proof.Machine
end

