-- ==== Sys2Proof/Machine/Offer.lean ====
section
/-!
DEFINITION. Where the next operation comes from (R21, R95, R327, R340): the masters' queues of offered
bus operations, the reset pin, the free choice among them, and the offer of one command word.
-/

namespace Sys2Proof.Machine

/-- Who can move next: a master with an operation offered, or the reset pin (R340, R360). -/
inductive Source where
  | agent (a : Agent)
  | resetPin
  deriving DecidableEq, Repr

/-- The operations a master offers, in its own order (R95). -/
def Env.queue (e : Env) : Agent → List BusOp
  | .dma => e.dmaQ
  | .acq => e.acqQ
  | .main => e.mainQ
  | .reader => e.readerQ

/-- Replace the operations a master offers. -/
def Env.setQueue (e : Env) (a : Agent) (q : List BusOp) : Env :=
  match a with
  | .dma => { e with dmaQ := q }
  | .acq => { e with acqQ := q }
  | .main => { e with mainQ := q }
  | .reader => { e with readerQ := q }

/-- The sources that can move next. -/
def Env.offers (e : Env) : List Source :=
  (([.dma, .acq, .main, .reader].filter (fun a => !(e.queue a).isEmpty)).map Source.agent) ++
    (if e.resetPin then [.resetPin] else [])

/-- The choice of the source that moves next, and the number of free choices made so far: with one
offer there is none to make; with several, either order is allowed (R327, log 4). -/
def Env.choose (e : Env) : Option Source × Nat :=
  match e.offers with
  | [] => (none, e.turns)
  | [x] => (some x, e.turns)
  | x :: y :: rest =>
    (some ((x :: y :: rest).getD (Config.arbiter e.turns % (rest.length + 2)) x), e.turns + 1)

/-- The state in which a master's operation is performed: its queue advanced to `rest`, the master
granted, `turns` free choices made so far. -/
def State.granted (s : State) (a : Agent) (rest : List BusOp) (turns : Nat) : State :=
  { s with env := { s.env.setQueue a rest with grant := a, turns := turns } }

/-- The state in which the reset pin is taken: its pulse is spent (R360, log 6). -/
def State.pinTaken (s : State) (turns : Nat) : State :=
  { s with env := { s.env with resetPin := false, turns := turns } }

/-- What a step has to do. -/
inductive Work where
  /-- Nothing is offered: the core holds (log 5). -/
  | idle
  /-- The hardware reset input (R360), in the state given. -/
  | hardReset (s : State)
  /-- One operation, in the state given. -/
  | operation (op : BusOp) (s : State)
  deriving DecidableEq, Repr

/-- Take the next operation of the total order of R95. -/
def nextWork (s : State) : Work :=
  match s.env.choose with
  | (none, _) => .idle
  | (some .resetPin, turns) => .hardReset (s.pinTaken turns)
  | (some (.agent a), turns) =>
    match s.env.queue a with
    | [] => .idle
    | op :: rest => .operation op (s.granted a rest turns)

/-- Only the write of one command word to `CMD` is offered, by the main loop's master (R120, R340). -/
def State.offerCommand (s : State) (w : Word) : State :=
  { s with
    env :=
      { s.env with
        dmaQ := [], acqQ := [], mainQ := [.wr cmdAddr w], readerQ := [], resetPin := false } }

end Sys2Proof.Machine
end

