-- ==== Sys2Proof/Machine/Step.lean ====
section
/-!
DEFINITION. One step: the next operation of the total order of R95, performed whole (R15).
-/

namespace Sys2Proof.Machine

/-- One step of the machine: the operation taken from the masters' offers is decoded and performed; a
pulse of the reset pin resets the core (R360); with nothing offered the core holds (log 5). -/
def step (s : State) : Host.Outcome State Fault Refusal :=
  match nextWork s with
  | .idle => .next s
  | .hardReset s' => .next s'.resetCore
  | .operation op s' => exec op.instr s'

/-- The state with one command word offered and nothing else, so that the next step performs it
(log 3): the word of the opcode table is the datum of a write to `CMD` (R120). -/
def State.withFetchWord (s : State) (nbits w : Nat) : State :=
  s.offerCommand (.ofNat 32 (w % 2 ^ nbits))

end Sys2Proof.Machine
end

