-- ==== Sys2Proof/Machine/Pseudo.lean ====
section
/-!
DEFINITION. The pseudo-instructions of R135: fixed lists of bus operations, with no encoding and no
atomicity of their own. A master performs one by offering its list.
-/

namespace Sys2Proof.Machine

/-- `CSRW NAME, v` (R135), the register given by its offset (R47). -/
def pseudoCsrw (off : Nat) (v : Word) : List BusOp := [.wr (.ofNat 32 off) v]

/-- `CSRR NAME` (R135). -/
def pseudoCsrr (off : Nat) : List BusOp := [.rd (.ofNat 32 off)]

/-- `THR.SET b, t, en` (R135): the low half, the high half, the enable bit, in that order. -/
def pseudoThrSet (b : Nat) (t : BitVec 64) (en : Bool) : List BusOp :=
  [.wr (.ofNat 32 (0x400 + 16 * b)) (t.extractLsb' 0 32),
   .wr (.ofNat 32 (0x404 + 16 * b)) (t.extractLsb' 32 32),
   .wr (.ofNat 32 (0x408 + 16 * b)) (.ofNat 32 en.toNat)]

/-- The writes of `RAW.LOAD` from element `i` on (R135). -/
def rawWrites (i : Nat) : List Half → List BusOp
  | [] => []
  | v :: vs => .wr (.ofNat 32 (0x10000000 + 2 * i)) (v.setWidth 32) :: rawWrites (i + 1) vs

/-- `RAW.LOAD half=h, v[0..H-1]` (R135). -/
def pseudoRawLoad (b : Build) (half : BitVec 1) (vs : List Half) : List BusOp :=
  rawWrites (half.toNat * b.h) vs

/-- `DET.EVAL` (R135, R224): `DET.BEGIN`, `NSW` times `DET.WIN`, `DET.COMMIT`. -/
def pseudoDetEval (b : Build) : List BusOp :=
  encode .detBegin :: (List.replicate b.nsw (encode .detWin) ++ [encode .detCommit])

/-- `W1C bits` (R135): a write to `STATUS`. -/
def pseudoW1c (bits : Word) : List BusOp := [.wr 0x0000000C bits]

end Sys2Proof.Machine
end

