-- ==== Sys2Proof/Safety.lean ====
section
/-!
DEFINITION. What claims about the machine are stated in: the invariants of R286 and of the registers'
stated ranges, the FIFO's tokens, the register map as a list, runs of operations, and the host's
obligations on its configuration.
-/

namespace Sys2Proof.Machine

/-- Both bytes of a 16-bit element are written, or neither (R84: an access is of a whole element). -/
def Memory.whole16 (m : Memory) : Prop :=
  ∀ i, (m.readByte (2 * i)).isSome = (m.readByte (2 * i + 1)).isSome

/-- All four bytes of a 32-bit element are written, or none (R84). -/
def Memory.whole32 (m : Memory) : Prop :=
  ∀ i k, k < 4 → (m.readByte (4 * i)).isSome = (m.readByte (4 * i + k)).isSome

/-- Every written byte of a memory lies below `size` bytes. -/
def Memory.within (m : Memory) (size : Nat) : Prop := ∀ c ∈ m, c.1 < size

/-- The memories are in canonical form and hold nothing outside their populated ranges (R80). -/
def Memories.inv (b : Build) (m : Memories) : Prop :=
  (m.raw.wf ∧ m.raw.within (4 * b.h)) ∧ (m.hf.wf ∧ m.hf.within (2 * b.h)) ∧
    (m.slot.wf ∧ m.slot.within (2 * (b.n * b.e))) ∧ (m.fifo.wf ∧ m.fifo.within (4 * b.fc))

/-- `G_RANGE` is in `0..NR-1` (R171). -/
def GainUnit.inv (b : Build) (g : GainUnit) : Prop := g.range.toNat < b.nr

/-- The threshold table has `NB` entries (R44, R226), `WIN` is in `0..NSW` (R34), bits of buckets from
`NB` up are zero (R35) and at most `NB` buckets matched (R32). -/
def DetUnit.inv (b : Build) (d : DetUnit) : Prop :=
  d.thr.length = b.nb ∧ d.win.toNat ≤ b.nsw ∧ d.matchVec.toNat < 2 ^ b.nb ∧ d.matchCnt.toNat ≤ b.nb

/-- The FIFO's cursors (R38, R286 (2)). -/
def RingUnit.fifoInv (b : Build) (r : RingUnit) : Prop :=
  r.count.toNat ≤ b.fc ∧ r.head.toNat < b.fc ∧
    r.tail.toNat = (r.head.toNat + r.count.toNat) % b.fc

/-- The ring's cursors and flags (R38, R286 (1), (2), (6)); a sequence is open only outside continuous
mode and with the gate open (R272, R274). -/
def RingUnit.inv (b : Build) (r : RingUnit) : Prop :=
  r.wpos.toNat < b.e ∧ r.fifoInv b ∧ (r.gatedReading = true → r.mode = .gated) ∧
    (r.recDone = true → r.gatedReading = true) ∧
    (r.isTriggered = true → r.mode ≠ .continuous ∧ r.gatedReading = false)

/-- The invariant of the machine: a legal build, memories, gain, detector and ring as above. -/
def State.Inv (s : State) : Prop :=
  s.build.wf = true ∧ s.mem.inv s.build ∧ s.gain.inv s.build ∧ s.det.inv s.build ∧ s.ring.inv s.build

/-- No element of any memory is half written. -/
def State.Whole (s : State) : Prop :=
  s.mem.raw.whole16 ∧ s.mem.hf.whole16 ∧ s.mem.slot.whole16 ∧ s.mem.fifo.whole32

/-- The `k`-th token of the FIFO, the oldest first (R267). -/
def fifoToken (s : State) (k : Nat) : Option Word :=
  s.mem.fifo.read32 ((s.ring.head.toNat + k) % s.build.fc)

/-- The FIFO's contents, the oldest token first (R267). -/
def fifoTokens (s : State) : List (Option Word) := (List.range s.ring.count.toNat).map (fifoToken s)

/-- The slot tokens `j .. j + n - 1`, in that order. -/
def slotRun (j n : Nat) : List (Option Word) :=
  (List.range n).map (fun d => some (BitVec.ofNat 32 (j + d)))

/-- Everything in the FIFO has been written. -/
def State.FifoWritten (s : State) : Prop := ∀ k, k < s.ring.count.toNat → (fifoToken s k).isSome = true

/-- A token that refers to a slot (R265). -/
def isSlotToken (t : Word) : Prop := 0 ≤ t.toInt

/-- The FIFO's contents while no fault is raised (R265, R286 (3), (4)): every token in use is written
and is `START`, `END` or a completed slot's index; slot indexes rise strictly in push order and none
exceeds `LAST_ENQ`, itself -1 or a completed slot; continuous mode holds no sentinel (R261). -/
def State.Tokens (s : State) : Prop :=
  s.halted = false →
    (-1 ≤ s.ring.lastEnq.toInt ∧ s.ring.lastEnq.toInt < s.ring.fill.toNat) ∧
    (∀ k, k < s.ring.count.toNat → ∃ t, fifoToken s k = some t ∧
      ((t = startToken ∨ t = endToken) ∧ s.ring.mode ≠ .continuous ∨
        isSlotToken t ∧ t.toInt < s.ring.fill.toNat ∧ t.toInt ≤ s.ring.lastEnq.toInt)) ∧
    (∀ j k t u, j < k → k < s.ring.count.toNat → fifoToken s j = some t → fifoToken s k = some u →
      isSlotToken t → isSlotToken u → t.toInt < u.toInt)

/-- A token that refers to slot `j` (R265). -/
def slotToken (j : Nat) : Word := .ofNat 32 j

/-- A sequence as the producer pushes it whole: `START`, its slots, `END` (R265, R286 (5)). -/
def wholeSequence (slots : List Nat) : List Word := startToken :: slots.map slotToken ++ [endToken]

/-- A `START` has been pushed whose `END` has not (R286 (5)): while triggered, in gated mode while the
gate is open. Continuous mode is one sequence without end (R261). -/
def RingUnit.inSequence (r : RingUnit) : Bool :=
  match r.mode with
  | .continuous => true
  | .triggered => r.isTriggered
  | .gated => !r.gatedReading

/-- What has been pushed of the sequence in progress, if there is one (R261, R286 (5)). -/
def RingUnit.unfinished (r : RingUnit) (slots : List Nat) : List Word :=
  if r.inSequence then (if r.mode = .continuous then [] else [startToken]) ++ slots.map slotToken
  else []

/-- `pushed` are the tokens pushed since the last `RING.RESET`, while no fault is raised (R265, R286 (3)
to (5)): whole sequences and then the one in progress, continuous mode slots only; all the slot indexes
of it rise strictly, each of a completed slot and the last being `LAST_ENQ`; and the FIFO holds the most
recent of these tokens. -/
def State.Stream (s : State) (pushed : List Word) : Prop :=
  s.halted = false → ∃ (ended : List (List Nat)) (current : List Nat),
    let slots := ended.flatten ++ current
    pushed = ended.flatMap wholeSequence ++ s.ring.unfinished current ∧
      (s.ring.mode = .continuous → ended = []) ∧ (s.ring.inSequence = false → current = []) ∧
      slots.Pairwise (· < ·) ∧ (∀ j ∈ slots, j < s.ring.fill.toNat) ∧
      s.ring.lastEnq.toInt = (slots.getLast?.map Int.ofNat).getD (-1) ∧
      fifoTokens s <:+ pushed.map some

/-- A ring session has just been started, with these tokens pushed (R266). -/
def State.SessionStart (s : State) (pushed : List Word) : Prop :=
  s.ring.fill = 0 ∧ s.ring.wpos = 0 ∧ s.ring.head = 0 ∧ s.ring.isTriggered = false ∧
    pushed = if s.ring.mode = .gated then [startToken] else []

/-- Of the FIFO's bytes `fifo` differs from those of `s` in the next `n` free elements alone (R268). -/
def State.fifoPushedOnly (s : State) (n : Nat) (fifo : Memory) : Prop :=
  ∀ a, (∀ d, d < n → a / 4 ≠ (s.ring.tail.toNat + d) % s.build.fc) →
    fifo.readByte a = s.mem.fifo.readByte a

/-- `FIFO_TAIL` after `n` pushes (R268). -/
def tailAfter (s : State) (n : Nat) : Word := .ofNat 32 ((s.ring.tail.toNat + n) % s.build.fc)

/-- While a sequence is open, the last completed slot is enqueued, or no slot has completed since the
trigger (R286 (7)). -/
def State.Open (s : State) : Prop :=
  s.halted = false → s.ring.isTriggered = true →
    s.ring.lastEnq.toInt = (s.ring.fill.toNat : Int) - 1 ∨ s.ring.trigIndex.toNat = s.ring.fill.toNat

/-- A batch of gated mode (R263, R267, R281): with the gate open, `START` alone until a trigger and at
most `N` tokens then; with the gate closed at most `N + 2`, and none once the consumer has signalled. In
the other modes there is no batch. -/
def State.Batch (s : State) : Prop :=
  s.ring.mode = .gated →
    if s.ring.gatedReading then
      s.ring.count.toNat ≤ s.build.n + 2 ∧ (s.ring.recDone = true → s.ring.count = 0)
    else s.ring.count.toNat ≤ s.build.n ∧ (s.ring.isTriggered = false → s.ring.count.toNat ≤ 1)

/-- What R281 asks of the host, of the operation that comes next: it signals a closed gate with
`RING.RECDONE` only when it has drained the batch. -/
def State.drainsFirst (s : State) : Prop :=
  ∀ op u, nextWork s = .operation op u → op.instr = .ringRecdone → gateClosed s = true →
    s.ring.count = 0

/-- The `reset` column of R47, in the order of `csrMap`; `CMD`, which reads as 0, holds nothing. -/
def resetColumn (b : Build) : List (Nat × Word) :=
  [(0x000, 0x42470595), (0x004, 0), (0x008, 0), (0x00C, 0), (0x010, 0), (0x020, 0),
   (0x024, 0x20000000), (0x028, .ofNat 32 (2 * b.h)), (0x02C, 0), (0x030, 0), (0x034, 0x7000),
   (0x040, 0), (0x044, 0), (0x048, .ofNat 32 (b.nr - 1)), (0x050, 0), (0x054, 0), (0x058, 0),
   (0x05C, 0), (0x060, 0), (0x064, 0), (0x068, 0), (0x06C, 0), (0x070, 0), (0x074, 0), (0x078, 0),
   (0x07C, 0), (0x080, 0), (0x084, 0), (0x088, 0), (0x08C, 0), (0x090, 0), (0x094, 0), (0x098, 0),
   (0x09C, 0), (0x0A0, 0), (0x0A4, 0xFFFFFFFF), (0x0A8, 0xFFFFFFFF), (0x0B0, 0), (0x0B4, 0),
   (0x0B8, 0), (0x0BC, 0), (0x0C0, .ofNat 32 b.h), (0x0C4, .ofNat 32 b.w), (0x0C8, .ofNat 32 b.nsw),
   (0x0CC, .ofNat 32 (b.w / 2)), (0x0D0, .ofNat 32 b.n), (0x0D4, .ofNat 32 b.e),
   (0x0D8, .ofNat 32 b.fc), (0x0DC, .ofNat 32 b.nr)] ++
  (List.range b.nb).flatMap (fun k =>
    [(0x400 + 16 * k, 0xFFFFFFFF), (0x404 + 16 * k, 0xFFFFFFFF), (0x408 + 16 * k, 0)])

/-- The registers of R47 with their offsets and what a read of each answers, from R23 to R46. -/
def csrMap (s : State) : List (Nat × Word) :=
  [(0x000, 0x42470595), (0x004, 0), (0x008, s.resp),
   (0x00C, .ofNat 32
      (s.acq.hfReady.toNat + s.trigFlag.toNat * 2 ^ 1 + s.det.busy.toNat * 2 ^ 2 +
        s.ring.isTriggered.toNat * 2 ^ 3 + s.ring.gatedReading.toNat * 2 ^ 4 +
        s.ring.recDone.toNat * 2 ^ 5 + s.ring.rdActive.toNat * 2 ^ 6 +
        (s.fault.fifoOvf || s.fault.lifetime).toNat * 2 ^ 7 + s.sticky.ovl.toNat * 2 ^ 8 +
        s.sticky.errCmd.toNat * 2 ^ 9 + s.sticky.errState.toNat * 2 ^ 10 +
        s.sticky.errBus.toNat * 2 ^ 11)),
   (0x010, .ofNat 32 (s.fault.fifoOvf.toNat + s.fault.lifetime.toNat * 2)),
   (0x020, s.acq.gen), (0x024, 0x20000000), (0x028, .ofNat 32 (2 * s.build.h)),
   (0x02C, .ofNat 32 s.acq.proc.code), (0x030, .ofNat 32 s.acq.sclCorr.toNat),
   (0x034, .ofNat 32 s.acq.ovlThr.toNat),
   (0x040, .ofNat 32 (s.gain.dis.toNat * 256 + s.gain.range.toNat)),
   (0x044, .ofNat 32 s.gain.min.toNat), (0x048, .ofNat 32 s.gain.max.toNat),
   (0x050, .ofNat 32 s.det.trigMaxCnt.toNat), (0x054, .ofNat 32 s.det.matchCnt.toNat),
   (0x058, s.det.gen), (0x05C, .ofNat 32 (s.det.acc.toNat * 256 + s.det.win.toNat))] ++
  (List.range 8).map (fun w => (0x060 + 4 * w, .ofNat 32 (s.det.matchVec.toNat / 2 ^ (32 * w)))) ++
  [(0x080, .ofNat 32 s.ring.mode.code), (0x084, .ofNat 32 s.ring.fill.toNat), (0x088, s.ring.wpos),
   (0x08C, .ofNat 32 (s.ring.fill.toNat % s.build.n)), (0x090, s.ring.count),
   (0x094, s.ring.head), (0x098, s.ring.tail), (0x09C, s.ring.trigIndex),
   (0x0A0, s.ring.finalIndex), (0x0A4, s.ring.lastEnq), (0x0A8, s.ring.gnToken),
   (0x0B0, .ofNat 32 s.ring.pretrigSlots.toNat), (0x0B4, .ofNat 32 s.ring.minSlots.toNat),
   (0x0B8, .ofNat 32 s.ring.bufferDelta.toNat), (0x0BC, .ofNat 32 s.ring.maxReadLead.toNat),
   (0x0C0, .ofNat 32 s.build.h), (0x0C4, .ofNat 32 s.build.w), (0x0C8, .ofNat 32 s.build.nsw),
   (0x0CC, .ofNat 32 (s.build.w / 2)), (0x0D0, .ofNat 32 s.build.n), (0x0D4, .ofNat 32 s.build.e),
   (0x0D8, .ofNat 32 s.build.fc), (0x0DC, .ofNat 32 s.build.nr)] ++
  (List.range s.build.nb).flatMap (fun b =>
    [(0x400 + 16 * b, (s.det.thr.getD b Threshold.reset).lo),
     (0x404 + 16 * b, (s.det.thr.getD b Threshold.reset).hi),
     (0x408 + 16 * b, .ofNat 32 (s.det.thr.getD b Threshold.reset).en.toNat)])

/-- The read-write registers of R40 to R45 with their offsets and the width of their fields. -/
def rwFields (b : Build) : List (Nat × Nat) :=
  [(0x030, 16), (0x034, 16), (0x044, 8), (0x048, 8), (0x050, 16), (0x0B0, 16), (0x0B4, 16),
   (0x0B8, 16), (0x0BC, 16)] ++
  (List.range b.nb).flatMap (fun k => [(0x400 + 16 * k, 32), (0x404 + 16 * k, 32), (0x408 + 16 * k, 1)])

/-- A naturally aligned access to one of the `size` elements of `width` bytes (R83). -/
def inRange (width size off : Nat) : Prop := off % width = 0 ∧ off / width < size

/-- A bus read that R326 does not name: an aligned one of a mapped register or a populated element. -/
def goodRead (s : State) (addr : Word) : Prop :=
  match addr.toNat / 2 ^ 28 with
  | 0 => ∃ v, (addr.toNat % 2 ^ 28, v) ∈ csrMap s
  | 1 => inRange 2 (2 * s.build.h) (addr.toNat % 2 ^ 28)
  | 2 => inRange 2 s.build.h (addr.toNat % 2 ^ 28)
  | 3 => inRange 2 (s.build.n * s.build.e) (addr.toNat % 2 ^ 28)
  | 4 => inRange 4 s.build.fc (addr.toNat % 2 ^ 28)
  | _ => False

/-- A bus write that R326 does not name: to `CMD`, `STATUS`, a read-write register or a raw sample. -/
def goodWrite (s : State) (addr : Word) : Prop :=
  match addr.toNat / 2 ^ 28 with
  | 0 => addr = cmdAddr ∨ addr = 0x0000000C ∨ ∃ width, (addr.toNat, width) ∈ rwFields s.build
  | 1 => inRange 2 (2 * s.build.h) (addr.toNat % 2 ^ 28)
  | _ => False

/-- The memories' bytes by bus address (R81, R82): the byte an address names, none where nothing has
written one or where no memory is. -/
def byteAt (m : Memories) (addr : Word) : Option Byte :=
  match spaceOf addr with
  | some .raw => m.raw.readByte (offsetOf addr)
  | some .hf => m.hf.readByte (offsetOf addr)
  | some .slot => m.slot.readByte (offsetOf addr)
  | some .fifo => m.fifo.readByte (offsetOf addr)
  | _ => none

/-- One row of the opcode map of R127: the pattern, the mask, and whether the format is `S`. -/
structure MapRow where
  pattern : Word
  mask    : Word
  selector : Bool
  deriving DecidableEq, Repr

/-- The opcode map of R127, in its order. -/
def opcodeMap : List MapRow :=
  [⟨0x00000000, 0xFFFFFFFF, false⟩, ⟨0x01000000, 0xFFFFFFFF, false⟩, ⟨0x10000000, 0xFFFFFE00, false⟩,
   ⟨0x11000000, 0xFFFE0000, false⟩, ⟨0x12000000, 0xFFFFFFFF, false⟩, ⟨0x13000000, 0xFFFFFFFF, false⟩,
   ⟨0x14000000, 0xFFFFFFFF, false⟩, ⟨0x15000000, 0xFFFFFFFF, false⟩, ⟨0x16000000, 0xFFFFFF00, false⟩,
   ⟨0x17000000, 0xFFFFFF00, false⟩, ⟨0x20000000, 0xFFFFFFFC, true⟩, ⟨0x21000000, 0xFF00000E, false⟩,
   ⟨0x30000000, 0xFFFFFFFF, false⟩, ⟨0x31000000, 0xFFFFFFFF, false⟩, ⟨0x32000000, 0xFFFFFFFF, false⟩,
   ⟨0x40000000, 0xFFFFFFFC, true⟩, ⟨0x41000000, 0xFFFFFFFF, false⟩, ⟨0x42000000, 0xFFFFFFFF, false⟩]

/-- A word selects a row of the map (R127). -/
def MapRow.selects (r : MapRow) (w : Word) : Bool :=
  w &&& r.mask == r.pattern && !(r.selector && w.toNat % 4 == 3)

/-- The operation an instruction term carries to the core: a write to `CMD` is the command operation its
datum encodes, if any (R120). -/
def carried : Instr → Instr
  | .busWr addr data => (BusOp.wr addr data).instr
  | i => i

/-- A command operation, that is not a bus operation (R120). -/
def isCommand : Instr → Bool
  | .busRd _ => false
  | .busWr _ _ => false
  | _ => true

/-- The state after performing operations one after the other: the total order of R95. -/
def runOps : List Instr → State → State
  | [], s => s
  | i :: is, s =>
    match exec i s with
    | .next t => runOps is t
    | .fault _ => s
    | .refused _ => s

/-- A publication is asked for (R191). -/
def isPublication : Instr → Bool
  | .hfReady _ _ _ => true
  | _ => false

/-- How many publications a list of operations asks for (R195). -/
def publications (is : List Instr) : Nat := is.countP (fun i => isPublication (carried i))

/-- The operation starts a ring session (R266). -/
def isRingReset : Instr → Bool
  | .ringReset _ => true
  | _ => false

/-- The operation may write `GAIN_STATE` (R31). -/
def setsGain : Instr → Bool
  | .gainSet _ _ => true
  | .gainSetdb _ _ => true
  | .gainUp => true
  | .gainDown => true
  | _ => false

/-- The operation may write `PROC` (R30). -/
def setsProc : Instr → Bool
  | .procSet _ => true
  | _ => false

/-- The operation is one of the detector's (R325). -/
def isDetector : Instr → Bool
  | .detBegin => true
  | .detWin => true
  | .detCommit => true
  | _ => false

/-- The operation calls `RingAppend` (R191, R196): a publication while `RING` is registered. -/
def appends (i : Instr) (s : State) : Bool :=
  isPublication (carried i) && decide (s.acq.proc = .ring)

/-- A command, also an illegal one: what writes `RESP` (R25). -/
def writesResp : Instr → Bool
  | .busRd _ => false
  | .busWr addr _ => addr == cmdAddr
  | _ => true

/-- A write of an illegal word to `CMD` (R128). -/
def isIllegalWord : Instr → Bool
  | .busWr addr word => addr == cmdAddr && opcodeMap.all (fun r => !r.selects word)
  | _ => false

/-- A write to `STATUS` (R26). -/
def isStatusWrite : Instr → Bool
  | .busWr addr _ => addr == 0x0000000C
  | _ => false

/-- None of the operations is `SYS.RESET`. -/
def noReset (is : List Instr) : Prop := ∀ i ∈ is, carried i ≠ .sysReset

/-- What the host shall keep of the gain limits and the ring configuration (R42, R45). -/
def hostConfigOk (s : State) : Prop :=
  s.gain.min.toNat ≤ s.gain.max.toNat ∧ s.gain.max.toNat ≤ s.build.nr - 1 ∧
    s.ring.bufferDelta.toNat ≤ s.build.n - 1 ∧
    s.ring.maxReadLead.toNat < s.build.n - s.ring.bufferDelta.toNat

/-- `GainHalvingTables` (R181): one step up in range halves the linear gain. -/
def gainHalvingTables (b : Build) : Prop :=
  ∀ r, r + 1 < b.nr → (gainRow b (r + 1)).lin.toNat * 2 = (gainRow b r).lin.toNat

/-- The same machine with another record of what has left it (R58). -/
def State.withOutputs (s : State) (es : List Event) (rs : List BusReply) : State :=
  { s with env := { s.env with trace := es, reads := rs } }

/-- The two states have the same build parameters and the same configuration registers (R40 to R45). -/
def sameConfig (s t : State) : Prop :=
  t.build = s.build ∧ t.acq.sclCorr = s.acq.sclCorr ∧ t.acq.ovlThr = s.acq.ovlThr ∧
    t.gain.min = s.gain.min ∧ t.gain.max = s.gain.max ∧ t.det.trigMaxCnt = s.det.trigMaxCnt ∧
    t.det.thr = s.det.thr ∧ t.ring.pretrigSlots = s.ring.pretrigSlots ∧
    t.ring.minSlots = s.ring.minSlots ∧ t.ring.bufferDelta = s.ring.bufferDelta ∧
    t.ring.maxReadLead = s.ring.maxReadLead

/-- A flag is set only by an operation that may set it. -/
def setOnlyBy (may before after : Bool) : Prop := may = false → after = true → before = true

/-- A flag is cleared only by an operation that may clear it. -/
def clearedOnlyBy (may before after : Bool) : Prop := may = false → before = true → after = true

/-- The table of R22, for an operation `i` that takes `s` to `t` and is no reset: which operations set
and clear each flag. -/
structure FlagsByRule (i : Instr) (s t : State) : Prop where
  hfReady : setOnlyBy (isPublication (carried i)) s.acq.hfReady t.acq.hfReady ∧
    clearedOnlyBy (carried i == .detBegin) s.acq.hfReady t.acq.hfReady
  trigFlag : setOnlyBy (carried i == .detCommit) s.trigFlag t.trigFlag ∧
    clearedOnlyBy (appends i s || isRingReset (carried i)) s.trigFlag t.trigFlag
  detBusy : setOnlyBy (carried i == .detBegin) s.det.busy t.det.busy ∧
    clearedOnlyBy (carried i == .detCommit) s.det.busy t.det.busy
  isTriggered : setOnlyBy (appends i s) s.ring.isTriggered t.ring.isTriggered ∧
    clearedOnlyBy (appends i s || isRingReset (carried i)) s.ring.isTriggered t.ring.isTriggered
  gatedReading : setOnlyBy (appends i s) s.ring.gatedReading t.ring.gatedReading ∧
    clearedOnlyBy (appends i s || isRingReset (carried i)) s.ring.gatedReading t.ring.gatedReading
  recDone : setOnlyBy (carried i == .ringRecdone) s.ring.recDone t.ring.recDone ∧
    clearedOnlyBy (appends i s || isRingReset (carried i)) s.ring.recDone t.ring.recDone
  rdActive : setOnlyBy (carried i == .ringGetnext) s.ring.rdActive t.ring.rdActive ∧
    clearedOnlyBy (carried i == .ringGetnext || isRingReset (carried i)) s.ring.rdActive t.ring.rdActive
  ovl : setOnlyBy (isPublication (carried i)) s.sticky.ovl t.sticky.ovl ∧
    clearedOnlyBy (isStatusWrite i) s.sticky.ovl t.sticky.ovl
  errCmd : setOnlyBy (isIllegalWord i && !s.halted) s.sticky.errCmd t.sticky.errCmd ∧
    clearedOnlyBy (isStatusWrite i) s.sticky.errCmd t.sticky.errCmd
  errState : setOnlyBy (isDetector (carried i) && !s.halted) s.sticky.errState t.sticky.errState ∧
    clearedOnlyBy (isStatusWrite i) s.sticky.errState t.sticky.errState
  errBus : (s.build.wf = true → (∀ a, i = .busRd a → goodRead s a) →
      (∀ a d, i = .busWr a d → goodWrite s a) → t.sticky.errBus = true → s.sticky.errBus = true) ∧
    clearedOnlyBy (isStatusWrite i) s.sticky.errBus t.sticky.errBus
  fifoOvf : (s.build.wf = true → setOnlyBy (appends i s) s.fault.fifoOvf t.fault.fifoOvf) ∧
    clearedOnlyBy false s.fault.fifoOvf t.fault.fifoOvf
  lifetime : setOnlyBy (appends i s) s.fault.lifetime t.fault.lifetime ∧
    clearedOnlyBy false s.fault.lifetime t.fault.lifetime

/-- The "written by" of each register (R25 to R45, R260), for an operation `i` that takes `s` to `t` and
is no reset. -/
structure RegistersByRule (i : Instr) (s t : State) : Prop where
  resp : writesResp i = false → t.resp = s.resp
  gen : isPublication (carried i) = false → t.acq.gen = s.acq.gen
  proc : setsProc (carried i) = false → t.acq.proc = s.acq.proc
  gainState : setsGain (carried i) = false →
    t.gain.range = s.gain.range ∧ t.gain.dis = s.gain.dis
  detGen : carried i ≠ .detBegin → t.det.gen = s.det.gen
  detWin : carried i ≠ .detBegin → carried i ≠ .detWin →
    t.det.win = s.det.win ∧ t.det.acc = s.det.acc
  matchResult : carried i ≠ .detWin →
    t.det.matchVec = s.det.matchVec ∧ t.det.matchCnt = s.det.matchCnt
  mode : isRingReset (carried i) = false → t.ring.mode = s.ring.mode
  producer : appends i s = false → isRingReset (carried i) = false →
    t.ring.fill = s.ring.fill ∧ t.ring.wpos = s.ring.wpos ∧ t.ring.tail = s.ring.tail ∧
      t.ring.trigIndex = s.ring.trigIndex ∧ t.ring.finalIndex = s.ring.finalIndex ∧
      t.ring.lastEnq = s.ring.lastEnq
  consumer : carried i ≠ .ringGetnext → isRingReset (carried i) = false →
    t.ring.head = s.ring.head ∧ t.ring.gnToken = s.ring.gnToken
  count : appends i s = false → carried i ≠ .ringGetnext → isRingReset (carried i) = false →
    t.ring.count = s.ring.count
  config : (∀ off width d, (off, width) ∈ rwFields s.build → i ≠ .busWr (.ofNat 32 off) d) →
    sameConfig s t

/-- Who writes each memory (R91), for an operation `i` that takes `s` to `t` and is no reset. -/
structure MemoriesByRule (i : Instr) (s t : State) : Prop where
  raw : (∀ a d, i = .busWr a d → spaceOf a ≠ some .raw) → t.mem.raw = s.mem.raw
  hf : isPublication (carried i) = false → t.mem.hf = s.mem.hf
  slot : appends i s = false → t.mem.slot = s.mem.slot
  fifo : appends i s = false → isRingReset (carried i) = false → t.mem.fifo = s.mem.fifo

end Sys2Proof.Machine
end

