-- ==== Sys2Proof/Certificates/Slice0/Obligations.lean ====
section
/-!
DEFINITION. The statements about the core that are put to the provers. Each docstring names the rules
of spec/ that the statement formalises. An equation `exec i s = .next t` says at once that the operation
completes, what it writes and, by what `t` takes over from `s`, all that it leaves alone.
-/

open Sys2Proof Sys2Proof.Machine

/- System commands (40_bus_sys.md, 70_reset_and_hazards.md). -/

/-- R152: `NOP` writes `RESP` and nothing else; while halted it is refused like any command. -/
def Obligations.NopWritesOnlyResp : Prop :=
  encode .nop = .wr cmdAddr 0x00000000 ∧ decode (.wr cmdAddr 0x00000000) = .ok .nop ∧
    ∀ s : State, exec .nop s =
      .next { s with resp := if s.halted then 0xFFFFFFFF else 0x00000000 }

/-- R153, R360, R60: after `SYS.RESET`, halted or not, every register reads as the `reset` column of R47
says, `TRIG_FLAG` and the other flags among them; no event is emitted. That a memory whose contents are
unspecified is one in which nothing is written is the model's choice (log 8). -/
def Obligations.SysResetGivesResetColumn : Prop :=
  encode .sysReset = .wr cmdAddr 0x01000000 ∧
    ∀ s : State, s.build.wf = true → ∃ t, exec .sysReset s = .next t ∧
      csrMap t = resetColumn s.build ∧ t.build = s.build ∧ t.env = s.env ∧
      ∀ a, t.mem.raw.readByte a = none ∧ t.mem.hf.readByte a = none ∧
        t.mem.slot.readByte a = none ∧ t.mem.fifo.readByte a = none

/-- R360: the reset input does what `SYS.RESET` does. That the input is a pulse which one step takes is
the model's choice (log 6). -/
def Obligations.ResetPinActsAsSysReset : Prop :=
  ∀ s : State, s.env.offers = [.resetPin] →
    ∃ t, exec .sysReset s = .next t ∧
      step s = .next { t with env := { s.env with resetPin := false } }

/- Gain Controller (41_gain.md). -/

/-- R172: `GAIN.SET` clamps to the limits and then to the table, stores, sends the command twice and
answers the range. -/
def Obligations.GainSetClampsAndSends : Prop :=
  ∀ (s : State) (range : Byte) (dis : Bool),
    let r := min (max s.gain.min.toNat (min range.toNat s.gain.max.toNat)) (s.build.nr - 1)
    let code := (gainRow s.build (if dis then s.build.nr else r)).code
    encode (.gainSet range dis) =
        .wr cmdAddr (.ofNat 32 (0x10000000 + dis.toNat * 2 ^ 8 + range.toNat)) ∧
      (s.halted = false →
        exec (.gainSet range dis) s =
          .next { s with
            gain := { s.gain with range := .ofNat 8 r, dis := dis }
            resp := .ofNat 32 r
            env := { s.env with trace := s.env.trace ++ [.gainCmd code, .gainCmd code] } })

/-- R173: `GAIN.SETDB` chooses within `LO..HI` the range nearest to `db`, the smallest such index. -/
def Obligations.GainSetdbPicksNearest : Prop :=
  ∀ (s : State) (db : Half) (dis : Bool),
    let lo := min s.gain.min.toNat (s.build.nr - 1)
    let hi := min (max s.gain.min.toNat s.gain.max.toNat) (s.build.nr - 1)
    let dist : Nat → Nat := fun q => ((gainRow s.build q).db.toInt - db.toInt).natAbs
    encode (.gainSetdb db dis) =
        .wr cmdAddr (.ofNat 32 (0x11000000 + dis.toNat * 2 ^ 16 + db.toNat)) ∧
      (s.halted = false → ∃ r, lo ≤ r ∧ r ≤ hi ∧
        (∀ q, lo ≤ q → q ≤ hi → dist r ≤ dist q) ∧ (∀ q, lo ≤ q → q < r → dist r < dist q) ∧
        let code := (gainRow s.build (if dis then s.build.nr else r)).code
        exec (.gainSetdb db dis) s =
          .next { s with
            gain := { s.gain with range := .ofNat 8 r, dis := dis }
            resp := .ofNat 32 r
            env := { s.env with trace := s.env.trace ++ [.gainCmd code, .gainCmd code] } })

/-- R174, R175: `GAIN.UP` and `GAIN.DOWN` step within `LO..HI`, answer whether the range changed, and
send the command twice only if it did. -/
def Obligations.GainStepsSaturate : Prop :=
  encode .gainUp = .wr cmdAddr 0x12000000 ∧ encode .gainDown = .wr cmdAddr 0x13000000 ∧
    ∀ s : State, s.halted = false →
      let lo := min s.gain.min.toNat (s.build.nr - 1)
      let hi := min (max s.gain.min.toNat s.gain.max.toNat) (s.build.nr - 1)
      let moved : Byte → State := fun r =>
        let code := (gainRow s.build (if s.gain.dis then s.build.nr else r.toNat)).code
        { s with
          gain := { s.gain with range := r }
          resp := 1
          env := { s.env with trace := s.env.trace ++ [.gainCmd code, .gainCmd code] } }
      exec .gainUp s =
          .next (if s.gain.range.toNat < hi then moved (s.gain.range + 1) else { s with resp := 0 }) ∧
        exec .gainDown s =
          .next (if lo < s.gain.range.toNat then moved (s.gain.range - 1) else { s with resp := 0 })

/-- R176 to R179: the four queries answer a table entry and write nothing but `RESP`. -/
def Obligations.GainQueriesAnswerTables : Prop :=
  (encode .gainGetdb = .wr cmdAddr 0x14000000 ∧ encode .gainGetshift = .wr cmdAddr 0x15000000 ∧
      ∀ r : Byte, encode (.gainForrange r) = .wr cmdAddr (.ofNat 32 (0x16000000 + r.toNat)) ∧
        encode (.gainShiftfor r) = .wr cmdAddr (.ofNat 32 (0x17000000 + r.toNat))) ∧
    ∀ (s : State) (range : Byte), s.halted = false →
      let row := gainRow s.build (if s.gain.dis then s.build.nr else s.gain.range.toNat)
      let asked := gainRow s.build (min range.toNat (s.build.nr - 1))
      exec .gainGetdb s = .next { s with resp := .ofInt 32 row.db.toInt } ∧
        exec .gainGetshift s = .next { s with resp := .ofNat 32 row.shift.toNat } ∧
        exec (.gainForrange range) s = .next { s with resp := asked.lin } ∧
        exec (.gainShiftfor range) s = .next { s with resp := .ofNat 32 asked.shift.toNat }

/-- Property P3 (R181, R236): where one step up in range halves the linear gain, after `GAIN.UP` a
bucket of a quarter of the power is judged as the bucket was before. -/
def Obligations.GainStepKeepsDecision : Prop :=
  ∀ s : State, s.halted = false → s.gain.dis = false → gainHalvingTables s.build →
    s.gain.range.toNat < rangeHi s →
    ∃ t, exec .gainUp s = .next t ∧ t.gain.range = s.gain.range + 1 ∧
      ∀ (p q : BitVec 64) (thr : Threshold), q.toNat = 4 * p.toNat →
        bucketMatch t p thr = bucketMatch s q thr

/- Sample Acquirer (42_acquire.md). -/

/-- R190: `PROC.SET` replaces the registered processor and nothing else; selector 3 is an illegal word
and leaves it. -/
def Obligations.ProcSetReplacesProcessor : Prop :=
  (encode (.procSet .none) = .wr cmdAddr 0x20000000 ∧ encode (.procSet .ring) = .wr cmdAddr 0x20000001 ∧
      encode (.procSet .usb) = .wr cmdAddr 0x20000002) ∧
    ∀ s : State, s.halted = false →
      (∀ sel, exec (.procSet sel) s = .next { s with acq := { s.acq with proc := sel }, resp := 0 }) ∧
        exec (.busWr cmdAddr 0x20000003) s =
          .next { s with sticky := { s.sticky with errCmd := true }, resp := 0xFFFFFFFF }

/-- R191: `HF.READY` scales the named half of `RAW` (an element never written being any 16 bits), narrows,
publishes, reports an overload once, hands the Half-Frame to the registered processor and answers 0;
while halted it is refused. -/
def Obligations.HfReadyPublishes : Prop :=
  ∀ (s : State) (half : BitVec 1) (offset : Half) (shift : BitVec 4),
    encode (.hfReady half offset shift) =
        .wr cmdAddr
          (.ofNat 32 (0x21000000 + offset.toNat * 2 ^ 8 + shift.toNat * 2 ^ 4 + half.toNat)) ∧
      (s.halted = true → exec (.hfReady half offset shift) s = .next { s with resp := 0xFFFFFFFF }) ∧
      (s.halted = false → ∃ (raws : List Half) (hf : Memory) (d : Nat),
        let vs : List Int := raws.map (fun raw =>
          ((raw.toNat : Int) - offset.toNat) * 2 ^ shift.toNat - s.acq.sclCorr.toInt)
        let xs : List Half := vs.map (narrow s.build.narrow)
        let ovl : Bool := decide (∃ v ∈ vs, v > s.acq.ovlThr.toNat ∨ v < -(s.acq.ovlThr.toNat : Int))
        let p : State :=
          { s with
            mem := { s.mem with hf := hf }
            acq := { s.acq with gen := s.acq.gen + 1, hfReady := true }
            sticky := { s.sticky with ovl := s.sticky.ovl || ovl }
            env := { s.env with
              draws := d, trace := s.env.trace ++ (if ovl then [.ovlEvt] else []) } }
        raws.length = s.build.h ∧
          (∀ i v, i < s.build.h → s.mem.raw.read16 (half.toNat * s.build.h + i) = some v →
            raws[i]? = some v) ∧
          ((∀ i, i < s.build.h → (s.mem.raw.read16 (half.toNat * s.build.h + i)).isSome = true) →
            d = s.env.draws) ∧
          (∀ i, i < s.build.h → hf.read16 i = xs[i]?) ∧
          (∀ a, 2 * s.build.h ≤ a → hf.readByte a = s.mem.hf.readByte a) ∧
          exec (.hfReady half offset shift) s =
            .next (match s.acq.proc with
              | .none => { p with resp := 0 }
              | .ring => { ringAppend xs p with resp := 0 }
              | .usb =>
                { p with resp := 0, env := { p.env with trace := p.env.trace ++ [.usbOut xs] } }))

/-- R192: the scaler's formula over the unbounded integers, and the range its value lies in. -/
def Obligations.ScalerIsExact : Prop :=
  ∀ (raw offset : Half) (shift : BitVec 4) (corr : Half),
    scaled raw offset shift corr =
        ((raw.toNat : Int) - (offset.toNat : Int)) * 2 ^ shift.toNat - corr.toInt ∧
      -65535 * 2 ^ 15 - 32767 ≤ scaled raw offset shift corr ∧
      scaled raw offset shift corr ≤ 65535 * 2 ^ 15 + 32768

/-- R194: every `NARROW` leaves an in-range value alone; the default keeps the low 16 bits, the other
instance saturates. -/
def Obligations.NarrowKeepsSamples : Prop :=
  (∀ (k : NarrowKind) (v : Int), -32768 ≤ v → v ≤ 32767 → (narrow k v).toInt = v) ∧
    ∀ v : Int, ((narrow .wrap v).toNat : Int) = v % 2 ^ 16 ∧
      (narrow .saturate v).toInt = max (-32768) (min v 32767)

/-- R135, R191: raw samples loaded with `RAW.LOAD` and published with `HF.READY` to nobody are in `HF`,
each scaled and narrowed. -/
def Obligations.LoadedSamplesArePublished : Prop :=
  ∀ (s : State) (half : BitVec 1) (offset : Half) (shift : BitVec 4) (vs : List Half),
    s.build.wf = true → s.halted = false → s.acq.proc = .none → vs.length = s.build.h →
    let t := runOps
      ((pseudoRawLoad s.build half vs).map BusOp.instr ++ [.hfReady half offset shift]) s
    (∀ i v, vs[i]? = some v → t.mem.hf.read16 i =
        some (narrow s.build.narrow
          (((v.toNat : Int) - offset.toNat) * 2 ^ shift.toNat - s.acq.sclCorr.toInt))) ∧
      t.acq = { s.acq with gen := s.acq.gen + 1, hfReady := true } ∧ t.ring = s.ring ∧
      t.det = s.det ∧ t.env.draws = s.env.draws ∧ t.resp = 0

/- Spectral Trigger Detector (43_trigger.md). -/

/-- R221: `DET.BEGIN`. -/
def Obligations.DetBeginOpensEvaluation : Prop :=
  encode .detBegin = .wr cmdAddr 0x30000000 ∧
    ∀ s : State, s.halted = false → exec .detBegin s = .next (
      if s.det.busy then
        { s with sticky := { s.sticky with errState := true }, resp := 0xFFFFFFFF }
      else if s.acq.hfReady then
        { s with
          acq := { s.acq with hfReady := false }
          det := { s.det with gen := s.acq.gen, busy := true, win := 0, acc := false }
          resp := 1 }
      else { s with resp := 0 })

/-- R222: `DET.WIN` judges one sub-window: every bucket's match bit, the count, the fired result, the
accumulator, the window counter. -/
def Obligations.DetWinJudgesSubWindow : Prop :=
  encode .detWin = .wr cmdAddr 0x31000000 ∧
    ∀ s : State, s.build.wf = true → s.halted = false →
      (s.det.busy = false ∨ s.build.nsw ≤ s.det.win.toNat → exec .detWin s =
        .next { s with sticky := { s.sticky with errState := true }, resp := 0xFFFFFFFF }) ∧
      (s.det.busy = true → s.det.win.toNat < s.build.nsw →
        ∃ (x : List Half) (d m : Nat) (vec : BitVec 256),
          let off := s.det.win.toNat * (s.build.h / s.build.nsw)
          let nb := s.build.w / 2
          let lin : Nat → Nat := fun r => (gainRow s.build r).lin.toNat
          let e := if s.gain.dis then s.build.nr else s.gain.range.toNat
          let hit : Nat → Bool := fun b =>
            let t := s.det.thr.getD b Threshold.reset
            let thr := t.hi.toNat * 2 ^ 32 + t.lo.toNat
            t.en && decide (thr ≠ 2 ^ 64 - 1) &&
              decide ((bucketPower s.build x b).toNat * lin m ^ 2 ≥ thr * lin e ^ 2)
          let cnt := (List.range nb).countP hit
          let f : Bool := decide (0 < cnt) && decide (cnt ≤ s.det.trigMaxCnt.toNat)
          x.length = s.build.w ∧
            (∀ n v, n < s.build.w → s.mem.hf.read16 (off + n) = some v → x[n]? = some v) ∧
            ((∀ n, n < s.build.w → (s.mem.hf.read16 (off + n)).isSome = true) → d = s.env.draws) ∧
            (m < s.build.nr ∧ (∀ q, q < s.build.nr → lin q ≤ lin m) ∧ ∀ q, q < m → lin q < lin m) ∧
            (∀ b, b < 256 → vec.getLsbD b = (decide (b < nb) && hit b)) ∧
            exec .detWin s = .next { s with
              det := { s.det with
                matchVec := vec
                matchCnt := .ofNat 16 cnt
                acc := s.det.acc || f
                win := s.det.win + 1 }
              resp := if f then 1 else 0
              env := { s.env with draws := d } })

/-- R223: `DET.COMMIT`. -/
def Obligations.DetCommitGuardsTheRace : Prop :=
  encode .detCommit = .wr cmdAddr 0x32000000 ∧
    ∀ s : State, s.halted = false → exec .detCommit s = .next (
      if s.det.busy = false then
        { s with sticky := { s.sticky with errState := true }, resp := 0xFFFFFFFF }
      else if s.det.acc = false then { s with det := { s.det with busy := false }, resp := 0 }
      else if s.acq.gen = s.det.gen then
        { s with
          det := { s.det with busy := false }
          trigFlag := true
          resp := 1
          env := { s.env with trace := s.env.trace ++ [.trigEvt] } }
      else { s with det := { s.det with busy := false }, resp := 2 })

/-- R325: in a state that does not permit it a detector command does nothing but report `ERR_STATE`; in
every other case, and with every other operation, `ERR_STATE` is not raised. -/
def Obligations.OnlyDetectorMisuseIsStateError : Prop :=
  ∀ (i : Instr) (s : State), s.halted = false →
    let misused : Bool :=
      (carried i == .detBegin && s.det.busy) ||
        (carried i == .detWin && (!s.det.busy || decide (s.build.nsw ≤ s.det.win.toNat))) ||
        (carried i == .detCommit && !s.det.busy)
    ∃ t, exec i s = .next t ∧
      (misused = true →
        t = { s with sticky := { s.sticky with errState := true }, resp := 0xFFFFFFFF }) ∧
      (misused = false → t.sticky.errState = true → s.sticky.errState = true)

/-- R221 to R225, R227, R228: a whole evaluation, with nothing between its commands and `HF` written, raises the
trigger flag exactly when one of the `NSW` evenly spaced sub-windows fires. -/
def Obligations.EvaluationIsOrOfSubWindows : Prop :=
  ∀ s : State, s.build.wf = true → s.halted = false → s.acq.hfReady = true → s.det.busy = false →
    (∀ i, i < s.build.h → (s.mem.hf.read16 i).isSome = true) →
    let x : Nat → List Half := fun i =>
      (List.range s.build.w).map (fun n => (s.mem.hf.read16 (i * (s.build.h / s.build.nsw) + n)).getD 0)
    let fires : Nat → Bool := fun i =>
      fired s.det.trigMaxCnt ((matchBits s (bucketPower s.build (x i))).count true)
    let any := (List.range s.build.nsw).any fires
    let t := runOps ((pseudoDetEval s.build).map BusOp.instr) s
    t.trigFlag = (s.trigFlag || any) ∧ t.resp = (if any then 1 else 0) ∧
      t.env = { s.env with trace := s.env.trace ++ (if any then [.trigEvt] else []) } ∧
      t.det.busy = false ∧ t.det.acc = any ∧ t.det.win.toNat = s.build.nsw ∧
      t.acq = { s.acq with hfReady := false } ∧ t.mem = s.mem ∧ t.ring = s.ring ∧ t.gain = s.gain ∧
      t.sticky = s.sticky ∧ t.fault = s.fault ∧ sameConfig s t

/-- R195, property P1: over any operations without a reset, the core not halted, `GEN` has advanced by
the number of publications, and so differs after fewer than `2^32` of them. -/
def Obligations.PublicationsAdvanceGen : Prop :=
  ∀ (is : List Instr) (s : State), noReset is → (runOps is s).halted = false →
    (runOps is s).acq.gen = s.acq.gen + BitVec.ofNat 32 (publications is) ∧
      (0 < publications is → publications is < 2 ^ 32 → (runOps is s).acq.gen ≠ s.acq.gen)

/-- R103: between two reads of an equal `GEN`, with fewer than `2^32` publications asked for and no
reset, no publication fell (each one asked for was refused by the halted core) and no byte of the
Half-Frame changed. -/
def Obligations.EqualGenMeansSameHalfFrame : Prop :=
  ∀ (is : List Instr) (s : State), noReset is → publications is < 2 ^ 32 →
    (runOps is s).acq.gen = s.acq.gen →
    (∀ js i ks, is = js ++ i :: ks → isPublication (carried i) = true →
        (runOps js s).halted = true ∧
          exec i (runOps js s) = .next { runOps js s with resp := 0xFFFFFFFF }) ∧
      (runOps is s).mem.hf = s.mem.hf

/-- R377, R223: an evaluation that a publication overtook is never published: its commit answers 2 or 0
and leaves the trigger flag and the trace alone. -/
def Obligations.OvertakenEvaluationIsDiscarded : Prop :=
  ∀ (s t : State) (is : List Instr), s.halted = false → s.det.busy = false → s.acq.hfReady = true →
    exec .detBegin s = .next t → noReset is → (∀ i ∈ is, carried i ≠ .detCommit) →
    0 < publications is → publications is < 2 ^ 32 → (runOps is t).halted = false →
    ∃ v, exec .detCommit (runOps is t) = .next v ∧
      v.resp = (if (runOps is t).det.acc then 2 else 0) ∧ v.trigFlag = (runOps is t).trigFlag ∧
      v.env = (runOps is t).env ∧ v.det.busy = false ∧ v.sticky = (runOps is t).sticky

/-- R232: the reference power of a bucket is the sum of the squares of the two rescaled sums, exactly,
and at most `W^2 * 2^31`: nothing is lost in 64 bits. -/
def Obligations.ReferencePowerIsExact : Prop :=
  ∀ (b : Build) (hann cos sin : List Int) (x : List Half) (k : Nat),
    b.wf = true → b.power = .reference hann cos sin → x.length = b.w →
    let xw : Nat → Int := fun n => (x.getD n 0).toInt * hann.getD n 0 / 2 ^ 15
    let re := (((List.range b.w).map (fun n => xw n * cos.getD (k * n % b.w) 0)).sum) / 2 ^ 15
    let im := (((List.range b.w).map (fun n => xw n * sin.getD (k * n % b.w) 0)).sum) / 2 ^ 15
    ((bucketPower b x k).toNat : Int) = re * re + im * im ∧
      (bucketPower b x k).toNat ≤ b.w ^ 2 * 2 ^ 31 ∧ b.w ^ 2 * 2 ^ 31 ≤ 2 ^ 49

/- Buffer Ring & Sequencer (44_ring.md). -/

/-- R266: `RING.RESET` sets every ring register but the configuration, clears `TRIG_FLAG`, and in gated
mode pushes the batch's `START`. -/
def Obligations.RingResetStartsSession : Prop :=
  (encode (.ringReset .continuous) = .wr cmdAddr 0x40000000 ∧
      encode (.ringReset .triggered) = .wr cmdAddr 0x40000001 ∧
      encode (.ringReset .gated) = .wr cmdAddr 0x40000002) ∧
    ∀ (s : State) (mode : Mode), s.build.wf = true → s.halted = false →
      ∃ fifo : Memory,
        let one : Word := if mode = .gated then 1 else 0
        (mode ≠ .gated → fifo = s.mem.fifo) ∧
          (mode = .gated → fifo.read32 0 = some 0xFFFFFFFF ∧
            ∀ a, 4 ≤ a → fifo.readByte a = s.mem.fifo.readByte a) ∧
          exec (.ringReset mode) s = .next { s with
            mem := { s.mem with fifo := fifo }
            trigFlag := false
            ring :=
              { mode := mode, fill := 0, wpos := 0, head := 0, tail := one, count := one,
                isTriggered := false, trigIndex := 0, finalIndex := 0, lastEnq := 0xFFFFFFFF,
                gatedReading := false, recDone := false, rdActive := false, gnToken := 0xFFFFFFFF,
                pretrigSlots := s.ring.pretrigSlots, minSlots := s.ring.minSlots,
                bufferDelta := s.ring.bufferDelta, maxReadLead := s.ring.maxReadLead }
            resp := 0 }

/-- R281: `RING.RECDONE` records the consumer's signal while the gate is closed and does nothing else. -/
def Obligations.RecdoneSignalsClosedGate : Prop :=
  encode .ringRecdone = .wr cmdAddr 0x42000000 ∧
    ∀ s : State, s.halted = false → exec .ringRecdone s = .next { s with
      ring := { s.ring with
        recDone := s.ring.recDone || (decide (s.ring.mode = .gated) && s.ring.gatedReading) }
      resp := 0 }

/-- R280: `RING.GETNEXT` pops the `START`, stale and future tokens at the head of the FIFO, `n` of them,
and answers by what comes then: nothing, `END`, a deferred token or a yielded one. With the gate open it
answers 0 and does nothing. -/
def Obligations.GetnextDrainsTheFifo : Prop :=
  encode .ringGetnext = .wr cmdAddr 0x41000000 ∧
    ∀ s : State, s.build.wf = true → s.halted = false → s.ring.fifoInv s.build → s.FifoWritten →
      (s.ring.mode = .gated → s.ring.gatedReading = false →
        exec .ringGetnext s = .next { s with resp := 0 }) ∧
      (s.ring.mode ≠ .gated ∨ s.ring.gatedReading = true → ∃ n,
        let fill : Int := s.ring.fill.toNat
        let tok : Nat → Word := fun k => (fifoToken s k).getD 0
        let skipped : Word → Prop := fun t => t = startToken ∨
          (t ≠ endToken ∧ (t.toInt < fill - s.build.n + 1 ∨ fill ≤ t.toInt))
        let active : Bool := s.ring.rdActive && (List.range n).all (fun k => tok k != startToken)
        let after : Nat → Bool → Word → Word → State := fun m act gn r =>
          { s with
            ring := { s.ring with
              head := .ofNat 32 ((s.ring.head.toNat + m) % s.build.fc)
              count := .ofNat 32 (s.ring.count.toNat - m)
              rdActive := act
              gnToken := gn }
            resp := r }
        n ≤ s.ring.count.toNat ∧ (∀ k, k < n → skipped (tok k)) ∧
          (n < s.ring.count.toNat → ¬ skipped (tok n)) ∧
          exec .ringGetnext s = .next (
            if n = s.ring.count.toNat then after n active s.ring.gnToken 0
            else if tok n = endToken then after (n + 1) false s.ring.gnToken 0x40000000
            else if s.ring.mode ≠ .gated ∧ active = false ∧
                fill - (tok n).toInt < s.ring.maxReadLead.toNat then
              after n active s.ring.gnToken 0
            else after (n + 1) true (tok n)
              (.ofNat 32 (2 ^ 31 + ((tok n).toInt % s.build.n).toNat))))

/-- Property P7 (R282, R283, R132): a slot that `RING.GETNEXT` yields is within the retention window and
completed, and is named by its physical index; with the FIFO as R286 says, it is an index of this
session, not negative, also while `FILL < N - 1`. -/
def Obligations.YieldedSlotIsRetained : Prop :=
  ∀ s : State, s.build.wf = true → s.halted = false → ∃ t, exec .ringGetnext s = .next t ∧
    (t.resp.getLsbD 31 = true →
      (s.ring.fill.toNat : Int) - s.build.n < t.ring.gnToken.toInt ∧
        t.ring.gnToken.toInt < s.ring.fill.toNat ∧ t.ring.rdActive = true ∧
        (t.resp.toNat % 2 ^ 16 : Int) = t.ring.gnToken.toInt % s.build.n ∧
        t.resp.getLsbD 30 = false ∧
        (s.ring.fifoInv s.build → s.Tokens →
          0 ≤ t.ring.gnToken.toInt ∧ t.ring.gnToken.toInt ≤ s.ring.lastEnq.toInt)) ∧
    (t.resp.getLsbD 31 = false → t.resp = 0 ∨ t.resp = 0x40000000)

/-- R268, R269: `Push` and `Pop` make the FIFO a queue of at most `FC` tokens; a push on a full FIFO drops
the token and raises `FIFO_OVF`. -/
def Obligations.FifoIsABoundedQueue : Prop :=
  ∀ (s : State) (t : Word), s.build.wf = true → s.ring.fifoInv s.build →
    (s.ring.count.toNat = s.build.fc → push t s = { s with fault := { s.fault with fifoOvf := true } }) ∧
      (s.ring.count.toNat < s.build.fc →
        fifoTokens (push t s) = fifoTokens s ++ [some t] ∧
          ∃ fifo : Memory,
            (∀ a, a / 4 ≠ s.ring.tail.toNat → fifo.readByte a = s.mem.fifo.readByte a) ∧
            push t s = { s with
              mem := { s.mem with fifo := fifo }
              ring := { s.ring with
                tail := .ofNat 32 ((s.ring.tail.toNat + 1) % s.build.fc)
                count := s.ring.count + 1 } }) ∧
      (0 < s.ring.count.toNat →
        fifoTokens s = fifoToken s 0 :: fifoTokens (pop s) ∧
          pop s = { s with
            ring := { s.ring with
              head := .ofNat 32 ((s.ring.head.toNat + 1) % s.build.fc)
              count := s.ring.count - 1 } })

/-- R272, R273: a first trigger pushes `START` (in triggered mode) and the backfilled slots and opens the
sequence, the FIFO's other elements as before; properties P5 (its beginning) and P6: a retrigger extends
the final index and pushes nothing. -/
def Obligations.TriggerBackfillsOrExtends : Prop :=
  ∀ s : State, s.build.wf = true → s.ring.fifoInv s.build →
    let k := s.ring.fill.toNat
    let first : Nat :=
      (max (max 0 ((k : Int) - s.ring.pretrigSlots.toNat))
        (max ((k : Int) - s.build.n + s.ring.bufferDelta.toNat + 1) (s.ring.lastEnq.toInt + 1))).toNat
    let starts : List (Option Word) := if s.ring.mode = .triggered then [some startToken] else []
    let tokens := starts ++ slotRun first (k - first)
    (s.ring.isTriggered = true → onTrigger s = { s with
      ring := { s.ring with
        finalIndex := .ofNat 32 (max s.ring.finalIndex.toNat (k + s.ring.minSlots.toNat))
        trigIndex := .ofNat 32 k } }) ∧
    (s.ring.isTriggered = false → s.ring.count.toNat + tokens.length ≤ s.build.fc →
      fifoTokens (onTrigger s) = fifoTokens s ++ tokens ∧
        ∃ fifo : Memory, s.fifoPushedOnly tokens.length fifo ∧ onTrigger s = { s with
          mem := { s.mem with fifo := fifo }
          ring := { s.ring with
            tail := tailAfter s tokens.length
            count := .ofNat 32 (s.ring.count.toNat + tokens.length)
            isTriggered := true
            trigIndex := .ofNat 32 k
            finalIndex := .ofNat 32 (k + s.ring.minSlots.toNat)
            lastEnq := if first < k then .ofNat 32 (k - 1) else s.ring.lastEnq } })

/-- R273: every slot of a backfill is completed, within the pretrigger duration, not enqueued before, and,
the host keeping R45, at most `N - BUFFER_DELTA - 1` slots behind the write cursor: neither stale nor in
the physical slot being filled. -/
def Obligations.BackfillIsRetained : Prop :=
  ∀ (s : State) (j : Nat), s.build.wf = true → hostConfigOk s →
    backfillFirst s ≤ j → j < s.ring.fill.toNat →
    s.ring.fill.toNat - j ≤ s.ring.pretrigSlots.toNat ∧
      s.ring.fill.toNat - j ≤ s.build.n - s.ring.bufferDelta.toNat - 1 ∧
      s.ring.lastEnq.toInt < j ∧ stale s j = false ∧
      slotOf s.build j ≠ slotOf s.build s.ring.fill.toNat

/-- R274, R277: what completing a slot pushes and which flags it moves, with room for two tokens; at the
last value of the fill counter it raises `LIFETIME` and the counter stays. -/
def Obligations.SlotFullRotates : Prop :=
  ∀ s : State, s.build.wf = true → s.ring.fifoInv s.build →
    let c := s.ring.fill.toNat
    (c = 2 ^ 31 - 1 → (onSlotFull s).fault.lifetime = true ∧
      (onSlotFull s).ring.fill = s.ring.fill ∧ (onSlotFull s).ring.wpos = 0) ∧
    (c < 2 ^ 31 - 1 → s.ring.count.toNat + 2 ≤ s.build.fc →
      let pushed : Bool := decide (s.ring.mode = .continuous) || s.ring.isTriggered
      let complete : Bool := decide (s.ring.mode ≠ .continuous) && s.ring.isTriggered &&
        decide (s.ring.finalIndex.toNat ≤ c)
      let full : Bool := decide (s.ring.mode = .gated) && !s.ring.gatedReading &&
        decide (s.build.n + 1 ≤ s.ring.count.toNat + pushed.toNat)
      let ended := complete || full
      let tokens : List (Option Word) :=
        (if pushed then [some (BitVec.ofNat 32 c)] else []) ++ (if ended then [some endToken] else [])
      fifoTokens (onSlotFull s) = fifoTokens s ++ tokens ∧
        ∃ fifo : Memory, s.fifoPushedOnly tokens.length fifo ∧ onSlotFull s = { s with
          mem := { s.mem with fifo := fifo }
          ring := { s.ring with
            wpos := 0
            fill := .ofNat 31 (c + 1)
            tail := tailAfter s tokens.length
            count := .ofNat 32 (s.ring.count.toNat + tokens.length)
            lastEnq := if pushed then .ofNat 32 c else s.ring.lastEnq
            isTriggered := s.ring.isTriggered && !ended
            gatedReading := s.ring.gatedReading || (decide (s.ring.mode = .gated) && ended) } })

/-- R270, R271, R276: `RingAppend` takes the trigger flag; a closed gate discards the samples unless the
consumer has signalled, which reopens it and drops the flag taken; otherwise the flag triggers outside
continuous mode; then the samples go in one by one until the gate closes. -/
def Obligations.RingAppendTakesFlagAndSamples : Prop :=
  ∀ (s : State) (x : Half) (xs : List Half),
    let closed := decide (s.ring.mode = .gated) && s.ring.gatedReading
    let taken : State := { s with trigFlag := false }
    ringAppend xs s =
        (if closed then
          if s.ring.recDone then
            appendSamples xs (push startToken
              { taken with ring := { s.ring with recDone := false, gatedReading := false } })
          else taken
        else if s.trigFlag = true ∧ s.ring.mode ≠ .continuous then appendSamples xs (onTrigger taken)
        else appendSamples xs taken) ∧
      appendSamples [] s = s ∧
      appendSamples (x :: xs) s =
        (if closed then s
        else
          let stored : State :=
            { s with
              mem := { s.mem with
                slot := s.mem.slot.write16
                  (s.ring.fill.toNat % s.build.n * s.build.e + s.ring.wpos.toNat) x }
              ring := { s.ring with wpos := s.ring.wpos + 1 } }
          appendSamples xs (if stored.ring.wpos.toNat = s.build.e then onSlotFull stored else stored))

/-- R261, R270, R274, R80: in continuous mode, with room in the FIFO, samples go into the ring in order,
the last `N * E` of them stay readable where the unwrapped index says, no other element of `SLOT`
changes, and each slot completed is enqueued once, the FIFO's other elements as before. -/
def Obligations.ContinuousAppendKeepsOrder : Prop :=
  ∀ (s : State) (xs : List Half), s.build.wf = true → s.ring.inv s.build → s.ring.mode = .continuous →
    let q := s.ring.wpos.toNat + xs.length
    let n := q / s.build.e
    let base := s.ring.fill.toNat * s.build.e + s.ring.wpos.toNat
    let place : Nat → Nat := fun j =>
      (base + j) / s.build.e % s.build.n * s.build.e + (base + j) % s.build.e
    s.ring.count.toNat + n ≤ s.build.fc → s.ring.fill.toNat + n < 2 ^ 31 →
    fifoTokens (appendSamples xs s) = fifoTokens s ++ slotRun s.ring.fill.toNat n ∧
      ∃ slot fifo : Memory,
        (∀ j x, xs[j]? = some x → xs.length ≤ j + s.build.n * s.build.e →
          slot.read16 (place j) = some x) ∧
        (∀ a, (∀ j, j < xs.length → a / 2 ≠ place j) → slot.readByte a = s.mem.slot.readByte a) ∧
        s.fifoPushedOnly n fifo ∧
        appendSamples xs s = { s with
          mem := { s.mem with slot := slot, fifo := fifo }
          ring := { s.ring with
            fill := .ofNat 31 (s.ring.fill.toNat + n)
            wpos := .ofNat 32 (q % s.build.e)
            tail := tailAfter s n
            count := .ofNat 32 (s.ring.count.toNat + n)
            lastEnq := if n = 0 then s.ring.lastEnq else .ofNat 32 (s.ring.fill.toNat + n - 1) } }

/-- Property P4 (R287): after `RING.RESET mode=CONTINUOUS` and exactly `N * E` samples, in whatever calls
of `RingAppend`, the FIFO holds `0 .. N-1` and the physical slot index is back at 0. -/
def Obligations.RoundOfTheRing : Prop :=
  ∀ (s r : State) (calls : List (List Half)), s.build.wf = true → s.halted = false →
    exec (.ringReset .continuous) s = .next r → calls.flatten.length = s.build.n * s.build.e →
    let t := calls.foldl (fun u xs => ringAppend xs u) r
    fifoTokens t = slotRun 0 s.build.n ∧ t.ring.fill.toNat = s.build.n ∧ t.ring.wpos = 0 ∧
      csrRead t .wslot = 0 ∧ t.ring.lastEnq.toNat = s.build.n - 1 ∧ t.halted = false

/-- Property P5 (R262, R273, R275): a trigger taken in triggered mode and enough samples after it give
`START`, the backfill, the slots `k .. k + m`, `END`, and nothing more, with room in the FIFO. -/
def Obligations.TriggeredSequenceIsWhole : Prop :=
  ∀ (s : State) (xs : List Half), s.build.wf = true → s.ring.inv s.build → s.ring.mode = .triggered →
    s.ring.isTriggered = false →
    let k := s.ring.fill.toNat
    let m := s.ring.minSlots.toNat
    let first := backfillFirst s
    let n := (s.ring.wpos.toNat + xs.length) / s.build.e
    m + 1 ≤ n → k + n < 2 ^ 31 → s.ring.count.toNat + (k - first) + m + 3 ≤ s.build.fc →
    let t := appendSamples xs (onTrigger s)
    fifoTokens t = fifoTokens s ++ [some startToken] ++ slotRun first (k - first) ++
        slotRun k (m + 1) ++ [some endToken] ∧
      t.ring.isTriggered = false ∧ t.ring.lastEnq.toNat = k + m ∧ t.ring.fill.toNat = k + n ∧
      t.fault = s.fault

/-- R263, R267, R276, R281: a batch of gated mode never overflows the FIFO, the consumer signalling only
when it has drained the batch: `FC >= N + 2` holds the largest batch. `RING.RESET` starts such a batch,
`RingAppend` of any samples keeps it, and so does every step, whatever it performs. -/
def Obligations.GatedBatchFits : Prop :=
  (∀ s t : State, s.build.wf = true → s.halted = false →
      exec (.ringReset .gated) s = .next t → t.ring.mode = .gated ∧ t.Batch) ∧
    (∀ (s : State) (xs : List Half), s.build.wf = true → s.ring.inv s.build → s.ring.mode = .gated →
      s.Batch →
      (ringAppend xs s).fault.fifoOvf = s.fault.fifoOvf ∧ (ringAppend xs s).ring.mode = .gated ∧
        (ringAppend xs s).Batch) ∧
    ∀ s t : State, s.Inv → s.Batch → s.drainsFirst → step s = .next t →
      t.Batch ∧ (s.ring.mode = .gated → t.fault.fifoOvf = true → s.fault.fifoOvf = true)

/- Invariants. -/

/-- R38, R80, R171, R34, R35, R286 (1), (2), (6): every step keeps the registers in their stated ranges
and the memories in canonical form inside their populated ranges. -/
def Obligations.StepKeepsInvariant : Prop :=
  ∀ s t : State, s.Inv → step s = .next t → t.Inv

/-- Every reset state has the invariants, nothing having been pushed. That a memory is empty after reset
is the model's choice (logs 7 and 8). -/
def Obligations.ResetStateHasInvariants : Prop :=
  ∀ (b : Build) (env : Env), b.wf = true →
    (State.resetOf b env).Inv ∧ (State.resetOf b env).Whole ∧ (State.resetOf b env).Tokens ∧
      (State.resetOf b env).Stream [] ∧ (State.resetOf b env).Open ∧ (State.resetOf b env).Batch

/-- R84: no step leaves an element of a memory half written. -/
def Obligations.StepKeepsElementsWhole : Prop :=
  ∀ s t : State, s.Whole → step s = .next t → t.Whole

/-- R265, R286 (3), (4), (5): while no fault is raised, what has been pushed since `RING.RESET` is a
repetition of `START`, slots, `END`, the last one unfinished exactly while its sequence or batch is open
(continuous mode: slots only), and the slot indexes rise strictly up to `LAST_ENQ`; the FIFO holds the
most recent of it. Every step keeps this: it pushes on, or starts a session anew. So every token in
the FIFO is a sentinel or the index of a completed slot, slot indexes rising. -/
def Obligations.StepKeepsTokens : Prop :=
  (∀ (s t : State) (pushed : List Word), s.Inv → s.Stream pushed → step s = .next t →
      ∃ pushed', t.Stream pushed' ∧ (pushed <+: pushed' ∨ t.SessionStart pushed')) ∧
    (∀ (s : State) (pushed : List Word), s.Inv → s.Stream pushed → s.Tokens) ∧
    ∀ s t : State, s.Inv → s.Tokens → step s = .next t → t.Tokens

/-- R286 (7): while a sequence is open the last completed slot is enqueued, or none has completed since
the trigger. -/
def Obligations.StepKeepsOpenSequence : Prop :=
  ∀ s t : State, s.Inv → s.Open → step s = .next t → t.Open

/- Rules over the whole machine. -/

/-- R22, R25, R28 to R39, R91, R170, R220, R260: which operations write what; a reset apart, each flag is
set and cleared, and each register and memory written, by the operations its rule names alone. -/
def Obligations.EachUnitWritesItsOwn : Prop :=
  ∀ (i : Instr) (s : State), carried i ≠ .sysReset → ∃ t, exec i s = .next t ∧
    FlagsByRule i s t ∧ RegistersByRule i s t ∧ MemoriesByRule i s t

/-- R365, R374: no command but `SYS.RESET` writes a configuration register, nor a build parameter. -/
def Obligations.CommandsKeepConfiguration : Prop :=
  ∀ (i : Instr) (s : State), isCommand i = true → i ≠ .sysReset →
    ∃ t, exec i s = .next t ∧ sameConfig s t ∧ t.mem.raw = s.mem.raw

/-- R27, R321: a fault bit, once set, stays until a reset, and only `HF.READY` raises one. -/
def Obligations.FaultsAreStickyUntilReset : Prop :=
  ∀ (i : Instr) (s : State), s.build.wf = true → carried i ≠ .sysReset → ∃ t, exec i s = .next t ∧
    (s.fault.fifoOvf = true → t.fault.fifoOvf = true) ∧
    (s.fault.lifetime = true → t.fault.lifetime = true) ∧
    (t.fault ≠ s.fault → isPublication (carried i) = true ∧ s.halted = false)

/-- R322, R154: while halted every command and every command word but `SYS.RESET`'s is refused, also an
illegal one, and writes to `STATUS` and to read-write registers are ignored. -/
def Obligations.HaltedCoreRefuses : Prop :=
  ∀ s : State, s.halted = true →
    (∀ i, isCommand i = true → i ≠ .sysReset → exec i s = .next { s with resp := 0xFFFFFFFF }) ∧
      (∀ w : Word, w ≠ 0x01000000 → exec (.busWr cmdAddr w) s = .next { s with resp := 0xFFFFFFFF }) ∧
      (∀ w : Word, exec (.busWr 0x0000000C w) s = .next s) ∧
      (∀ (off width : Nat) (w : Word), s.build.wf = true → (off, width) ∈ rwFields s.build →
        exec (.busWr (.ofNat 32 off) w) s = .next s) ∧
      ∃ t, exec .sysReset s = .next t ∧ t.halted = false

/-- R58: no operation reads the event trace: with another record of it, the same operation does the same
and appends the same. The record of the replies to bus reads is the model's own (log 12), and the same
holds of it. -/
def Obligations.OutputsAreNeverRead : Prop :=
  ∀ (i : Instr) (s : State), ∃ (t : State) (es : List Event) (rs : List BusReply),
    exec i s = .next t ∧ t.env.trace = s.env.trace ++ es ∧ t.env.reads = s.env.reads ++ rs ∧
      ∀ (es' : List Event) (rs' : List BusReply),
        exec i (s.withOutputs es' rs') = .next (t.withOutputs (es' ++ es) (rs' ++ rs))

/-- R361: the state after reset is safe to leave running: `HF.READY` publishes and moves nothing else, an
evaluation never fires, and `RING.GETNEXT` answers 0. -/
def Obligations.ResetStateIsSafe : Prop :=
  ∀ (b : Build) (env : Env), b.wf = true →
    let s := State.resetOf b env
    (∀ half offset shift, ∃ t, exec (.hfReady half offset shift) s = .next t ∧ t.acq.gen = 1 ∧
      t.acq.hfReady = true ∧ t.ring = s.ring ∧ t.det = s.det ∧ t.gain = s.gain ∧ t.fault = s.fault ∧
      t.trigFlag = s.trigFlag ∧ t.mem.slot = s.mem.slot ∧ t.mem.fifo = s.mem.fifo ∧
      t.mem.raw = s.mem.raw) ∧
    (∀ is : List Instr, (∀ i ∈ is, isPublication i = true ∨ i = .detBegin ∨ i = .detWin ∨ i = .detCommit) →
      (runOps is s).det.acc = false ∧ (runOps is s).det.matchCnt = 0 ∧ (runOps is s).trigFlag = false) ∧
    exec .ringGetnext s = .next { s with resp := 0 }

/- Encoding and dispatch (30_encoding.md, 40_bus_sys.md). -/

/-- R127: a word decodes exactly when it selects a row of the opcode map. -/
def Obligations.LegalWordsAreTheMapsWords : Prop :=
  ∀ w : Word, (∃ i, decode (.wr cmdAddr w) = .ok i) ↔ ∃ r ∈ opcodeMap, r.selects w = true

/-- R128, R324: a word that matches no row, written to `CMD` of a running core, is not executed: `ERR_CMD`,
`0xFFFF_FFFF`, and nothing else. -/
def Obligations.IllegalWordIsRefused : Prop :=
  ∀ (w : Word) (s : State), (∀ r ∈ opcodeMap, r.selects w = false) → s.halted = false →
    exec (.busWr cmdAddr w) s =
      .next { s with sticky := { s.sticky with errCmd := true }, resp := 0xFFFFFFFF }

/-- R120, R154: writing an operation's command word to `CMD` is performing the operation, halted or
not. -/
def Obligations.CommandWordPerformsOperation : Prop :=
  ∀ (w : Word) (i : Instr) (s : State), decode (.wr cmdAddr w) = .ok i →
    exec (.busWr cmdAddr w) s = exec i s

/-- R120 to R127, R134: decoding what an operation encodes to gives the operation back, with every
operand at every value. -/
def Obligations.DecodeAfterEncode : Prop :=
  ∀ i : Instr, i.wellFormed = true → decode (encode i) = .ok i

/-- R130, R131: one encoding for each operation: what a bus transaction decodes to is well-formed and
encodes to that transaction. -/
def Obligations.EncodeAfterDecode : Prop :=
  ∀ (op : BusOp) (i : Instr), decode op = .ok i → i.wellFormed = true ∧ encode i = op

/-- R134 and the worked examples of R172, R173, R178, R190, R191, R266: command words and what they stand
for; and a word that a reserved bit makes illegal (R128, R131). -/
def Obligations.SampleWordsDecode : Prop :=
  decode (.wr 0x00000004 0x10000101) = .ok (.gainSet 1 true) ∧
    decode (.wr 0x00000004 0x1100FFFD) = .ok (.gainSetdb 0xFFFD false) ∧
    decode (.wr 0x00000004 0x160000C8) = .ok (.gainForrange 200) ∧
    decode (.wr 0x00000004 0x20000001) = .ok (.procSet .ring) ∧
    decode (.wr 0x00000004 0x21800020) = .ok (.hfReady 0 0x8000 2) ∧
    decode (.wr 0x00000004 0x40000002) = .ok (.ringReset .gated) ∧
    decode (.wr 0x00000004 0x01000001) = .error .reservedBit

/-- R95: one step performs the one operation offered, whole, in the state in which its master's queue
has advanced; with nothing offered the core holds. The queues are the model's (logs 3 and 5). -/
def Obligations.StepRunsTheOfferedOperation : Prop :=
  (∀ (s : State) (a : Agent) (op : BusOp) (rest : List BusOp) (i : Instr),
      s.env.offers = [.agent a] → s.env.queue a = op :: rest → decode op = .ok i →
      step s = exec i { s with env := { s.env.setQueue a rest with grant := a } }) ∧
    (∀ s : State, s.env.offers = [] → step s = .next s) ∧
    ∀ (s : State) (w : Nat) (i : Instr), decodeTableWord 32 w = some i →
      step (s.withFetchWord 32 w) = exec i { s with
        env := { s.env with
          dmaQ := [], acqQ := [], mainQ := [], readerQ := [], resetPin := false, grant := .main } }

/-- R95, R327: of several operations offered together one is performed, the first of some master's queue,
or the reset: the one that a free value picks. Nothing constrains the free value, so no priority among
the offers is fixed and either order is allowed. The queues (log 3), the free choice and its counter
(log 4) and the reset pulse (log 6) are the model's. -/
def Obligations.StepPerformsOneOffer : Prop :=
  ∀ s : State, s.env.offers ≠ [] →
    let picked := s.env.offers[Config.arbiter s.env.turns % s.env.offers.length]?
    let turns := s.env.turns + if 1 < s.env.offers.length then 1 else 0
    (picked = some .resetPin ∧ s.env.resetPin = true ∧
        step s = .next (s.pinTaken turns).resetCore) ∨
      ∃ (a : Agent) (op : BusOp) (rest : List BusOp), picked = some (.agent a) ∧
        s.env.queue a = op :: rest ∧ step s = exec op.instr (s.granted a rest turns)

/- Bus operations (40_bus_sys.md, 10_state.md section 3, 20_memory.md). -/

/-- R150: a bus read answers the register's value or the element, zero-extended, an element never
written being any value, to the master that issued it, and does nothing else; a bad one answers 0 and
sets `ERR_BUS`; halted or not. -/
def Obligations.BusReadAnswers : Prop :=
  ∀ s : State, s.build.wf = true →
    let answers : Word → Word → Nat → Prop := fun a v d =>
      exec (.busRd a) s = .next { s with
        env := { s.env with draws := d, reads := s.env.reads ++ [⟨s.env.grant, a, v⟩] } }
    (∀ addr, encode (.busRd addr) = .rd addr) ∧
      (∀ off v, (off, v) ∈ csrMap s → answers (.ofNat 32 off) v s.env.draws) ∧
      (∀ i, i < 2 * s.build.h → ∃ (v : Half) (d : Nat),
        answers (.ofNat 32 (0x10000000 + 2 * i)) (.ofNat 32 v.toNat) d ∧
          ∀ x, s.mem.raw.read16 i = some x → v = x ∧ d = s.env.draws) ∧
      (∀ i, i < s.build.h → ∃ (v : Half) (d : Nat),
        answers (.ofNat 32 (0x20000000 + 2 * i)) (.ofNat 32 v.toNat) d ∧
          ∀ x, s.mem.hf.read16 i = some x → v = x ∧ d = s.env.draws) ∧
      (∀ i, i < s.build.n * s.build.e → ∃ (v : Half) (d : Nat),
        answers (.ofNat 32 (0x30000000 + 2 * i)) (.ofNat 32 v.toNat) d ∧
          ∀ x, s.mem.slot.read16 i = some x → v = x ∧ d = s.env.draws) ∧
      (∀ i, i < s.build.fc → ∃ (v : Word) (d : Nat),
        answers (.ofNat 32 (0x40000000 + 4 * i)) v d ∧
          ∀ x, s.mem.fifo.read32 i = some x → v = x ∧ d = s.env.draws) ∧
      (∀ addr, ¬ goodRead s addr → exec (.busRd addr) s = .next { s with
        sticky := { s.sticky with errBus := true }
        env := { s.env with reads := s.env.reads ++ [⟨s.env.grant, addr, 0⟩] } })

/-- R151, R84, R82: a bus write of a raw sample stores `data[15:0]` in its element, halted or not, and
changes no other byte that the bus can name. -/
def Obligations.RawWriteStoresElement : Prop :=
  ∀ (s : State) (i : Nat) (data : Word), s.build.wf = true → i < 2 * s.build.h →
    ∃ raw : Memory,
      exec (.busWr (.ofNat 32 (0x10000000 + 2 * i)) data) s =
          .next { s with mem := { s.mem with raw := raw } } ∧
        raw.read16 i = some (data.setWidth 16) ∧
        ∀ addr : Word, addr ≠ .ofNat 32 (0x10000000 + 2 * i) →
          addr ≠ .ofNat 32 (0x10000000 + 2 * i + 1) →
          byteAt { s.mem with raw := raw } addr = byteAt s.mem addr

/-- R151, R49, R40 to R45: a bus write to a read-write register of a running core stores its field, the
other bits dropped, and changes no other register, no memory and no output. -/
def Obligations.RegisterWriteStoresField : Prop :=
  ∀ (s : State) (off width : Nat) (data : Word), s.build.wf = true → s.halted = false →
    s.det.thr.length = s.build.w / 2 → (off, width) ∈ rwFields s.build →
    ∃ t, exec (.busWr (.ofNat 32 off) data) s = .next t ∧
      (off, BitVec.ofNat 32 (data.toNat % 2 ^ width)) ∈ csrMap t ∧
      (∀ off' v, off' ≠ off → ((off', v) ∈ csrMap t ↔ (off', v) ∈ csrMap s)) ∧
      t.mem = s.mem ∧ t.env = s.env ∧ t.build = s.build

/-- R26, R151: a write to `STATUS` of a running core clears the sticky bits written with 1 and changes
nothing else. -/
def Obligations.StatusWriteClearsOnes : Prop :=
  ∀ (s : State) (data : Word), s.halted = false →
    exec (.busWr 0x0000000C data) s = .next { s with
      sticky :=
        { ovl := s.sticky.ovl && !data.getLsbD 8, errCmd := s.sticky.errCmd && !data.getLsbD 9,
          errState := s.sticky.errState && !data.getLsbD 10,
          errBus := s.sticky.errBus && !data.getLsbD 11 } }

/-- R326, R48, R83, R89: a bus access that is misaligned, out of range, unmapped, or a write to a
read-only place sets `ERR_BUS` and does nothing else, a read answering 0, halted or not; any other
operation leaves `ERR_BUS` unset. -/
def Obligations.BadAccessSetsErrBus : Prop :=
  ∀ s : State, s.build.wf = true →
    (∀ addr, ¬ goodRead s addr → exec (.busRd addr) s = .next { s with
      sticky := { s.sticky with errBus := true }
      env := { s.env with reads := s.env.reads ++ [⟨s.env.grant, addr, 0⟩] } }) ∧
    (∀ addr data, ¬ goodWrite s addr → exec (.busWr addr data) s = .next { s with
      sticky := { s.sticky with errBus := true } }) ∧
    ∀ i : Instr, (∀ a, i = .busRd a → goodRead s a) → (∀ a d, i = .busWr a d → goodWrite s a) →
      ∃ t, exec i s = .next t ∧ (t.sticky.errBus = true → s.sticky.errBus = true)

/-- R135, R44: `THR.SET` puts the threshold and the enable bit in the table, and changes nothing else. -/
def Obligations.ThrSetWritesEntry : Prop :=
  ∀ (s : State) (b : Nat) (thr : BitVec 64) (en : Bool), s.build.wf = true → s.halted = false →
    s.det.thr.length = s.build.w / 2 → b < s.build.w / 2 →
    ∃ e : Threshold, e.value = thr.toNat ∧ e.en = en ∧
      runOps ((pseudoThrSet b thr en).map BusOp.instr) s =
        { s with det := { s.det with thr := s.det.thr.set b e } }
end

