-- ==== Sys2Proof/Laws/State.lean ====
section
/-!
SUPPORT. What each named update of the state leaves in each field: one lemma per field per update, all
true by rfl and tagged for simp, so that no proof unfolds a record update.
-/

namespace Sys2Proof.Machine

@[simp] theorem State.setResp_build (s : State) (v : Word) : (s.setResp v).build = s.build := rfl
@[simp] theorem State.setResp_resp (s : State) (v : Word) : (s.setResp v).resp = v := rfl
@[simp] theorem State.setResp_fault (s : State) (v : Word) : (s.setResp v).fault = s.fault := rfl
@[simp] theorem State.setResp_sticky (s : State) (v : Word) : (s.setResp v).sticky = s.sticky := rfl
@[simp] theorem State.setResp_trigFlag (s : State) (v : Word) :
    (s.setResp v).trigFlag = s.trigFlag := rfl
@[simp] theorem State.setResp_acq (s : State) (v : Word) : (s.setResp v).acq = s.acq := rfl
@[simp] theorem State.setResp_gain (s : State) (v : Word) : (s.setResp v).gain = s.gain := rfl
@[simp] theorem State.setResp_det (s : State) (v : Word) : (s.setResp v).det = s.det := rfl
@[simp] theorem State.setResp_ring (s : State) (v : Word) : (s.setResp v).ring = s.ring := rfl
@[simp] theorem State.setResp_mem (s : State) (v : Word) : (s.setResp v).mem = s.mem := rfl
@[simp] theorem State.setResp_env (s : State) (v : Word) : (s.setResp v).env = s.env := rfl

@[simp] theorem State.emit_build (s : State) (e : Event) : (s.emit e).build = s.build := rfl
@[simp] theorem State.emit_resp (s : State) (e : Event) : (s.emit e).resp = s.resp := rfl
@[simp] theorem State.emit_fault (s : State) (e : Event) : (s.emit e).fault = s.fault := rfl
@[simp] theorem State.emit_sticky (s : State) (e : Event) : (s.emit e).sticky = s.sticky := rfl
@[simp] theorem State.emit_trigFlag (s : State) (e : Event) :
    (s.emit e).trigFlag = s.trigFlag := rfl
@[simp] theorem State.emit_acq (s : State) (e : Event) : (s.emit e).acq = s.acq := rfl
@[simp] theorem State.emit_gain (s : State) (e : Event) : (s.emit e).gain = s.gain := rfl
@[simp] theorem State.emit_det (s : State) (e : Event) : (s.emit e).det = s.det := rfl
@[simp] theorem State.emit_ring (s : State) (e : Event) : (s.emit e).ring = s.ring := rfl
@[simp] theorem State.emit_mem (s : State) (e : Event) : (s.emit e).mem = s.mem := rfl
@[simp] theorem State.emit_env (s : State) (e : Event) :
    (s.emit e).env = { s.env with trace := s.env.trace ++ [e] } := rfl

@[simp] theorem State.reply_build (s : State) (a d : Word) : (s.reply a d).build = s.build := rfl
@[simp] theorem State.reply_resp (s : State) (a d : Word) : (s.reply a d).resp = s.resp := rfl
@[simp] theorem State.reply_fault (s : State) (a d : Word) : (s.reply a d).fault = s.fault := rfl
@[simp] theorem State.reply_sticky (s : State) (a d : Word) : (s.reply a d).sticky = s.sticky := rfl
@[simp] theorem State.reply_trigFlag (s : State) (a d : Word) :
    (s.reply a d).trigFlag = s.trigFlag := rfl
@[simp] theorem State.reply_acq (s : State) (a d : Word) : (s.reply a d).acq = s.acq := rfl
@[simp] theorem State.reply_gain (s : State) (a d : Word) : (s.reply a d).gain = s.gain := rfl
@[simp] theorem State.reply_det (s : State) (a d : Word) : (s.reply a d).det = s.det := rfl
@[simp] theorem State.reply_ring (s : State) (a d : Word) : (s.reply a d).ring = s.ring := rfl
@[simp] theorem State.reply_mem (s : State) (a d : Word) : (s.reply a d).mem = s.mem := rfl
@[simp] theorem State.reply_env (s : State) (a d : Word) :
    (s.reply a d).env = { s.env with reads := s.env.reads ++ [⟨s.env.grant, a, d⟩] } := rfl

@[simp] theorem State.setDraws_build (s : State) (n : Nat) : (s.setDraws n).build = s.build := rfl
@[simp] theorem State.setDraws_resp (s : State) (n : Nat) : (s.setDraws n).resp = s.resp := rfl
@[simp] theorem State.setDraws_fault (s : State) (n : Nat) : (s.setDraws n).fault = s.fault := rfl
@[simp] theorem State.setDraws_sticky (s : State) (n : Nat) :
    (s.setDraws n).sticky = s.sticky := rfl
@[simp] theorem State.setDraws_trigFlag (s : State) (n : Nat) :
    (s.setDraws n).trigFlag = s.trigFlag := rfl
@[simp] theorem State.setDraws_acq (s : State) (n : Nat) : (s.setDraws n).acq = s.acq := rfl
@[simp] theorem State.setDraws_gain (s : State) (n : Nat) : (s.setDraws n).gain = s.gain := rfl
@[simp] theorem State.setDraws_det (s : State) (n : Nat) : (s.setDraws n).det = s.det := rfl
@[simp] theorem State.setDraws_ring (s : State) (n : Nat) : (s.setDraws n).ring = s.ring := rfl
@[simp] theorem State.setDraws_mem (s : State) (n : Nat) : (s.setDraws n).mem = s.mem := rfl
@[simp] theorem State.setDraws_env (s : State) (n : Nat) :
    (s.setDraws n).env = { s.env with draws := n } := rfl

@[simp] theorem State.errBus_build (s : State) : (s.errBus).build = s.build := rfl
@[simp] theorem State.errBus_resp (s : State) : (s.errBus).resp = s.resp := rfl
@[simp] theorem State.errBus_fault (s : State) : (s.errBus).fault = s.fault := rfl
@[simp] theorem State.errBus_sticky (s : State) :
    (s.errBus).sticky = { s.sticky with errBus := true } := rfl
@[simp] theorem State.errBus_trigFlag (s : State) : (s.errBus).trigFlag = s.trigFlag := rfl
@[simp] theorem State.errBus_acq (s : State) : (s.errBus).acq = s.acq := rfl
@[simp] theorem State.errBus_gain (s : State) : (s.errBus).gain = s.gain := rfl
@[simp] theorem State.errBus_det (s : State) : (s.errBus).det = s.det := rfl
@[simp] theorem State.errBus_ring (s : State) : (s.errBus).ring = s.ring := rfl
@[simp] theorem State.errBus_mem (s : State) : (s.errBus).mem = s.mem := rfl
@[simp] theorem State.errBus_env (s : State) : (s.errBus).env = s.env := rfl

@[simp] theorem State.errCmd_build (s : State) : (s.errCmd).build = s.build := rfl
@[simp] theorem State.errCmd_resp (s : State) : (s.errCmd).resp = refusedResp := rfl
@[simp] theorem State.errCmd_fault (s : State) : (s.errCmd).fault = s.fault := rfl
@[simp] theorem State.errCmd_sticky (s : State) :
    (s.errCmd).sticky = { s.sticky with errCmd := true } := rfl
@[simp] theorem State.errCmd_trigFlag (s : State) : (s.errCmd).trigFlag = s.trigFlag := rfl
@[simp] theorem State.errCmd_acq (s : State) : (s.errCmd).acq = s.acq := rfl
@[simp] theorem State.errCmd_gain (s : State) : (s.errCmd).gain = s.gain := rfl
@[simp] theorem State.errCmd_det (s : State) : (s.errCmd).det = s.det := rfl
@[simp] theorem State.errCmd_ring (s : State) : (s.errCmd).ring = s.ring := rfl
@[simp] theorem State.errCmd_mem (s : State) : (s.errCmd).mem = s.mem := rfl
@[simp] theorem State.errCmd_env (s : State) : (s.errCmd).env = s.env := rfl

@[simp] theorem State.errState_build (s : State) : (s.errState).build = s.build := rfl
@[simp] theorem State.errState_resp (s : State) : (s.errState).resp = refusedResp := rfl
@[simp] theorem State.errState_fault (s : State) : (s.errState).fault = s.fault := rfl
@[simp] theorem State.errState_sticky (s : State) :
    (s.errState).sticky = { s.sticky with errState := true } := rfl
@[simp] theorem State.errState_trigFlag (s : State) : (s.errState).trigFlag = s.trigFlag := rfl
@[simp] theorem State.errState_acq (s : State) : (s.errState).acq = s.acq := rfl
@[simp] theorem State.errState_gain (s : State) : (s.errState).gain = s.gain := rfl
@[simp] theorem State.errState_det (s : State) : (s.errState).det = s.det := rfl
@[simp] theorem State.errState_ring (s : State) : (s.errState).ring = s.ring := rfl
@[simp] theorem State.errState_mem (s : State) : (s.errState).mem = s.mem := rfl
@[simp] theorem State.errState_env (s : State) : (s.errState).env = s.env := rfl

@[simp] theorem State.faultFifoOvf_build (s : State) : (s.faultFifoOvf).build = s.build := rfl
@[simp] theorem State.faultFifoOvf_resp (s : State) : (s.faultFifoOvf).resp = s.resp := rfl
@[simp] theorem State.faultFifoOvf_fault (s : State) :
    (s.faultFifoOvf).fault = { s.fault with fifoOvf := true } := rfl
@[simp] theorem State.faultFifoOvf_sticky (s : State) : (s.faultFifoOvf).sticky = s.sticky := rfl
@[simp] theorem State.faultFifoOvf_trigFlag (s : State) :
    (s.faultFifoOvf).trigFlag = s.trigFlag := rfl
@[simp] theorem State.faultFifoOvf_acq (s : State) : (s.faultFifoOvf).acq = s.acq := rfl
@[simp] theorem State.faultFifoOvf_gain (s : State) : (s.faultFifoOvf).gain = s.gain := rfl
@[simp] theorem State.faultFifoOvf_det (s : State) : (s.faultFifoOvf).det = s.det := rfl
@[simp] theorem State.faultFifoOvf_ring (s : State) : (s.faultFifoOvf).ring = s.ring := rfl
@[simp] theorem State.faultFifoOvf_mem (s : State) : (s.faultFifoOvf).mem = s.mem := rfl
@[simp] theorem State.faultFifoOvf_env (s : State) : (s.faultFifoOvf).env = s.env := rfl

@[simp] theorem State.faultLifetime_build (s : State) : (s.faultLifetime).build = s.build := rfl
@[simp] theorem State.faultLifetime_resp (s : State) : (s.faultLifetime).resp = s.resp := rfl
@[simp] theorem State.faultLifetime_fault (s : State) :
    (s.faultLifetime).fault = { s.fault with lifetime := true } := rfl
@[simp] theorem State.faultLifetime_sticky (s : State) : (s.faultLifetime).sticky = s.sticky := rfl
@[simp] theorem State.faultLifetime_trigFlag (s : State) :
    (s.faultLifetime).trigFlag = s.trigFlag := rfl
@[simp] theorem State.faultLifetime_acq (s : State) : (s.faultLifetime).acq = s.acq := rfl
@[simp] theorem State.faultLifetime_gain (s : State) : (s.faultLifetime).gain = s.gain := rfl
@[simp] theorem State.faultLifetime_det (s : State) : (s.faultLifetime).det = s.det := rfl
@[simp] theorem State.faultLifetime_ring (s : State) : (s.faultLifetime).ring = s.ring := rfl
@[simp] theorem State.faultLifetime_mem (s : State) : (s.faultLifetime).mem = s.mem := rfl
@[simp] theorem State.faultLifetime_env (s : State) : (s.faultLifetime).env = s.env := rfl

@[simp] theorem State.resetCore_build (s : State) : (s.resetCore).build = s.build := rfl
@[simp] theorem State.resetCore_resp (s : State) : (s.resetCore).resp = 0 := rfl
@[simp] theorem State.resetCore_fault (s : State) :
    (s.resetCore).fault = { fifoOvf := false, lifetime := false } := rfl
@[simp] theorem State.resetCore_sticky (s : State) :
    (s.resetCore).sticky = { ovl := false, errCmd := false, errState := false, errBus := false } := rfl
@[simp] theorem State.resetCore_trigFlag (s : State) : (s.resetCore).trigFlag = false := rfl
@[simp] theorem State.resetCore_acq (s : State) : (s.resetCore).acq = AcqUnit.reset := rfl
@[simp] theorem State.resetCore_gain (s : State) :
    (s.resetCore).gain = GainUnit.reset s.build := rfl
@[simp] theorem State.resetCore_det (s : State) : (s.resetCore).det = DetUnit.reset s.build := rfl
@[simp] theorem State.resetCore_ring (s : State) : (s.resetCore).ring = RingUnit.reset := rfl
@[simp] theorem State.resetCore_mem (s : State) : (s.resetCore).mem = Memories.reset := rfl
@[simp] theorem State.resetCore_env (s : State) : (s.resetCore).env = s.env := rfl

@[simp] theorem State.granted_build (s : State) (a : Agent) (q : List BusOp) (n : Nat) :
    (s.granted a q n).build = s.build := rfl
@[simp] theorem State.granted_resp (s : State) (a : Agent) (q : List BusOp) (n : Nat) :
    (s.granted a q n).resp = s.resp := rfl
@[simp] theorem State.granted_fault (s : State) (a : Agent) (q : List BusOp) (n : Nat) :
    (s.granted a q n).fault = s.fault := rfl
@[simp] theorem State.granted_sticky (s : State) (a : Agent) (q : List BusOp) (n : Nat) :
    (s.granted a q n).sticky = s.sticky := rfl
@[simp] theorem State.granted_trigFlag (s : State) (a : Agent) (q : List BusOp) (n : Nat) :
    (s.granted a q n).trigFlag = s.trigFlag := rfl
@[simp] theorem State.granted_acq (s : State) (a : Agent) (q : List BusOp) (n : Nat) :
    (s.granted a q n).acq = s.acq := rfl
@[simp] theorem State.granted_gain (s : State) (a : Agent) (q : List BusOp) (n : Nat) :
    (s.granted a q n).gain = s.gain := rfl
@[simp] theorem State.granted_det (s : State) (a : Agent) (q : List BusOp) (n : Nat) :
    (s.granted a q n).det = s.det := rfl
@[simp] theorem State.granted_ring (s : State) (a : Agent) (q : List BusOp) (n : Nat) :
    (s.granted a q n).ring = s.ring := rfl
@[simp] theorem State.granted_mem (s : State) (a : Agent) (q : List BusOp) (n : Nat) :
    (s.granted a q n).mem = s.mem := rfl
@[simp] theorem State.granted_env (s : State) (a : Agent) (q : List BusOp) (n : Nat) :
    (s.granted a q n).env = { s.env.setQueue a q with grant := a, turns := n } := rfl

@[simp] theorem State.pinTaken_build (s : State) (n : Nat) : (s.pinTaken n).build = s.build := rfl
@[simp] theorem State.pinTaken_resp (s : State) (n : Nat) : (s.pinTaken n).resp = s.resp := rfl
@[simp] theorem State.pinTaken_fault (s : State) (n : Nat) : (s.pinTaken n).fault = s.fault := rfl
@[simp] theorem State.pinTaken_sticky (s : State) (n : Nat) :
    (s.pinTaken n).sticky = s.sticky := rfl
@[simp] theorem State.pinTaken_trigFlag (s : State) (n : Nat) :
    (s.pinTaken n).trigFlag = s.trigFlag := rfl
@[simp] theorem State.pinTaken_acq (s : State) (n : Nat) : (s.pinTaken n).acq = s.acq := rfl
@[simp] theorem State.pinTaken_gain (s : State) (n : Nat) : (s.pinTaken n).gain = s.gain := rfl
@[simp] theorem State.pinTaken_det (s : State) (n : Nat) : (s.pinTaken n).det = s.det := rfl
@[simp] theorem State.pinTaken_ring (s : State) (n : Nat) : (s.pinTaken n).ring = s.ring := rfl
@[simp] theorem State.pinTaken_mem (s : State) (n : Nat) : (s.pinTaken n).mem = s.mem := rfl
@[simp] theorem State.pinTaken_env (s : State) (n : Nat) :
    (s.pinTaken n).env = { s.env with resetPin := false, turns := n } := rfl

@[simp] theorem State.setResp_halted (s : State) (v : Word) : (s.setResp v).halted = s.halted := rfl
@[simp] theorem State.emit_halted (s : State) (e : Event) : (s.emit e).halted = s.halted := rfl
@[simp] theorem State.reply_halted (s : State) (a d : Word) : (s.reply a d).halted = s.halted := rfl
@[simp] theorem State.setDraws_halted (s : State) (n : Nat) : (s.setDraws n).halted = s.halted := rfl
@[simp] theorem State.errBus_halted (s : State) : (s.errBus).halted = s.halted := rfl
@[simp] theorem State.errCmd_halted (s : State) : (s.errCmd).halted = s.halted := rfl
@[simp] theorem State.errState_halted (s : State) : (s.errState).halted = s.halted := rfl
@[simp] theorem State.faultFifoOvf_halted (s : State) : s.faultFifoOvf.halted = true := rfl
@[simp] theorem State.faultLifetime_halted (s : State) : s.faultLifetime.halted = true := by
  simp [State.halted]
@[simp] theorem State.resetCore_halted (s : State) : s.resetCore.halted = false := rfl

end Sys2Proof.Machine
end

