-- ==== Sys2Proof/Laws/Ops.lean ====
section
/-!
SUPPORT. What each shared operation over registers, outputs and gain can do, said once, and that every
operation of the core completes.
-/

namespace Sys2Proof.Machine

/-- A command of a running core is its rule (R154). -/
theorem command_running (rule : State → State) {s : State} (h : s.halted = false) :
    command rule s = rule s := by
  simp [command, h]

/-- A command of a halted core writes `RESP` alone (R322). -/
theorem command_halted (rule : State → State) {s : State} (h : s.halted = true) :
    command rule s = { s with resp := 0xFFFFFFFF } := by
  simp [command, h, State.setResp]

/-- Every operation of the core completes (R320, R330). -/
theorem exec_next (i : Instr) (s : State) : ∃ t, exec i s = .next t := by
  cases i <;> exact ⟨_, rfl⟩

/-- A running command is one whose rule `perform` performs (R154). -/
theorem exec_command (i : Instr) {s : State} (h : s.halted = false)
    (hr : ∀ a, i ≠ .busRd a) (hw : ∀ a d, i ≠ .busWr a d) : exec i s = .next (perform i s) := by
  cases i
  case busRd a => exact absurd rfl (hr a)
  case busWr a d => exact absurd rfl (hw a d)
  case sysReset => rfl
  all_goals exact congrArg Host.Outcome.next (command_running _ h)

/-- `GainEmit` appends the amplifier command twice (R171). -/
theorem gainEmit_eq (s : State) :
    gainEmit s = { s with
      env := { s.env with
        trace := s.env.trace ++
          [.gainCmd (gainRow s.build (erow s)).code, .gainCmd (gainRow s.build (erow s)).code] } } := by
  simp [gainEmit, State.emit]

/-- `ClampRange` never leaves a byte (R171). -/
theorem clampRange_le (s : State) (x : Nat) : clampRange s x ≤ 255 := by
  have h1 := s.gain.min.isLt
  have h2 := s.gain.max.isLt
  simp only [clampRange, clamp]
  omega

/-- `ClampRange` stays in the table (R171). -/
theorem clampRange_lt (s : State) (x : Nat) (h : 1 ≤ s.build.nr) : clampRange s x < s.build.nr := by
  simp only [clampRange, clamp]
  omega

/-- A range that fits in a byte is stored as it is (R31). -/
theorem toNat_ofNat8 {r : Nat} (h : r ≤ 255) : (BitVec.ofNat 8 r).toNat = r := by
  rw [BitVec.toNat_ofNat]
  omega

/-- An in-range value is narrowed to itself (R194). -/
theorem narrow_inRange (k : NarrowKind) {v : Int} (h1 : -32768 ≤ v) (h2 : v ≤ 32767) :
    narrow k v = .ofInt 16 v := by
  simp [narrow, h1, h2]

/-- Bit `i` of packed bits is bit `i` of the list (R12). -/
theorem testBit_packBits (bs : List Bool) (i : Nat) : (packBits bs).testBit i = bs.getD i false := by
  induction bs generalizing i with
  | nil => simp [packBits]
  | cons b bs ih =>
    cases i with
    | zero => cases b <;> simp [packBits, Nat.testBit_zero]
    | succ i =>
      have h : (b.toNat + 2 * packBits bs) / 2 = packBits bs := by cases b <;> (simp; try omega)
      rw [packBits, Nat.testBit_succ, h, ih]
      rfl

/-- Packed bits fit in as many bits as there are. -/
theorem packBits_lt (bs : List Bool) : packBits bs < 2 ^ bs.length := by
  induction bs with
  | nil => simp [packBits]
  | cons b bs ih =>
    have hb := b.toNat_le
    simp only [packBits, List.length_cons, Nat.pow_succ]
    omega

/-- `SENS` is a range, none has a greater linear gain, and each range before it a smaller one (R50). -/
theorem sensAmong_spec (b : Build) (n : Nat) :
    (0 < n → sensAmong b n < n) ∧
      (∀ q, q < n → (gainRow b q).lin.toNat ≤ (gainRow b (sensAmong b n)).lin.toNat) ∧
      ∀ q, q < sensAmong b n → (gainRow b q).lin.toNat < (gainRow b (sensAmong b n)).lin.toNat := by
  induction n with
  | zero => simp [sensAmong]
  | succ n ih =>
    obtain ⟨h1, h2, h3⟩ := ih
    simp only [sensAmong]
    split
    · rename_i h
      refine ⟨fun _ => by omega, fun q hq => ?_, fun q hq => ?_⟩
      · rcases Nat.lt_succ_iff_lt_or_eq.mp hq with h' | rfl
        · exact (h2 q h').trans h.le
        · exact le_rfl
      · exact (h2 q hq).trans_lt h
    · rename_i h
      refine ⟨fun _ => ?_, fun q hq => ?_, h3⟩
      · rcases Nat.eq_zero_or_pos n with rfl | hn
        · simp [sensAmong]
        · exact (h1 hn).trans (Nat.lt_succ_self n)
      · rcases Nat.lt_succ_iff_lt_or_eq.mp hq with h' | rfl
        · exact h2 q h'
        · exact Nat.le_of_not_lt h

end Sys2Proof.Machine
end

