-- ==== Sys2Proof/Laws/Bus.lean ====
section
/-!
SUPPORT. Which target a bus address names (R80, R81), said once per space, and the operations offered to
a step.
-/

namespace Sys2Proof.Machine

/-- An address from a selector and an offset is that selector's and that offset's (R81). -/
theorem space_of_parts {sel off : Nat} (hs : sel < 16) (ho : off < 2 ^ 28) :
    slice (.ofNat 32 (sel * 2 ^ 28 + off)) 31 28 = sel ∧
      slice (.ofNat 32 (sel * 2 ^ 28 + off)) 27 0 = off := by
  have h : sel * 2 ^ 28 + off < 2 ^ 32 := by omega
  simp only [slice, BitVec.toNat_ofNat, Nat.mod_eq_of_lt h]
  omega

/-- The parts of an address in numbers (R81). -/
theorem slice_parts (addr : Word) :
    slice addr 31 28 = addr.toNat / 2 ^ 28 ∧ slice addr 27 0 = addr.toNat % 2 ^ 28 := by
  have h := addr.isLt
  simp only [slice]
  omega

/-- Registers (R81): space 0. -/
theorem targetOf_csr (b : Build) {off : Nat} (h : off < 2 ^ 28) :
    targetOf b (.ofNat 32 off) = (csrAt b off).map .csr := by
  have k := space_of_parts (sel := 0) (by omega) h
  rw [Nat.zero_mul, Nat.zero_add] at k
  simp only [targetOf, spaceOf, offsetOf, k.1, k.2]

/-- An aligned offset inside a space names its element (R83). -/
theorem elementAt_mul {width size i : Nat} (hw : 0 < width) (hi : i < size) :
    elementAt width size (width * i) = some i := by
  simp [elementAt, hw, hi]

/-- Raw samples (R81): space 1. -/
theorem targetOf_raw (b : Build) {i : Nat} (hi : i < 2 * b.h) (h : 4 * b.h ≤ 2 ^ 28) :
    targetOf b (.ofNat 32 (0x10000000 + 2 * i)) = some (.raw i) := by
  have k := space_of_parts (sel := 1) (off := 2 * i) (by omega) (by omega)
  simp only [Nat.one_mul] at k
  simp only [targetOf, spaceOf, offsetOf, show (0x10000000 : Nat) = 2 ^ 28 from rfl, k.1, k.2,
    elementAt_mul (show 0 < 2 by omega) hi, Option.map_some]

/-- The Half-Frame (R81): space 2. -/
theorem targetOf_hf (b : Build) {i : Nat} (hi : i < b.h) (h : 4 * b.h ≤ 2 ^ 28) :
    targetOf b (.ofNat 32 (0x20000000 + 2 * i)) = some (.hf i) := by
  have k := space_of_parts (sel := 2) (off := 2 * i) (by omega) (by omega)
  simp only [targetOf, spaceOf, offsetOf, show (0x20000000 : Nat) = 2 * 2 ^ 28 from rfl, k.1, k.2,
    elementAt_mul (show 0 < 2 by omega) hi, Option.map_some]

/-- The slots (R81): space 3. -/
theorem targetOf_slot (b : Build) {i : Nat} (hi : i < b.n * b.e) (h : 2 * b.n * b.e ≤ 2 ^ 28) :
    targetOf b (.ofNat 32 (0x30000000 + 2 * i)) = some (.slot i) := by
  rw [Nat.mul_assoc] at h
  have k := space_of_parts (sel := 3) (off := 2 * i) (by omega) (by omega)
  simp only [targetOf, spaceOf, offsetOf, show (0x30000000 : Nat) = 3 * 2 ^ 28 from rfl, k.1, k.2,
    elementAt_mul (show 0 < 2 by omega) hi, Option.map_some]

/-- The FIFO's elements (R81): space 4. -/
theorem targetOf_fifo (b : Build) {i : Nat} (hi : i < b.fc) (h : 4 * b.fc ≤ 2 ^ 28) :
    targetOf b (.ofNat 32 (0x40000000 + 4 * i)) = some (.fifo i) := by
  have k := space_of_parts (sel := 4) (off := 4 * i) (by omega) (by omega)
  simp only [targetOf, spaceOf, offsetOf, show (0x40000000 : Nat) = 4 * 2 ^ 28 from rfl, k.1, k.2,
    elementAt_mul (show 0 < 4 by omega) hi, Option.map_some]

/-- A write to `CMD` goes to the dispatch (R151). -/
theorem busWrRule_cmd (w : Word) (s : State) : busWrRule cmdAddr w s = cmdWrite w s := by
  have h : targetOf s.build cmdAddr = some (.csr .cmd) := targetOf_csr s.build (off := 4) (by omega)
  simp only [busWrRule, h, writeCsr, Csr.access]

/-- A write to `STATUS` (R151). -/
theorem busWrRule_status (data : Word) (s : State) :
    busWrRule 0x0000000C data s =
      if s.halted then s else { s with sticky := clearSticky s.sticky data } := by
  have h : targetOf s.build 0x0000000C = some (.csr .status) :=
    targetOf_csr s.build (off := 12) (by omega)
  simp only [busWrRule, h, writeCsr, Csr.access]

/-- A write to an address that names nothing writable sets `ERR_BUS` (R151, R326). -/
theorem busWrRule_bad {addr : Word} (data : Word) {s : State}
    (h : ∀ t, targetOf s.build addr = some t →
      (∃ r, t = .csr r ∧ r.access = .ro) ∨ (∃ i, t = .hf i) ∨ (∃ i, t = .slot i) ∨ ∃ i, t = .fifo i) :
    busWrRule addr data s = s.errBus := by
  unfold busWrRule
  cases ht : targetOf s.build addr with
  | none => rfl
  | some t =>
    rcases h t ht with ⟨r, rfl, hr⟩ | ⟨i, rfl⟩ | ⟨i, rfl⟩ | ⟨i, rfl⟩
    · simp [writeCsr, hr]
    all_goals rfl

end Sys2Proof.Machine
end

