-- ==== Sys2Proof/Laws/Decode.lean ====
section
/-!
SUPPORT. What the bit fields of a command word built by `commandWord` are.
-/

namespace Sys2Proof

/-- A field of a word built from an opcode and an argument, in numbers. -/
theorem slice_commandWord (op arg hi lo : Nat) (hop : op < 2 ^ 8) (harg : arg < 2 ^ 24) :
    slice (commandWord op arg) hi lo = (op * 2 ^ 24 + arg) / 2 ^ lo % 2 ^ (hi + 1 - lo) := by
  have h : op * 2 ^ 24 + arg < 2 ^ 32 := by omega
  unfold slice commandWord
  rw [BitVec.toNat_ofNat, Nat.mod_eq_of_lt h]

/-- The opcode of a built word (R120). -/
theorem slice_commandWord_op (op arg : Nat) (hop : op < 2 ^ 8) (harg : arg < 2 ^ 24) :
    slice (commandWord op arg) 31 24 = op := by
  rw [slice_commandWord op arg 31 24 hop harg]
  omega

/-- A bit field inside the argument of a built word does not see the opcode. -/
theorem slice_commandWord_arg (op arg hi lo : Nat) (hop : op < 2 ^ 8) (harg : arg < 2 ^ 24)
    (h : lo ≤ hi) (hhi : hi < 24) :
    slice (commandWord op arg) hi lo = arg / 2 ^ lo % 2 ^ (hi + 1 - lo) := by
  rw [slice_commandWord op arg hi lo hop harg]
  obtain ⟨k, rfl⟩ : ∃ k, hi = lo + k := ⟨hi - lo, by omega⟩
  have e : op * 2 ^ 24 = op * 2 ^ (24 - (lo + k + 1)) * 2 ^ (k + 1) * 2 ^ lo := by
    rw [Nat.mul_assoc, Nat.mul_assoc, ← Nat.pow_add, ← Nat.pow_add]
    congr 2
    omega
  rw [e, Nat.add_comm, Nat.add_mul_div_right _ _ (Nat.two_pow_pos lo),
    show lo + k + 1 - lo = k + 1 by omega, Nat.add_mul_mod_self_right]

/-- The codes of the processors and of the modes are read back (R190, R266). -/
@[simp] theorem procOfSel_code (p : Proc) : procOfSel p.code = some p := by cases p <;> rfl

@[simp] theorem modeOfSel_code (m : Mode) : modeOfSel m.code = some m := by cases m <;> rfl

theorem Proc.code_lt (p : Proc) : p.code < 3 := by cases p <;> decide

theorem Mode.code_lt (m : Mode) : m.code < 3 := by cases m <;> decide

end Sys2Proof
end

