-- ==== Sys2Proof/Laws/Memory.lean ====
section
/-!
SUPPORT. The laws of the memories: a read after a write, what a write leaves alone, the canonical form
and the populated range kept by every operation, and the same for elements and runs of elements.
-/

namespace Sys2Proof.Machine

@[simp] theorem Memory.readByte_nil (off : Nat) : Memory.readByte [] off = none := rfl

/-- A byte just written reads back. -/
@[simp] theorem Memory.readByte_writeByte_same (m : Memory) (off : Nat) (v : Byte) :
    (m.writeByte off v).readByte off = some v := by
  induction m with
  | nil => simp [writeByte, readByte]
  | cons c rest ih =>
    obtain ⟨a, x⟩ := c
    simp only [writeByte]
    split
    · simp [readByte]
    · split
      · simp [readByte]
      · simp [readByte, *]

/-- A write leaves every other byte alone. -/
theorem Memory.readByte_writeByte_other (m : Memory) {off k : Nat} (v : Byte) (h : k ≠ off) :
    (m.writeByte off v).readByte k = m.readByte k := by
  induction m with
  | nil => simp [writeByte, readByte, h]
  | cons c rest ih =>
    obtain ⟨a, x⟩ := c
    simp only [writeByte]
    split
    · simp [readByte, h]
    · split
      · subst_vars; simp [readByte, h]
      · simp only [readByte, ih]

/-- The offsets of a memory after a write: those before it, and the one written. -/
theorem Memory.mem_writeByte {m : Memory} {off : Nat} {v : Byte} {c : Host.Cell}
    (h : c ∈ m.writeByte off v) : c = (off, v) ∨ c ∈ m := by
  induction m with
  | nil => simpa [writeByte] using h
  | cons d rest ih =>
    obtain ⟨a, x⟩ := d
    simp only [writeByte] at h
    split at h
    · simpa using h
    · split at h
      · rcases List.mem_cons.1 h with h | h
        · exact .inl h
        · exact .inr (List.mem_cons_of_mem _ h)
      · rcases List.mem_cons.1 h with h | h
        · exact .inr (h ▸ List.mem_cons_self)
        · exact (ih h).imp id (List.mem_cons_of_mem _)

/-- A write keeps the canonical form. -/
theorem Memory.wf_writeByte {m : Memory} (h : m.wf) (off : Nat) (v : Byte) :
    (m.writeByte off v).wf := by
  induction m with
  | nil => simp [writeByte, wf]
  | cons d rest ih =>
    obtain ⟨a, x⟩ := d
    simp only [wf, List.map_cons, List.pairwise_cons] at h
    simp only [writeByte]
    split
    · next hlt =>
      simp only [wf, List.map_cons, List.pairwise_cons, List.mem_cons]
      refine ⟨?_, h⟩
      rintro k (rfl | hk)
      · exact hlt
      · exact Nat.lt_trans hlt (h.1 k hk)
    · split
      · next heq => subst heq; simpa only [wf, List.map_cons, List.pairwise_cons] using h
      · next hge hne =>
        simp only [wf, List.map_cons, List.pairwise_cons]
        refine ⟨fun k hk => ?_, ih h.2⟩
        obtain ⟨c, hc, rfl⟩ := List.mem_map.1 hk
        rcases mem_writeByte hc with rfl | hc
        · simp only; omega
        · exact h.1 _ (List.mem_map_of_mem hc)

/-- A write inside the populated range stays inside it. -/
theorem Memory.within_writeByte {m : Memory} {size off : Nat} (h : m.within size) (hoff : off < size)
    (v : Byte) : (m.writeByte off v).within size := by
  intro c hc
  rcases mem_writeByte hc with rfl | hc
  · exact hoff
  · exact h c hc

/-- The two bytes of a 16-bit value, put together again. -/
theorem half_join (v : Half) : (v.extractLsb' 8 8 ++ v.extractLsb' 0 8 : BitVec 16) = v := by
  apply BitVec.eq_of_toNat_eq
  simp only [BitVec.toNat_append, BitVec.extractLsb'_toNat]
  rw [Nat.shiftLeft_eq, ← Nat.shiftLeft_eq, ← Nat.shiftLeft_add_eq_or_of_lt (by omega)]
  simp only [Nat.shiftLeft_eq, Nat.shiftRight_eq_div_pow]
  have := v.isLt
  omega

/-- The four bytes of a 32-bit value, put together again. -/
theorem word_join (v : Word) :
    (v.extractLsb' 24 8 ++ v.extractLsb' 16 8 ++ v.extractLsb' 8 8 ++ v.extractLsb' 0 8 : BitVec 32) =
      v := by
  apply BitVec.eq_of_toNat_eq
  simp only [BitVec.toNat_append, BitVec.extractLsb'_toNat]
  have := v.isLt
  rw [← Nat.shiftLeft_add_eq_or_of_lt (by omega), ← Nat.shiftLeft_add_eq_or_of_lt (by omega),
    ← Nat.shiftLeft_add_eq_or_of_lt (by omega)]
  simp only [Nat.shiftLeft_eq, Nat.shiftRight_eq_div_pow]
  omega

/-- A 16-bit element just written reads back. -/
@[simp] theorem Memory.read16_write16_same (m : Memory) (i : Nat) (v : Half) :
    (m.write16 i v).read16 i = some v := by
  have h : 2 * i ≠ 2 * i + 1 := by omega
  simp [read16, write16, readByte_writeByte_other _ _ h, half_join]

/-- Writing a 16-bit element leaves every byte outside it alone. -/
theorem Memory.readByte_write16_other (m : Memory) {i k : Nat} (v : Half) (h : k / 2 ≠ i) :
    (m.write16 i v).readByte k = m.readByte k := by
  unfold write16
  rw [readByte_writeByte_other _ _ (by omega), readByte_writeByte_other _ _ (by omega)]

/-- Writing a 16-bit element leaves every other one alone. -/
theorem Memory.read16_write16_other (m : Memory) {i j : Nat} (v : Half) (h : j ≠ i) :
    (m.write16 i v).read16 j = m.read16 j := by
  unfold read16
  rw [readByte_write16_other _ _ (by omega), readByte_write16_other _ _ (by omega)]

theorem Memory.wf_write16 {m : Memory} (h : m.wf) (i : Nat) (v : Half) : (m.write16 i v).wf :=
  wf_writeByte (wf_writeByte h _ _) _ _

theorem Memory.within_write16 {m : Memory} {size i : Nat} (h : m.within (2 * size)) (hi : i < size)
    (v : Half) : (m.write16 i v).within (2 * size) :=
  within_writeByte (within_writeByte h (by omega) _) (by omega) _

/-- A 32-bit element just written reads back. -/
@[simp] theorem Memory.read32_write32_same (m : Memory) (i : Nat) (v : Word) :
    (m.write32 i v).read32 i = some v := by
  unfold read32 write32
  simp only [readByte_writeByte_same]
  rw [readByte_writeByte_other _ _ (show 4 * i ≠ 4 * i + 3 by omega),
    readByte_writeByte_other _ _ (show 4 * i ≠ 4 * i + 2 by omega),
    readByte_writeByte_other _ _ (show 4 * i ≠ 4 * i + 1 by omega),
    readByte_writeByte_other _ _ (show 4 * i + 1 ≠ 4 * i + 3 by omega),
    readByte_writeByte_other _ _ (show 4 * i + 1 ≠ 4 * i + 2 by omega),
    readByte_writeByte_other _ _ (show 4 * i + 2 ≠ 4 * i + 3 by omega)]
  simp only [readByte_writeByte_same, word_join]

/-- Writing a 32-bit element leaves every byte outside it alone. -/
theorem Memory.readByte_write32_other (m : Memory) {i k : Nat} (v : Word) (h : k / 4 ≠ i) :
    (m.write32 i v).readByte k = m.readByte k := by
  unfold write32
  rw [readByte_writeByte_other _ _ (by omega), readByte_writeByte_other _ _ (by omega),
    readByte_writeByte_other _ _ (by omega), readByte_writeByte_other _ _ (by omega)]

/-- Writing a 32-bit element leaves every other one alone. -/
theorem Memory.read32_write32_other (m : Memory) {i j : Nat} (v : Word) (h : j ≠ i) :
    (m.write32 i v).read32 j = m.read32 j := by
  unfold read32
  rw [readByte_write32_other _ _ (by omega), readByte_write32_other _ _ (by omega),
    readByte_write32_other _ _ (by omega), readByte_write32_other _ _ (by omega)]

theorem Memory.wf_write32 {m : Memory} (h : m.wf) (i : Nat) (v : Word) : (m.write32 i v).wf :=
  wf_writeByte (wf_writeByte (wf_writeByte (wf_writeByte h _ _) _ _) _ _) _ _

theorem Memory.within_write32 {m : Memory} {size i : Nat} (h : m.within (4 * size)) (hi : i < size)
    (v : Word) : (m.write32 i v).within (4 * size) :=
  within_writeByte (within_writeByte (within_writeByte (within_writeByte h (by omega) _) (by omega) _)
    (by omega) _) (by omega) _

/-- A read of a written element answers it and draws nothing. -/
theorem Memory.fetch16_written {m : Memory} {i : Nat} {v : Half} (h : m.read16 i = some v) (d : Nat) :
    m.fetch16 i d = (v, d) := by
  simp [fetch16, h]

/-- A read of an element never written draws. -/
theorem Memory.fetch16_unwritten {m : Memory} {i : Nat} (h : m.read16 i = none) (d : Nat) :
    m.fetch16 i d = ((Config.draw d).setWidth 16, d + 1) := by
  simp [fetch16, h]

theorem Memory.fetch32_written {m : Memory} {i : Nat} {v : Word} (h : m.read32 i = some v) (d : Nat) :
    m.fetch32 i d = (v, d) := by
  simp [fetch32, h]

theorem Memory.fetch32_unwritten {m : Memory} {i : Nat} (h : m.read32 i = none) (d : Nat) :
    m.fetch32 i d = (Config.draw d, d + 1) := by
  simp [fetch32, h]

@[simp] theorem Memory.fetchRun_length (m : Memory) (i n d : Nat) :
    (m.fetchRun i n d).1.length = n := by
  induction n generalizing i d with
  | zero => rfl
  | succ n ih => simp [fetchRun, ih]

/-- Every element of a run that was written is in the run as written; the others are draws. -/
theorem Memory.fetchRun_written (m : Memory) (i n d k : Nat) (hk : k < n) {v : Half}
    (h : m.read16 (i + k) = some v) : (m.fetchRun i n d).1[k]? = some v := by
  induction n generalizing i d k with
  | zero => omega
  | succ n ih =>
    cases k with
    | zero => simp [fetchRun, fetch16_written (by simpa using h)]
    | succ k =>
      simpa [fetchRun] using ih (i + 1) (m.fetch16 i d).2 k (by omega) (by rw [← h]; congr 1; omega)

/-- A run whose elements were all written draws nothing. -/
theorem Memory.fetchRun_draws (m : Memory) (i n d : Nat)
    (h : ∀ k, k < n → (m.read16 (i + k)).isSome = true) : (m.fetchRun i n d).2 = d := by
  induction n generalizing i d with
  | zero => rfl
  | succ n ih =>
    obtain ⟨v, hv⟩ := Option.isSome_iff_exists.1 (h 0 (by omega))
    simp only [Nat.add_zero] at hv
    simp only [fetchRun, fetch16_written hv]
    exact ih (i + 1) d (fun k hk => by simpa [Nat.add_assoc, Nat.add_comm 1 k] using h (k + 1) (by omega))

/-- Writing a run leaves every byte outside it alone. -/
theorem Memory.readByte_writeRun_other (m : Memory) (i k : Nat) (vs : List Half)
    (h : k / 2 < i ∨ i + vs.length ≤ k / 2) : (m.writeRun i vs).readByte k = m.readByte k := by
  induction vs generalizing m i with
  | nil => rfl
  | cons v vs ih =>
    simp only [List.length_cons] at h
    rw [writeRun, ih _ _ (by omega), readByte_write16_other _ _ (by omega)]

/-- Every element of a run just written reads back. -/
theorem Memory.read16_writeRun (m : Memory) (i k : Nat) (vs : List Half) (hk : k < vs.length) :
    (m.writeRun i vs).read16 (i + k) = vs[k]? := by
  induction vs generalizing m i k with
  | nil => simp at hk
  | cons v vs ih =>
    cases k with
    | zero =>
      have h : ∀ j, j / 2 = i → ((m.write16 i v).writeRun (i + 1) vs).readByte j =
          (m.write16 i v).readByte j := fun j hj => readByte_writeRun_other _ _ _ _ (by omega)
      have := read16_write16_same m i v
      simp only [read16] at this ⊢
      simp only [writeRun, Nat.add_zero, h _ (show (2 * i) / 2 = i by omega),
        h _ (show (2 * i + 1) / 2 = i by omega), this, List.getElem?_cons_zero]
    | succ k =>
      have := ih (m.write16 i v) (i + 1) k (by simpa using hk)
      simpa [writeRun, Nat.add_assoc, Nat.add_comm 1 k] using this

theorem Memory.wf_writeRun {m : Memory} (h : m.wf) (i : Nat) (vs : List Half) :
    (m.writeRun i vs).wf := by
  induction vs generalizing m i with
  | nil => exact h
  | cons v vs ih => exact ih (wf_write16 h i v) (i + 1)

theorem Memory.within_writeRun {m : Memory} {size : Nat} (h : m.within (2 * size)) (i : Nat)
    (vs : List Half) (hi : i + vs.length ≤ size) : (m.writeRun i vs).within (2 * size) := by
  induction vs generalizing m i with
  | nil => exact h
  | cons v vs ih =>
    simp only [List.length_cons] at hi
    exact ih (within_write16 h (by omega) v) (i + 1) (by omega)

/-- A whole 16-bit element written leaves no element half written. -/
theorem Memory.whole16_write16 {m : Memory} (h : m.whole16) (i : Nat) (v : Half) :
    (m.write16 i v).whole16 := by
  intro j
  by_cases hj : j = i
  · subst hj
    have h' : 2 * j ≠ 2 * j + 1 := by omega
    simp [write16, readByte_writeByte_other _ _ h']
  · rw [readByte_write16_other _ _ (by omega), readByte_write16_other _ _ (by omega)]
    exact h j

theorem Memory.whole16_writeRun {m : Memory} (h : m.whole16) (i : Nat) (vs : List Half) :
    (m.writeRun i vs).whole16 := by
  induction vs generalizing m i with
  | nil => exact h
  | cons v vs ih => exact ih (whole16_write16 h i v) (i + 1)

/-- Every byte of a 32-bit element just written is written. -/
theorem Memory.isSome_write32 (m : Memory) (i k : Nat) (v : Word) (hk : k < 4) :
    ((m.write32 i v).readByte (4 * i + k)).isSome = true := by
  have h := read32_write32_same m i v
  unfold read32 at h
  rcases h0 : (m.write32 i v).readByte (4 * i) with _ | b0 <;> simp only [h0, reduceCtorEq] at h
  rcases h1 : (m.write32 i v).readByte (4 * i + 1) with _ | b1 <;> simp only [h1, reduceCtorEq] at h
  rcases h2 : (m.write32 i v).readByte (4 * i + 2) with _ | b2 <;> simp only [h2, reduceCtorEq] at h
  rcases h3 : (m.write32 i v).readByte (4 * i + 3) with _ | b3 <;> simp only [h3, reduceCtorEq] at h
  interval_cases k <;> simp [h0, h1, h2, h3]

/-- A whole 32-bit element written leaves no element half written. -/
theorem Memory.whole32_write32 {m : Memory} (h : m.whole32) (i : Nat) (v : Word) :
    (m.write32 i v).whole32 := by
  intro j k hk
  by_cases hj : j = i
  · subst hj
    rw [isSome_write32 m j k v hk, ← Nat.add_zero (4 * j), isSome_write32 m j 0 v (by omega)]
  · rw [readByte_write32_other _ _ (by omega), readByte_write32_other _ _ (by omega)]
    exact h j k hk

/-- The reset memories have the canonical form. -/
theorem Memories.reset_inv (b : Build) : Memories.reset.inv b := by
  simp [Memories.inv, Memories.reset, Memory.within, Memory.wf]

end Sys2Proof.Machine
end

