-- ==== Sys2Proof/Laws/PerInstr.lean ====
section
/-!
SUPPORT. The families of facts about every instruction as syntax, one lemma per constructor.
-/

namespace Sys2Proof.Laws

/-- The opcode of each command row of R127; a bus operation has none. -/
def rowOpcode : Instr → Option Nat
  | .nop => some 0x00
  | .sysReset => some 0x01
  | .gainSet _ _ => some 0x10
  | .gainSetdb _ _ => some 0x11
  | .gainUp => some 0x12
  | .gainDown => some 0x13
  | .gainGetdb => some 0x14
  | .gainGetshift => some 0x15
  | .gainForrange _ => some 0x16
  | .gainShiftfor _ => some 0x17
  | .procSet _ => some 0x20
  | .hfReady _ _ _ => some 0x21
  | .detBegin => some 0x30
  | .detWin => some 0x31
  | .detCommit => some 0x32
  | .ringReset _ => some 0x40
  | .ringGetnext => some 0x41
  | .ringRecdone => some 0x42
  | .busRd _ => none
  | .busWr _ _ => none

/-- The operand fields of an instruction never reach into the opcode of its command word. -/
def Opcode.Statement (i : Instr) : Prop :=
  (encodeCommand i).map (fun w => slice w 31 24) = rowOpcode i

theorem Opcode.nop : Opcode.Statement .nop := by unfold Opcode.Statement; decide

theorem Opcode.sysReset : Opcode.Statement .sysReset := by unfold Opcode.Statement; decide

theorem Opcode.gainSet (range : Byte) (dis : Bool) : Opcode.Statement (.gainSet range dis) := by
  have := range.isLt
  have := dis.toNat_le
  simp only [Opcode.Statement, encodeCommand, rowOpcode, Option.map_some, Option.some.injEq]
  exact slice_commandWord_op _ _ (by omega) (by omega)

theorem Opcode.gainSetdb (db : Half) (dis : Bool) : Opcode.Statement (.gainSetdb db dis) := by
  have := db.isLt
  have := dis.toNat_le
  simp only [Opcode.Statement, encodeCommand, rowOpcode, Option.map_some, Option.some.injEq]
  exact slice_commandWord_op _ _ (by omega) (by omega)

theorem Opcode.gainUp : Opcode.Statement .gainUp := by unfold Opcode.Statement; decide

theorem Opcode.gainDown : Opcode.Statement .gainDown := by unfold Opcode.Statement; decide

theorem Opcode.gainGetdb : Opcode.Statement .gainGetdb := by unfold Opcode.Statement; decide

theorem Opcode.gainGetshift : Opcode.Statement .gainGetshift := by unfold Opcode.Statement; decide

theorem Opcode.gainForrange (range : Byte) : Opcode.Statement (.gainForrange range) := by
  have := range.isLt
  simp only [Opcode.Statement, encodeCommand, rowOpcode, Option.map_some, Option.some.injEq]
  exact slice_commandWord_op _ _ (by omega) (by omega)

theorem Opcode.gainShiftfor (range : Byte) : Opcode.Statement (.gainShiftfor range) := by
  have := range.isLt
  simp only [Opcode.Statement, encodeCommand, rowOpcode, Option.map_some, Option.some.injEq]
  exact slice_commandWord_op _ _ (by omega) (by omega)

theorem Opcode.procSet (sel : Proc) : Opcode.Statement (.procSet sel) := by cases sel <;> unfold Opcode.Statement <;> decide

theorem Opcode.hfReady (half : BitVec 1) (offset : Half) (shift : BitVec 4) :
    Opcode.Statement (.hfReady half offset shift) := by
  have := half.isLt
  have := offset.isLt
  have := shift.isLt
  simp only [Opcode.Statement, encodeCommand, rowOpcode, Option.map_some, Option.some.injEq]
  exact slice_commandWord_op _ _ (by omega) (by omega)

theorem Opcode.detBegin : Opcode.Statement .detBegin := by unfold Opcode.Statement; decide

theorem Opcode.detWin : Opcode.Statement .detWin := by unfold Opcode.Statement; decide

theorem Opcode.detCommit : Opcode.Statement .detCommit := by unfold Opcode.Statement; decide

theorem Opcode.ringReset (mode : Mode) : Opcode.Statement (.ringReset mode) := by
  cases mode <;> unfold Opcode.Statement <;> decide

theorem Opcode.ringGetnext : Opcode.Statement .ringGetnext := by unfold Opcode.Statement; decide

theorem Opcode.ringRecdone : Opcode.Statement .ringRecdone := by unfold Opcode.Statement; decide

theorem Opcode.busRd (addr : Word) : Opcode.Statement (.busRd addr) := rfl

theorem Opcode.busWr (addr data : Word) : Opcode.Statement (.busWr addr data) := rfl

end Sys2Proof.Laws
end

