-- ==== Sys2Proof/Laws/Ring.lean ====
section
/-!
SUPPORT. What the ring's shared procedures can do (R268 to R280), said once: the equations of `Push` and
`Pop`, and that every procedure of the producer and of the consumer leaves everything outside the ring,
the ring's memories and the fault bits alone.
-/

namespace Sys2Proof.Machine

/-- `t` differs from `s` in ring registers, ring memories and fault bits alone (R260). -/
def RingOnly (s t : State) : Prop :=
  t = { s with
    fault := t.fault
    mem := { s.mem with slot := t.mem.slot, fifo := t.mem.fifo }
    ring := t.ring }

theorem RingOnly.refl (s : State) : RingOnly s s := rfl

theorem RingOnly.trans {s t u : State} (h : RingOnly s t) (k : RingOnly t u) : RingOnly s u := by
  unfold RingOnly at h k ⊢
  rw [k, h]

/-- What `RingOnly` says of each field. -/
theorem RingOnly.fields {s t : State} (h : RingOnly s t) :
    t.build = s.build ∧ t.resp = s.resp ∧ t.sticky = s.sticky ∧ t.trigFlag = s.trigFlag ∧
      t.acq = s.acq ∧ t.gain = s.gain ∧ t.det = s.det ∧ t.mem.raw = s.mem.raw ∧
      t.mem.hf = s.mem.hf ∧ t.env = s.env := by
  unfold RingOnly at h
  rw [h]
  simp

/-- `Push` on a full FIFO raises the fault and drops the token (R268, R321). -/
theorem push_full (t : Word) {s : State} (h : s.ring.count.toNat = s.build.fc) :
    push t s = { s with fault := { s.fault with fifoOvf := true } } := by
  simp [push, h, State.faultFifoOvf]

/-- `Push` with room puts the token at the tail and counts it (R268). -/
theorem push_room (t : Word) {s : State} (h : s.ring.count.toNat ≠ s.build.fc) :
    push t s = { s with
      mem := { s.mem with fifo := s.mem.fifo.write32 s.ring.tail.toNat t }
      ring := { s.ring with
        tail := .ofNat 32 ((s.ring.tail.toNat + 1) % s.build.fc)
        count := .ofNat 32 (s.ring.count.toNat + 1) } } := by
  simp [push, h]

theorem push_ringOnly (t : Word) (s : State) : RingOnly s (push t s) := by
  unfold push
  split <;> rfl

theorem pop_ringOnly (s : State) : RingOnly s (pop s) := rfl

theorem enqueueSlot_ringOnly (j : Nat) (s : State) : RingOnly s (enqueueSlot j s) :=
  (push_ringOnly _ s).trans rfl

theorem backfill_ringOnly (n j : Nat) (s : State) : RingOnly s (backfill n j s) := by
  induction n generalizing j s with
  | zero => rfl
  | succ n ih => exact (enqueueSlot_ringOnly j s).trans (ih _ _)

theorem onTrigger_ringOnly (s : State) : RingOnly s (onTrigger s) := by
  unfold onTrigger
  split
  · rfl
  · refine RingOnly.trans (t := if s.ring.mode = .triggered then push startToken s else s) ?_
      ((backfill_ringOnly _ _ _).trans rfl)
    split
    · exact push_ringOnly _ _
    · rfl

theorem advanceFill_ringOnly (s : State) : RingOnly s (advanceFill s) := by
  unfold advanceFill
  simp only
  split <;> rfl

theorem endSequence_ringOnly (s : State) : RingOnly s (endSequence s) :=
  (push_ringOnly _ s).trans rfl

theorem closeGate_ringOnly (s : State) : RingOnly s (closeGate s) := rfl

theorem slotWhileTriggered_ringOnly (c : Nat) (s : State) : RingOnly s (slotWhileTriggered c s) := by
  unfold slotWhileTriggered
  split
  · refine (enqueueSlot_ringOnly c s).trans ?_
    simp only
    split
    · refine (endSequence_ringOnly _).trans ?_
      split
      · exact closeGate_ringOnly _
      · rfl
    · rfl
  · rfl

theorem closeFullBatch_ringOnly (s : State) : RingOnly s (closeFullBatch s) := by
  unfold closeFullBatch
  split
  · exact (endSequence_ringOnly _).trans (closeGate_ringOnly _)
  · rfl

theorem onSlotFull_ringOnly (s : State) : RingOnly s (onSlotFull s) := by
  unfold onSlotFull
  refine (advanceFill_ringOnly s).trans ?_
  simp only
  split
  · exact enqueueSlot_ringOnly _ _
  · exact (slotWhileTriggered_ringOnly _ _).trans (closeFullBatch_ringOnly _)

theorem storeSample_ringOnly (x : Half) (s : State) : RingOnly s (storeSample x s) := rfl

theorem appendSample_ringOnly (x : Half) (s : State) : RingOnly s (appendSample x s) := by
  unfold appendSample
  refine (storeSample_ringOnly x s).trans ?_
  simp only
  split
  · exact onSlotFull_ringOnly _
  · rfl

theorem appendSamples_ringOnly (xs : List Half) (s : State) : RingOnly s (appendSamples xs s) := by
  induction xs generalizing s with
  | nil => rfl
  | cons x xs ih =>
    unfold appendSamples
    split
    · rfl
    · exact (appendSample_ringOnly x s).trans (ih _)

/-- `RingAppend` clears `TRIG_FLAG` and writes nothing else outside the ring (R270, R271). -/
theorem ringAppend_ringOnly (xs : List Half) (s : State) :
    RingOnly { s with trigFlag := false } (ringAppend xs s) := by
  unfold ringAppend
  simp only
  split
  · split
    · refine RingOnly.trans ?_ (appendSamples_ringOnly _ _)
      exact RingOnly.trans (t := { s with
        trigFlag := false, ring := { s.ring with recDone := false, gatedReading := false } })
        rfl (push_ringOnly _ _)
    · rfl
  · split
    · exact (onTrigger_ringOnly _).trans (appendSamples_ringOnly _ _)
    · exact appendSamples_ringOnly _ _

/-- An open gate lets a sample in (R270). -/
theorem appendSamples_cons_open (x : Half) (xs : List Half) {s : State} (h : gateClosed s = false) :
    appendSamples (x :: xs) s = appendSamples xs (appendSample x s) := by
  simp [appendSamples, h]

/-- A closed gate keeps all samples out (R276). -/
theorem appendSamples_closed (xs : List Half) {s : State} (h : gateClosed s = true) :
    appendSamples xs s = s := by
  cases xs <;> simp [appendSamples, h]

/-- Outside gated mode the gate is never closed (R263). -/
theorem gateClosed_of_mode {s : State} (h : s.ring.mode ≠ .gated) : gateClosed s = false := by
  simp [gateClosed, h]

/-- The consumer's loop writes its own registers, `RESP` and the draw counter alone (R260, R280). -/
theorem getNextLoop_frame (n : Nat) (s : State) :
    getNextLoop n s = { s with
      resp := (getNextLoop n s).resp
      env := { s.env with draws := (getNextLoop n s).env.draws }
      ring := { s.ring with
        head := (getNextLoop n s).ring.head, count := (getNextLoop n s).ring.count
        rdActive := (getNextLoop n s).ring.rdActive, gnToken := (getNextLoop n s).ring.gnToken } } := by
  induction n generalizing s with
  | zero => rfl
  | succ n ih =>
    unfold getNextLoop
    split
    · rfl
    · simp only
      split
      · rfl
      · split
        · rw [ih]; rfl
        · split
          · rw [ih]; rfl
          · split
            · rw [ih]; rfl
            · split <;> rfl

end Sys2Proof.Machine
end

