-- ==== Sys2Proof/Laws/Units.lean ====
section
/-!
SUPPORT. The bounds of a legal build, what the shared procedures of the acquirer and of the detector can
do, the equations of the ring's small updates, and runs of operations.
-/

namespace Sys2Proof

/-- The bounds of a legal build in numbers (R8). -/
theorem Build.bounds {b : Build} (h : b.wf = true) :
    (1 ≤ b.h ∧ 4 * b.h ≤ 2 ^ 28) ∧ (2 ≤ b.w ∧ b.w ≤ b.h ∧ b.nb ≤ 256) ∧
      (1 ≤ b.nsw ∧ b.nsw * b.w ≤ b.h ∧ b.nsw ≤ 255) ∧ (2 ≤ b.n ∧ b.n ≤ 65535) ∧
      (1 ≤ b.e ∧ 2 * b.n * b.e ≤ 2 ^ 28) ∧ (b.n + 2 ≤ b.fc ∧ 4 * b.fc ≤ 2 ^ 28) ∧
      1 ≤ b.nr ∧ b.nr ≤ 255 := by
  simp only [Build.wf, Build.halfOk, Build.windowOk, Build.subWindowsOk, Build.slotsOk,
    Build.entriesOk, Build.fifoOk, Build.gainOk, Bool.and_eq_true, decide_eq_true_eq,
    beq_iff_eq] at h
  omega

/-- What a transaction decodes to is what the core performs (R120). -/
theorem BusOp.instr_of_decode {op : BusOp} {i : Instr} (h : decode op = .ok i) : op.instr = i := by
  cases op with
  | rd a => simpa [decode, BusOp.instr] using h
  | wr a d => simp [BusOp.instr, h]

end Sys2Proof

namespace Sys2Proof.Machine

/-- Publication writes `HF`, `GEN` and `HF_READY` alone (R195). -/
theorem publish_eq (xs : List Half) (s : State) :
    publish xs s = { s with
      mem := { s.mem with hf := s.mem.hf.writeRun 0 xs }
      acq := { s.acq with gen := s.acq.gen + 1, hfReady := true } } := rfl

/-- The overload report sets the sticky bit and emits one event, or does nothing (R193). -/
theorem reportOverload_eq (vs : List Int) (s : State) :
    reportOverload vs s = { s with
      sticky := { s.sticky with ovl := s.sticky.ovl || vs.any (overloaded s.acq.ovlThr) }
      env := { s.env with
        trace := s.env.trace ++ if vs.any (overloaded s.acq.ovlThr) then [.ovlEvt] else [] } } := by
  unfold reportOverload
  cases vs.any (overloaded s.acq.ovlThr) <;> simp [State.emit]

/-- The hand-over writes the ring's side, the trigger flag and the trace alone (R196). -/
theorem handOver_frame (xs : List Half) (s : State) :
    handOver xs s = { s with
      fault := (handOver xs s).fault
      trigFlag := (handOver xs s).trigFlag
      mem := { s.mem with slot := (handOver xs s).mem.slot, fifo := (handOver xs s).mem.fifo }
      ring := (handOver xs s).ring
      env := { s.env with trace := (handOver xs s).env.trace } } := by
  unfold handOver
  cases s.acq.proc with
  | none => rfl
  | usb => rfl
  | ring =>
    have h := ringAppend_ringOnly xs s
    unfold RingOnly at h
    simp only
    rw [h]

/-- The length of a sub-window is `W` (R225). -/
@[simp] theorem subWindow_length (s : State) : (subWindow s).1.length = s.build.w := by
  simp [subWindow]

/-- There is a match bit per bucket (R222, R226). -/
@[simp] theorem matchBits_length (s : State) (p : Nat → BitVec 64) :
    (matchBits s p).length = s.build.nb := by
  simp [matchBits]

/-- At most every bucket matches (R32). -/
theorem matchBits_count_le (s : State) (p : Nat → BitVec 64) :
    (matchBits s p).count true ≤ s.build.nb := by
  simpa using List.count_le_length (a := true) (l := matchBits s p)

/-- The judgement writes `MATCH_VEC`, `MATCH_CNT`, `ACC`, `WIN` and `RESP` alone (R222). -/
theorem judgeWindow_frame (p : Nat → BitVec 64) (s : State) :
    judgeWindow p s = { s with
      resp := (judgeWindow p s).resp
      det := { s.det with
        matchVec := (judgeWindow p s).det.matchVec, matchCnt := (judgeWindow p s).det.matchCnt
        acc := (judgeWindow p s).det.acc, win := (judgeWindow p s).det.win } } := rfl

/-- Before its last value the fill counter advances (R274). -/
theorem advanceFill_next {s : State} (h : s.ring.fill.toNat < 2 ^ 31 - 1) :
    advanceFill s = { s with
      ring := { s.ring with wpos := 0, fill := .ofNat 31 (s.ring.fill.toNat + 1) } } := by
  simp only [advanceFill, if_pos h]

/-- At its last value it stays and `LIFETIME` is raised (R277). -/
theorem advanceFill_last {s : State} (h : ¬ s.ring.fill.toNat < 2 ^ 31 - 1) :
    advanceFill s = { s with
      fault := { s.fault with lifetime := true }, ring := { s.ring with wpos := 0 } } := by
  simp only [advanceFill, if_neg h]
  rfl

/-- `END` is pushed and the trigger state left (R274). -/
theorem endSequence_eq (s : State) :
    endSequence s = { push endToken s with
      ring := { (push endToken s).ring with isTriggered := false } } := rfl

/-- A slot token is pushed and recorded (R272, R274). -/
theorem enqueueSlot_eq (j : Nat) (s : State) :
    enqueueSlot j s = { push (.ofNat 32 j) s with
      ring := { (push (.ofNat 32 j) s).ring with lastEnq := .ofNat 32 j } } := rfl

/-- A Sample goes to its place in the active slot (R270). -/
theorem storeSample_eq (x : Half) (s : State) :
    storeSample x s = { s with
      mem := { s.mem with
        slot := s.mem.slot.write16
          (slotOf s.build s.ring.fill.toNat * s.build.e + s.ring.wpos.toNat) x }
      ring := { s.ring with wpos := .ofNat 32 (s.ring.wpos.toNat + 1) } } := rfl

/-- The physical slot of a non-negative index (R80). -/
theorem slotOf_nat (b : Build) (u : Nat) : slotOf b u = u % b.n := by
  simp only [slotOf]
  omega

/-- The choice among offers is the free value's, counted only where there is one to make (R327, log 4). -/
theorem Env.choose_eq {e : Env} (h : e.offers ≠ []) :
    e.choose = (e.offers[Config.arbiter e.turns % e.offers.length]?,
      e.turns + if 1 < e.offers.length then 1 else 0) := by
  unfold Env.choose
  rcases hx : e.offers with _ | ⟨x, _ | ⟨y, r⟩⟩
  · exact absurd hx h
  · simp [Nat.mod_one]
  · have hl : Config.arbiter e.turns % (r.length + 2) < (x :: y :: r).length :=
      Nat.mod_lt _ (Nat.succ_pos _)
    simp [List.getD_eq_getElem?_getD, List.getElem?_eq_getElem hl]

/-- Nothing pushed, nothing changed (R268). -/
theorem State.fifoPushedOnly_refl (s : State) (n : Nat) : s.fifoPushedOnly n s.mem.fifo :=
  fun _ _ => rfl

/-- A push with room changes the bytes of the next free element alone (R268). -/
theorem State.fifoPushedOnly_push (t : Word) {s : State} (h : s.ring.count.toNat ≠ s.build.fc)
    (ht : s.ring.tail.toNat < s.build.fc) : s.fifoPushedOnly 1 (push t s).mem.fifo := by
  intro a ha
  have h0 := ha 0 Nat.zero_lt_one
  rw [Nat.add_zero, Nat.mod_eq_of_lt ht] at h0
  rw [push_room t h]
  exact Memory.readByte_write32_other _ _ h0

/-- A run of no operation. -/
@[simp] theorem runOps_nil (s : State) : runOps [] s = s := rfl

/-- A run's first operation. -/
theorem runOps_cons {i : Instr} {s t : State} (is : List Instr) (h : exec i s = .next t) :
    runOps (i :: is) s = runOps is t := by
  simp only [runOps, h]

/-- A run in two parts. -/
theorem runOps_append (is js : List Instr) (s : State) :
    runOps (is ++ js) s = runOps js (runOps is s) := by
  induction is generalizing s with
  | nil => rfl
  | cons i is ih =>
    obtain ⟨t, h⟩ := exec_next i s
    rw [List.cons_append, runOps_cons _ h, runOps_cons _ h, ih]

/-- What holds after no operation and is kept by each operation of a run holds after the run. -/
theorem runOps_induct {P : State → Prop} {is : List Instr} {s : State} (h0 : P s)
    (h : ∀ i ∈ is, ∀ u t, P u → exec i u = .next t → P t) : P (runOps is s) := by
  induction is generalizing s with
  | nil => exact h0
  | cons i is ih =>
    obtain ⟨t, ht⟩ := exec_next i s
    rw [runOps_cons _ ht]
    exact ih (h i List.mem_cons_self s t h0 ht) (fun j hj => h j (List.mem_cons_of_mem i hj))

end Sys2Proof.Machine
end

