-- ==== Sys2Proof/Tests/Slice0.lean ====
section
/-!
SUPPORT. The model's own tests: ill-formed terms that the checks refuse, command words written out from
the formats of 30_encoding.md, single steps with results from the worked examples and vectors of spec/,
and for each statement with hypotheses a state and operands that meet them (`witness_<statement>`).
-/

namespace Sys2Proof.Tests

open Sys2Proof Sys2Proof.Machine

/- Fixtures of 95_test_vectors.md section 0; the tables for `W = 4` are those of R233's formulas. -/

def aq1 : Build :=
  { h := 4, w := 4, nsw := 1, n := 3, e := 4, fc := 5, nr := 4, gain := gainGT1, narrow := .wrap,
    power := .reference [0, 16384, 32767, 16384] [32767, 0, -32768, 0] [0, 32767, 0, -32768] }

def rv8 : Build := { aq1 with n := 8, fc := 10 }

def fresh (b : Build) : State := State.resetOf b Env.reset

def nextOf (o : Host.Outcome State Fault Refusal) : Option State :=
  match o with
  | .next s => some s
  | .fault _ => none
  | .refused _ => none

/-- The next state of an operation, or the state itself. -/
def after (i : Instr) (s : State) : State := (nextOf (exec i s)).getD s

def withRing (s : State) (f : RingUnit → RingUnit) : State := { s with ring := f s.ring }

/-- Raw samples in half 0. -/
def loaded (s : State) (vs : List Half) : State :=
  { s with mem := { s.mem with raw := s.mem.raw.writeRun 0 vs } }

/-- A published Half-Frame. -/
def published (s : State) (vs : List Half) : State := publish vs s

/-- Tokens pushed in order. -/
def pushed (ts : List Word) (s : State) : State := ts.foldl (fun u t => push t u) s

/- Ill-formed terms are refused (R8, R120). -/

theorem test_wf_refuses_cmd_write : Instr.wellFormed (.busWr 0x00000004 0x10000002) = false := by decide

theorem test_wf_accepts_fixtures : aq1.wf = true ∧ rv8.wf = true ∧ buildDT1.wf = true := by decide

theorem test_wf_refuses_half : Build.halfOk { aq1 with h := 0 } = false := by decide

theorem test_wf_refuses_window : Build.windowOk { aq1 with w := 3 } = false := by decide

theorem test_wf_refuses_sub_windows : Build.subWindowsOk { aq1 with nsw := 2 } = false := by decide

theorem test_wf_refuses_slots : Build.slotsOk { aq1 with n := 1 } = false := by decide

theorem test_wf_refuses_entries : Build.entriesOk { aq1 with e := 0 } = false := by decide

theorem test_wf_refuses_fifo : Build.fifoOk { aq1 with fc := 4 } = false := by decide

theorem test_wf_refuses_gain :
    Build.gainOk { aq1 with gain := [{ lin := 0, shift := 0, db := 0, code := 0 }] } = false := by decide

theorem test_wf_refuses_power : Build.powerOk { aq1 with power := .reference [1] [1] [1] } = false := by
  decide

/- Words written out from the formats of R121 to R126 (opcode, then the argument's fields). -/

theorem test_decode_nop : decodeCommand 0b00000000_000000000000000000000000 = .ok .nop := by decide

theorem test_decode_sysReset : decodeCommand 0b00000001_000000000000000000000000 = .ok .sysReset := by
  decide

theorem test_decode_gainSet :
    decodeCommand 0b00010000_000000000000000_1_10000010 = .ok (.gainSet 130 true) := by decide

theorem test_decode_gainSetdb :
    decodeCommand 0b00010001_0000000_0_1111111111111101 = .ok (.gainSetdb (-3) false) := by decide

theorem test_decode_gainUp : decodeCommand 0b00010010_000000000000000000000000 = .ok .gainUp := by decide

theorem test_decode_gainDown : decodeCommand 0b00010011_000000000000000000000000 = .ok .gainDown := by
  decide

theorem test_decode_gainGetdb :
    decodeCommand 0b00010100_000000000000000000000000 = .ok .gainGetdb := by decide

theorem test_decode_gainGetshift :
    decodeCommand 0b00010101_000000000000000000000000 = .ok .gainGetshift := by decide

theorem test_decode_gainForrange :
    decodeCommand 0b00010110_0000000000000000_11001000 = .ok (.gainForrange 200) := by decide

theorem test_decode_gainShiftfor :
    decodeCommand 0b00010111_0000000000000000_00000001 = .ok (.gainShiftfor 1) := by decide

theorem test_decode_procSet :
    decodeCommand 0b00100000_0000000000000000000000_10 = .ok (.procSet .usb) := by decide

theorem test_decode_hfReady :
    decodeCommand 0b00100001_1000000000000001_0110_000_1 = .ok (.hfReady 1 0x8001 6) := by decide

theorem test_decode_detBegin :
    decodeCommand 0b00110000_000000000000000000000000 = .ok .detBegin := by decide

theorem test_decode_detWin : decodeCommand 0b00110001_000000000000000000000000 = .ok .detWin := by decide

theorem test_decode_detCommit :
    decodeCommand 0b00110010_000000000000000000000000 = .ok .detCommit := by decide

theorem test_decode_ringReset :
    decodeCommand 0b01000000_0000000000000000000000_01 = .ok (.ringReset .triggered) := by decide

theorem test_decode_ringGetnext :
    decodeCommand 0b01000001_000000000000000000000000 = .ok .ringGetnext := by decide

theorem test_decode_ringRecdone :
    decodeCommand 0b01000010_000000000000000000000000 = .ok .ringRecdone := by decide

theorem test_decode_bus :
    decode (.rd 0x3000000C) = .ok (.busRd 0x3000000C) ∧
      decode (.wr 0x00000034 0x00016000) = .ok (.busWr 0x00000034 0x00016000) := by decide

/-- The illegal words of 95_test_vectors.md section 2.3, each by its reason (R128). -/
theorem test_decode_illegal :
    [0x00000001, 0x01000001, 0x10000200, 0x11020000, 0x12000001, 0x16000100, 0x21000002, 0x21000008,
        0x41000001].all (fun w => decodeCommand w == .error .reservedBit) = true ∧
      [0x02000000, 0x18000000, 0x33000000, 0x43000000, 0xFF000000].all
        (fun w => decodeCommand w == .error .unassignedOpcode) = true ∧
      [0x20000003, 0x40000003].all (fun w => decodeCommand w == .error .illegalSelector) = true := by
  decide

/- Single steps. Sources: the examples of the rules and 95_test_vectors.md part 2. -/

/-- R152, R154: `NOP` answers 0, and is refused while halted. -/
theorem test_nop :
    (after .nop { fresh aq1 with resp := 7 }).resp = 0 ∧
      (after .nop { fresh aq1 with fault := { fifoOvf := true, lifetime := false } }).resp =
        0xFFFFFFFF := by decide

/-- R153: with `FAULT = 1`, `SYS.RESET` gives `FAULT = 0`, `STATUS = 0`, `RESP = 0`. -/
theorem test_sysReset :
    (fun t : State => (faultWord t, statusWord t, t.resp))
      (after .sysReset { fresh aq1 with fault := { fifoOvf := true, lifetime := false }, resp := 9 }) =
      (0, 0, 0) := by decide

/-- R172: `GAIN.SET range=1, dis=1` sends the disabled code twice and answers 1. -/
theorem test_gainSet_disabled :
    (fun t : State => (csrRead t .gainState, t.resp, t.env.trace)) (after (.gainSet 1 true) (fresh aq1)) =
      (0x101, 1, [.gainCmd 0xFF, .gainCmd 0xFF]) := by decide

/-- Section 2.4: with limits 1 and 2, `GAIN.SET range=3` gives 2. -/
theorem test_gainSet_limits :
    (after (.gainSet 3 false)
      { fresh aq1 with gain := { range := 0, dis := false, min := 1, max := 2 } }).resp = 2 := by decide

/-- R173: `db = 9` is 3 from both 12 and 6, the smaller index wins. -/
theorem test_gainSetdb_tie : (after (.gainSetdb 9 false) (fresh aq1)).resp = 1 := by decide

/-- R173: `db = -3` gives range 3. -/
theorem test_gainSetdb_negative : (after (.gainSetdb (-3) false) (fresh aq1)).gain.range = 3 := by decide

/-- R174: from range 2 up to 3, then no change and no event. -/
theorem test_gainUp :
    (after .gainUp (after (.gainSet 2 false) (fresh aq1))).gain.range = 3 ∧
      (fun t : State => (t.resp, t.env.trace.length))
        (after .gainUp (after (.gainSet 3 false) (fresh aq1))) = (0, 2) := by decide

/-- Section 2.4: `GAIN.DOWN` from 2 while disabled answers 1 and sends the disabled code; R175: at 0 it
answers 0. -/
theorem test_gainDown :
    (fun t : State => (t.resp, t.gain.range, t.env.trace.getLast?))
        (after .gainDown (after (.gainSet 2 true) (fresh aq1))) = (1, 1, some (.gainCmd 0xFF)) ∧
      (after .gainDown (fresh aq1)).resp = 0 := by decide

/-- R176: range 1 is 12 dB, the disabled row 0 dB. -/
theorem test_gainGetdb :
    (after .gainGetdb (after (.gainSet 1 false) (fresh aq1))).resp = 12 ∧
      (after .gainGetdb (after (.gainSet 1 true) (fresh aq1))).resp = 0 := by decide

/-- R177: range 3 shifts by 3. -/
theorem test_gainGetshift :
    (after .gainGetshift (after (.gainSet 3 false) (fresh aq1))).resp = 3 := by decide

/-- R178: range 200 is clamped to row 3; section 2.4: range 1 is 4. -/
theorem test_gainForrange :
    (after (.gainForrange 200) (fresh aq1)).resp = 1 ∧ (after (.gainForrange 1) (fresh aq1)).resp = 4 := by
  decide

/-- R179: range 1 shifts by 1; section 2.4: range 255 by 3. -/
theorem test_gainShiftfor :
    (after (.gainShiftfor 1) (fresh aq1)).resp = 1 ∧ (after (.gainShiftfor 255) (fresh aq1)).resp = 3 := by
  decide

/-- R190: `PROC.SET sel=RING`. -/
theorem test_procSet : csrRead (after (.procSet .ring) (fresh aq1)) .proc = 1 := by decide

/-- Vector V1 before the command: `SCL_CORR = 3`, four raw samples. -/
def v1 : State :=
  loaded { fresh aq1 with acq := { AcqUnit.reset with sclCorr := 3 } } [0x8000, 0x8010, 0x7FF0, 0xFFFF]

/-- R191's example (vector V1): the Half-Frame, the last sample wrapped. -/
theorem test_hfReady_samples :
    ((after (.hfReady 0 0x8000 2) v1).mem.hf.fetchRun 0 4 0).1 = [0xFFFD, 0x003D, 0xFFBD, 0xFFF9] := by
  decide

/-- Vector V1: `GEN = 1`, `STATUS = 0x101`, one `OVL_EVT`, `RESP = 0`. -/
theorem test_hfReady_flags :
    (fun t : State => (t.acq.gen, statusWord t, t.env.trace, t.resp)) (after (.hfReady 0 0x8000 2) v1) =
      (1, 0x101, [.ovlEvt], 0) := by decide

/-- R221: with `HF_READY = 1` and `GEN = 7` it answers 1; again, `ERR_STATE`. -/
theorem test_detBegin :
    (fun t : State => (t.resp, t.det.gen, statusWord t))
        (after .detBegin { fresh aq1 with acq := { AcqUnit.reset with hfReady := true, gen := 7 } }) =
        (1, 7, 0x004) ∧
      (fun t : State => (t.resp, statusWord t))
        (after .detBegin { fresh aq1 with det := { DetUnit.reset aq1 with busy := true } }) =
        (0xFFFFFFFF, 0x404) := by decide

/-- R232, vector F1: the powers of the 40 kHz tone. -/
theorem test_power_tone :
    (List.range 8).map (fun k => (referencePower hann16 cos16 sin16 16
      [0, 4870, 7727, 7391, 4000, -1044, -5657, -7932, -6928, -3061, 2071, 6347, 8000, 6347, 2071,
        -3061] k).toNat) =
      [26615281, 554793962, 892072385, 71631485, 686249, 62036, 11530, 3293] := by decide

/-- R234: the worked example, an impulse. -/
theorem test_power_impulse :
    (List.range 8).map (fun k => (referencePower hann16 cos16 sin16 16
      (List.replicate 8 0 ++ [16384] ++ List.replicate 7 0) k).toNat) =
      [268369924, 268402689, 268369924, 268402689, 268369924, 268402689, 268369924, 268402689] := by
  decide

/-- R227, vectors T2 to T5: counts 1 and 3 fire with `TRIG_MAXCNT = 3`, counts 0, 4 and 8 do not. -/
theorem test_fired : [0, 1, 3, 4, 8].map (fired 3) = [false, true, true, false, false] := by decide

/-- An evaluation open over a Half-Frame of zeros. -/
def evaluating : State :=
  after .detBegin (published
    { fresh aq1 with
      det := { DetUnit.reset aq1 with
        trigMaxCnt := 1
        thr := [{ lo := 0, hi := 0, en := true }, { lo := 0, hi := 0, en := false }] } } [0, 0, 0, 0])

/-- R229: a threshold of 0 matches every power, a disabled bucket never; R227: the one match fires. -/
theorem test_detWin :
    (fun t : State => (t.resp, csrRead t (.matchVec 0), t.det.matchCnt, csrRead t .detWin))
      (after .detWin evaluating) = (1, 1, 1, 0x101) := by decide

/-- R223: published at an equal `GEN`; discarded (2) when a publication fell in between. -/
theorem test_detCommit :
    (fun t : State => (t.resp, t.trigFlag, t.env.trace)) (after .detCommit (after .detWin evaluating)) =
        (1, true, [.trigEvt]) ∧
      (fun t : State => (t.resp, t.trigFlag, t.env.trace))
        (after .detCommit (published (after .detWin evaluating) [1, 1, 1, 1])) = (2, false, []) := by decide

/-- R266: `RING.RESET mode=GATED` leaves the FIFO `S`. -/
theorem test_ringReset :
    (fun t : State => (csrRead t .mode, fifoTokens t, t.ring.tail, t.ring.lastEnq))
      (after (.ringReset .gated) (fresh aq1)) = (2, [some 0xFFFFFFFF], 1, 0xFFFFFFFF) := by decide

/-- R280's example: `N = 8`, `FILL = 12`, FIFO `S 3 4 5 6 7 8 9 10 X`. -/
def drained : State :=
  pushed [0xFFFFFFFF, 3, 4, 5, 6, 7, 8, 9, 10, 0xFFFFFFFE]
    (withRing (fresh rv8) (fun r => { r with mode := .triggered, fill := 12 }))

/-- R280's example: `S` and the stale 3 and 4 are removed and slot 5 is yielded. -/
theorem test_ringGetnext :
    (fun t : State => (t.resp, t.ring.gnToken, t.ring.count, t.ring.rdActive))
      (after .ringGetnext drained) = (0x80000005, 5, 6, true) := by decide

/-- R280, R132: `END` alone closes the file; a deferred token (R284) stays. -/
theorem test_ringGetnext_close :
    (after .ringGetnext (pushed [0xFFFFFFFE] (fresh rv8))).resp = 0x40000000 ∧
      (fun t : State => (t.resp, t.ring.count)) (after .ringGetnext (pushed [3]
        (withRing (fresh rv8) (fun r => { r with fill := 4, maxReadLead := 2 })))) = (0, 1) := by decide

/-- R281: gated, gate closed: `REC_DONE = 1`; outside gated mode nothing. -/
theorem test_ringRecdone :
    (after .ringRecdone (withRing (fresh aq1)
        (fun r => { r with mode := .gated, gatedReading := true }))).ring.recDone = true ∧
      (after .ringRecdone (fresh aq1)).ring.recDone = false := by decide

/-- R288, Scenario C: 13 Samples give the tokens 0, 1, 2 and one Sample in the active slot. -/
theorem test_ringAppend_scenario_c :
    (fun t : State => (fifoTokens t, t.ring.fill, t.ring.wpos))
      (ringAppend ((List.range 13).map (BitVec.ofNat 16)) (fresh aq1)) =
      ([some 0, some 1, some 2], 3, 1) := by decide

/-- R272's example: `FILL = 5`, `p = 2`, `m = 3`, `BUFFER_DELTA = 1` gives `S 3 4`, final index 8. -/
theorem test_onTrigger :
    (fun t : State => (fifoTokens t, t.ring.finalIndex, t.ring.trigIndex))
      (onTrigger (withRing (fresh rv8) (fun r =>
        { r with mode := .triggered, fill := 5, pretrigSlots := 2, minSlots := 3, bufferDelta := 1 }))) =
      ([some 0xFFFFFFFF, some 3, some 4], 8, 5) := by decide

/-- R150's example: with `FILL = 7` and `N = 3` a read of `WSLOT` returns 1; section 2.1: `FIFO` index 5
is out of range. -/
theorem test_busRd :
    (after (.busRd 0x0000008C) (withRing (fresh aq1) (fun r => { r with fill := 7 }))).env.reads =
        [⟨.main, 0x0000008C, 1⟩] ∧
      (fun t : State => (t.env.reads, statusWord t)) (after (.busRd 0x40000014) (fresh aq1)) =
        ([⟨.main, 0x40000014, 0⟩], 0x800) := by decide

/-- Section 2.2: `RAW[7]` is written; R151's example: `OVL_THR = 0x6000`. -/
theorem test_busWr :
    (after (.busWr 0x1000000E 0x1234BEEF) (fresh aq1)).mem.raw.read16 7 = some 0xBEEF ∧
      (after (.busWr 0x00000034 0x00016000) (fresh aq1)).acq.ovlThr = 0x6000 := by decide

/-- One step from reset runs the word offered (`GAIN.SET range=2`). -/
theorem test_step_from_reset :
    (nextOf (step (State.reset.withFetchWord 32 0x10000002))).map (fun t => (t.resp, t.env.mainQ)) =
      some (2, []) := by decide

/- Witnesses: for each statement with hypotheses, operands that meet all of them together. -/

/-- The hypotheses `build.wf` and `halted = false` of most statements, at the reset state. -/
theorem witness_running : (fresh aq1).build.wf = true ∧ (fresh aq1).halted = false := by decide

theorem witness_ResetPinActsAsSysReset :
    ({ fresh aq1 with env := { Env.reset with resetPin := true } } : State).env.offers = [.resetPin] := by
  decide

theorem witness_GainStepKeepsDecision :
    (fresh aq1).halted = false ∧ (fresh aq1).gain.dis = false ∧ gainHalvingTables (fresh aq1).build ∧
      (fresh aq1).gain.range.toNat < rangeHi (fresh aq1) ∧
      (400 : BitVec 64).toNat = 4 * (100 : BitVec 64).toNat := by
  refine ⟨by decide, by decide, ?_, by decide, by decide⟩
  intro r h
  have h' : r + 1 < 4 := h
  match r with
  | 0 => decide
  | 1 => decide
  | 2 => decide
  | r + 3 => omega

theorem witness_HfReadyPublishes :
    v1.halted = false ∧ ∀ i, i < v1.build.h → (v1.mem.raw.read16 (0 + i)).isSome = true := by decide

theorem witness_LoadedSamplesArePublished :
    (fresh aq1).build.wf = true ∧ (fresh aq1).halted = false ∧ (fresh aq1).acq.proc = .none ∧
      ([1, 2, 3, 4] : List Half).length = (fresh aq1).build.h := by decide

/-- Both clauses: a misuse, and a sub-window to evaluate. -/
theorem witness_DetWinJudgesSubWindow :
    (fresh aq1).det.busy = false ∧ evaluating.build.wf = true ∧ evaluating.halted = false ∧
      evaluating.det.busy = true ∧ evaluating.det.win.toNat < evaluating.build.nsw := by decide

/-- Both clauses: misused and not. -/
theorem witness_OnlyDetectorMisuseIsStateError :
    (carried .detBegin == .detBegin && evaluating.det.busy) = true ∧ evaluating.halted = false ∧
      (carried .detBegin == .detBegin && (fresh aq1).det.busy) = false := by decide

theorem witness_EvaluationIsOrOfSubWindows :
    (published (fresh aq1) [0, 0, 0, 0]).build.wf = true ∧
      (published (fresh aq1) [0, 0, 0, 0]).halted = false ∧
      (published (fresh aq1) [0, 0, 0, 0]).acq.hfReady = true ∧
      (published (fresh aq1) [0, 0, 0, 0]).det.busy = false ∧
      ∀ i, i < (published (fresh aq1) [0, 0, 0, 0]).build.h →
        ((published (fresh aq1) [0, 0, 0, 0]).mem.hf.read16 i).isSome = true := by decide

theorem witness_PublicationsAdvanceGen :
    noReset [.hfReady 0 0x8000 2] ∧ (runOps [.hfReady 0 0x8000 2] v1).halted = false ∧
      0 < publications [.hfReady 0 0x8000 2] ∧ publications [.hfReady 0 0x8000 2] < 2 ^ 32 := by
  unfold noReset
  decide

/-- A run without a publication, and one that asks a halted core for one. -/
theorem witness_EqualGenMeansSameHalfFrame :
    (noReset [.detBegin] ∧ publications [.detBegin] < 2 ^ 32 ∧
        (runOps [.detBegin] v1).acq.gen = v1.acq.gen) ∧
      noReset [.hfReady 0 0x8000 2] ∧ publications [.hfReady 0 0x8000 2] < 2 ^ 32 ∧
      isPublication (carried (.hfReady 0 0x8000 2)) = true ∧
      (runOps [.hfReady 0 0x8000 2] v1.faultLifetime).acq.gen = v1.faultLifetime.acq.gen := by
  unfold noReset
  decide

/-- An evaluation overtaken by one publication. -/
theorem witness_OvertakenEvaluationIsDiscarded :
    (published v1 [0, 0, 0, 0]).halted = false ∧ (published v1 [0, 0, 0, 0]).det.busy = false ∧
      (published v1 [0, 0, 0, 0]).acq.hfReady = true ∧
      exec .detBegin (published v1 [0, 0, 0, 0]) = .next (after .detBegin (published v1 [0, 0, 0, 0])) ∧
      noReset [.hfReady 0 0x8000 2] ∧
      (∀ i ∈ [Instr.hfReady 0 0x8000 2], carried i ≠ .detCommit) ∧
      0 < publications [.hfReady 0 0x8000 2] ∧ publications [.hfReady 0 0x8000 2] < 2 ^ 32 ∧
      (runOps [.hfReady 0 0x8000 2] (after .detBegin (published v1 [0, 0, 0, 0]))).halted = false := by
  unfold noReset
  exact ⟨by decide, by decide, by decide, rfl, by decide, by decide, by decide, by decide, by decide⟩

theorem witness_ReferencePowerIsExact :
    aq1.wf = true ∧
      aq1.power = .reference [0, 16384, 32767, 16384] [32767, 0, -32768, 0] [0, 32767, 0, -32768] ∧
      ([1, 2, 3, 4] : List Half).length = aq1.w := by decide

/-- The fifo hypotheses and each clause: a closed gate, an open gate outside gated mode, the gate open in
gated mode. -/
theorem witness_GetnextDrainsTheFifo :
    drained.build.wf = true ∧ drained.halted = false ∧ drained.ring.fifoInv drained.build ∧
      drained.FifoWritten ∧ drained.ring.mode ≠ .gated ∧
      ((after (.ringReset .gated) (fresh aq1)).ring.mode = .gated ∧
        (after (.ringReset .gated) (fresh aq1)).ring.gatedReading = false) := by
  unfold RingUnit.fifoInv State.FifoWritten
  decide

/-- Both clauses: a slot is yielded, and nothing is ready. The FIFO hypotheses of the first are met by
`sequenced` (`witness_StepKeepsTokens_tokens`), which yields slot 3 while `FILL = 7 < N`. -/
theorem witness_YieldedSlotIsRetained :
    (after .ringGetnext drained).resp.getLsbD 31 = true ∧
      (after .ringGetnext (fresh aq1)).resp.getLsbD 31 = false := by decide

/-- Each clause at its boundary: an empty FIFO (room), a full one, one token. -/
theorem witness_FifoIsABoundedQueue :
    ((fresh aq1).ring.fifoInv aq1 ∧ (fresh aq1).ring.count.toNat < aq1.fc) ∧
      ((pushed [1, 2, 3, 4, 5] (fresh aq1)).ring.fifoInv aq1 ∧
        (pushed [1, 2, 3, 4, 5] (fresh aq1)).ring.count.toNat = aq1.fc) ∧
      ((pushed [1] (fresh aq1)).ring.fifoInv aq1 ∧ 0 < (pushed [1] (fresh aq1)).ring.count.toNat) := by
  unfold RingUnit.fifoInv
  decide

/-- A triggered ring with five slots filled and two slots of pretrigger (R272's example). -/
def armed : State :=
  withRing (fresh rv8) (fun r =>
    { r with mode := .triggered, fill := 5, pretrigSlots := 2, minSlots := 1, bufferDelta := 1 })

/-- Both clauses: a first trigger with room, and a retrigger. -/
theorem witness_TriggerBackfillsOrExtends :
    armed.build.wf = true ∧ armed.ring.fifoInv armed.build ∧ armed.ring.isTriggered = false ∧
      armed.ring.count.toNat + 1 + (5 - 3) ≤ armed.build.fc ∧
      (onTrigger armed).ring.isTriggered = true ∧ (onTrigger armed).ring.fifoInv armed.build := by
  unfold RingUnit.fifoInv
  decide

theorem witness_BackfillIsRetained :
    armed.build.wf = true ∧ hostConfigOk armed ∧ backfillFirst armed ≤ 3 ∧ 3 < armed.ring.fill.toNat := by
  unfold hostConfigOk
  decide

/-- Both clauses at their boundary: the last value of the fill counter, and the one before it. -/
theorem witness_SlotFullRotates :
    armed.build.wf = true ∧ armed.ring.fifoInv armed.build ∧
      armed.ring.count.toNat + 2 ≤ armed.build.fc ∧
      (withRing armed (fun r => { r with fill := 0x7FFFFFFF })).ring.fill.toNat = 2 ^ 31 - 1 ∧
      (withRing armed (fun r => { r with fill := 0x7FFFFFFE })).ring.fill.toNat < 2 ^ 31 - 1 := by
  unfold RingUnit.fifoInv
  decide

theorem witness_ContinuousAppendKeepsOrder :
    (fresh aq1).build.wf = true ∧ (fresh aq1).ring.inv aq1 ∧ (fresh aq1).ring.mode = .continuous ∧
      (fresh aq1).ring.count.toNat + (0 + 20) / 4 ≤ aq1.fc ∧ 0 + (0 + 20) / 4 < 2 ^ 31 ∧
      (List.replicate 20 (0 : Half)).length = 20 := by
  unfold RingUnit.inv RingUnit.fifoInv
  decide

theorem witness_RoundOfTheRing :
    exec (.ringReset .continuous) (fresh aq1) = .next (after (.ringReset .continuous) (fresh aq1)) ∧
      ([[1, 2, 3, 4, 5], [6, 7, 8, 9, 10, 11, 12]] : List (List Half)).flatten.length =
        aq1.n * aq1.e := by
  exact ⟨rfl, by decide⟩

theorem witness_TriggeredSequenceIsWhole :
    armed.build.wf = true ∧ armed.ring.inv armed.build ∧ armed.ring.mode = .triggered ∧
      armed.ring.isTriggered = false ∧ armed.ring.minSlots.toNat + 1 ≤ (0 + 8) / armed.build.e ∧
      5 + (0 + 8) / armed.build.e < 2 ^ 31 ∧
      armed.ring.count.toNat + (5 - backfillFirst armed) + 1 + 3 ≤ armed.build.fc := by
  unfold RingUnit.inv RingUnit.fifoInv
  decide

/-- The state after one step, or the state itself. -/
def stepped (s : State) : State := (nextOf (step s)).getD s

/-- Gated mode, the gate closed and the batch drained; the consumer offers its signal. -/
def drainedBatch : State :=
  (withRing (fresh aq1) (fun r => { r with mode := .gated, gatedReading := true })).withFetchWord 32
    0x42000000

/-- Gated mode with the gate open, and with the gate closed, the batch drained and the signal offered. -/
theorem witness_GatedBatchFits :
    ((after (.ringReset .gated) (fresh aq1)).ring.inv aq1 ∧
        (after (.ringReset .gated) (fresh aq1)).ring.mode = .gated ∧
        (after (.ringReset .gated) (fresh aq1)).Batch) ∧
      (drainedBatch.Inv ∧ drainedBatch.ring.mode = .gated ∧ drainedBatch.Batch ∧
        drainedBatch.drainsFirst ∧ nextWork drainedBatch ≠ .idle ∧
        step drainedBatch = .next (stepped drainedBatch)) := by
  unfold State.Inv Memories.inv Memory.within GainUnit.inv DetUnit.inv RingUnit.inv RingUnit.fifoInv
    State.Batch State.drainsFirst
  exact ⟨by decide, by decide, by decide, by decide, fun _ _ _ _ _ => rfl, by decide, rfl⟩

/-- A state with an open sequence and tokens in the FIFO has the invariants, and steps. -/
theorem witness_StepKeepsInvariant :
    (onTrigger armed).Inv ∧ step (onTrigger armed) = .next (onTrigger armed) := by
  unfold State.Inv Memories.inv Memory.within GainUnit.inv DetUnit.inv RingUnit.inv RingUnit.fifoInv
  exact ⟨by decide, rfl⟩

theorem witness_StepKeepsElementsWhole : (fresh aq1).Whole ∧ step (fresh aq1) = .next (fresh aq1) := by
  refine ⟨⟨?_, ?_, ?_, ?_⟩, rfl⟩
  · exact fun _ => rfl
  · exact fun _ => rfl
  · exact fun _ => rfl
  · exact fun _ _ _ => rfl

/-- A finished sequence `S 3 4 5 6 X` whose `START` has been removed; the consumer asks for a slot. -/
def sequenced : State :=
  (pop (appendSamples (List.replicate 8 0) (onTrigger armed))).withFetchWord 32 0x41000000

/-- Five tokens in the FIFO: the slots 3 to 6 and `END`. -/
theorem witness_StepKeepsTokens_fifo :
    sequenced.halted = false ∧
      fifoTokens sequenced = [some 3, some 4, some 5, some 6, some 0xFFFFFFFE] := by decide

theorem witness_StepKeepsTokens :
    sequenced.Inv ∧ sequenced.Stream [0xFFFFFFFF, 3, 4, 5, 6, 0xFFFFFFFE] ∧
      step sequenced = .next (stepped sequenced) := by
  refine ⟨?_, fun _ => ⟨[[3, 4, 5, 6]], [], by decide⟩, rfl⟩
  unfold State.Inv Memories.inv Memory.within GainUnit.inv DetUnit.inv RingUnit.inv RingUnit.fifoInv
  decide

/-- `sequenced` yields slot 3 while `FILL - N + 1 = 0`. -/
theorem witness_YieldedSlotIsRetained_fifo :
    sequenced.ring.fifoInv sequenced.build ∧ (after .ringGetnext sequenced).resp.getLsbD 31 = true ∧
      (after .ringGetnext sequenced).ring.gnToken = 3 ∧ sequenced.ring.fill.toNat < sequenced.build.n := by
  unfold RingUnit.fifoInv
  decide

/-- The same FIFO meets the hypothesis of the statement's last clause. -/
theorem witness_StepKeepsTokens_tokens : sequenced.Tokens := by
  intro _
  have hc : sequenced.ring.count.toNat = 5 := by decide
  refine ⟨by decide, fun k hk => ?_, fun j k t u hj hk ht hu ht' hu' => ?_⟩
  · rw [hc] at hk
    match k, hk with
    | 0, _ => exact ⟨3, by unfold isSlotToken; decide⟩
    | 1, _ => exact ⟨4, by unfold isSlotToken; decide⟩
    | 2, _ => exact ⟨5, by unfold isSlotToken; decide⟩
    | 3, _ => exact ⟨6, by unfold isSlotToken; decide⟩
    | 4, _ => exact ⟨0xFFFFFFFE, by unfold isSlotToken; decide⟩
  · rw [hc] at hk
    have all : ∀ k, k < 5 → ∀ j, j < k → (fifoToken sequenced k).any (fun u => decide (u.toInt < 0)) ||
        (fifoToken sequenced j).any
          (fun t => (fifoToken sequenced k).any (fun u => decide (t.toInt < u.toInt))) := by decide
    have h := all k hk j hj
    unfold isSlotToken at hu'
    simp only [ht, hu, Option.any_some, Bool.or_eq_true, decide_eq_true_eq] at h
    omega

theorem witness_StepKeepsOpenSequence :
    (onTrigger armed).Open ∧ (onTrigger armed).halted = false ∧
      (onTrigger armed).ring.isTriggered = true ∧ step (onTrigger armed) = .next (onTrigger armed) := by
  refine ⟨fun _ _ => Or.inr (by decide), by decide, by decide, rfl⟩

/-- A publication that appends, one that does not, an operation that is none, an illegal word. -/
theorem witness_EachUnitWritesItsOwn :
    carried (.busWr cmdAddr 0x21800020) = .hfReady 0 0x8000 2 ∧
      appends (.busWr cmdAddr 0x21800020) (fresh aq1) = false ∧
      appends (.busWr cmdAddr 0x21800020) (after (.procSet .ring) (fresh aq1)) = true ∧
      isPublication (carried .ringGetnext) = false ∧ carried .ringGetnext ≠ .sysReset ∧
      isIllegalWord (.busWr cmdAddr 0x10000200) = true ∧ writesResp (.busRd 8) = false := by decide

theorem witness_CommandsKeepConfiguration :
    isCommand (.ringReset .gated) = true ∧ Instr.ringReset .gated ≠ .sysReset := by decide

/-- A fault is raised by a push on a full FIFO. -/
theorem witness_FaultsAreStickyUntilReset :
    carried (.hfReady 0 0 0) ≠ .sysReset ∧
      (push 6 (pushed [1, 2, 3, 4, 5] (fresh aq1))).fault ≠ (fresh aq1).fault := by decide

theorem witness_HaltedCoreRefuses :
    (push 6 (pushed [1, 2, 3, 4, 5] (fresh aq1))).halted = true ∧ isCommand .nop = true ∧
      (0x418, 1) ∈ rwFields aq1 := by decide

theorem witness_IllegalWordIsRefused :
    (∀ r ∈ opcodeMap, r.selects 0x10000200 = false) ∧ (fresh aq1).halted = false := by decide

theorem witness_CommandWordPerformsOperation :
    decode (.wr cmdAddr 0x10000002) = .ok (.gainSet 2 false) := by decide

theorem witness_DecodeAfterEncode : Instr.wellFormed (.busWr 0x00000034 0x00016000) = true := by decide

theorem witness_EncodeAfterDecode : decode (.wr cmdAddr 0x40000002) = .ok (.ringReset .gated) := by decide

/-- The main loop offers one command; a word of the table. -/
theorem witness_StepRunsTheOfferedOperation :
    ({ fresh aq1 with env := { Env.reset with mainQ := [.wr cmdAddr 0] } } : State).env.offers =
        [.agent .main] ∧
      (fresh aq1).env.offers = [] ∧ decodeTableWord 32 0x40000002 = some (.ringReset .gated) := by decide

theorem witness_StepPerformsOneOffer :
    ({ fresh aq1 with
        env := { Env.reset with mainQ := [.wr cmdAddr 0], dmaQ := [.wr 0x10000000 1] } } :
          State).env.offers = [.agent .dma, .agent .main] := by decide

/-- Every kind of bad read at a boundary: misaligned, beyond `RAW`, `HF`, `SLOT`, `FIFO`, an unmapped
register, an unmapped space. -/
theorem witness_BusReadAnswers :
    [0x40000002, 0x10000010, 0x20000008, 0x30000018, 0x40000014, 0x00000014, 0x00000420, 0x50000000].all
        (fun a => targetOf aq1 a == none) = true ∧
      ¬ goodRead (fresh aq1) 0x10000010 ∧ goodRead (fresh aq1) 0x1000000E := by
  refine ⟨by decide, ?_, ?_⟩
  · exact fun h => absurd h.2 (by decide)
  · exact ⟨by decide, by decide⟩

theorem witness_RawWriteStoresElement : (fresh aq1).build.wf = true ∧ 7 < 2 * (fresh aq1).build.h := by
  decide

/-- The first and the last read-write register. -/
theorem witness_RegisterWriteStoresField :
    (fresh aq1).det.thr.length = (fresh aq1).build.w / 2 ∧ (0x030, 16) ∈ rwFields aq1 ∧
      (0x418, 1) ∈ rwFields aq1 := by decide

/-- A write to a read-only register is bad; a good write and a good read. -/
theorem witness_BadAccessSetsErrBus :
    ¬ goodWrite (fresh aq1) 0x20000000 ∧ goodWrite (fresh aq1) cmdAddr ∧
      goodRead (fresh aq1) 0x20000006 := by
  refine ⟨fun h => h, Or.inl rfl, ?_⟩
  exact ⟨by decide, by decide⟩

theorem witness_ThrSetWritesEntry :
    (fresh aq1).det.thr.length = (fresh aq1).build.w / 2 ∧ 1 < (fresh aq1).build.w / 2 := by decide

end Sys2Proof.Tests
end

/-!
PROOFS. The statements on the state: what each operation may write and what it leaves alone (O41, O43),
that no operation reads the outputs (O45), the reset state (O37) and the clearing of `STATUS` (O58).
-/

namespace Sys2Proof.Machine

/-! ## Bus writes to `STATUS` -/

/-- Settles O58, by the equation of a bus write to `STATUS` (R26, R151). -/
theorem statusWriteClearsOnes : Obligations.StatusWriteClearsOnes := by
  intro s data hrun
  show Host.Outcome.next (busWrRule 0x0000000C data s) = _
  rw [busWrRule_status, hrun]
  rfl

/-! ## The reset state has the invariants -/

/-- The reset registers are in their ranges in a legal build (R60, R286). -/
theorem State.resetOf_inv {b : Build} (env : Env) (hb : b.wf = true) : (State.resetOf b env).Inv := by
  obtain ⟨-, -, -, -, ⟨he, -⟩, ⟨hfc, -⟩, hnr, -⟩ := Build.bounds hb
  refine ⟨hb, Memories.reset_inv b, ?gain, ?det, ?ring⟩
  case gain => exact hnr
  case det => exact ⟨List.length_replicate, Nat.zero_le _, Nat.two_pow_pos _, Nat.zero_le _⟩
  case ring =>
    refine ⟨he, ⟨Nat.zero_le _, ?_, (Nat.zero_mod _).symm⟩, ?_, ?_, ?_⟩
    · show 0 < b.fc
      omega
    all_goals exact fun h => nomatch h

/-- Nothing is written in an empty memory (log 8), so nothing is half written. -/
theorem State.resetOf_whole (b : Build) (env : Env) : (State.resetOf b env).Whole :=
  ⟨fun _ => rfl, fun _ => rfl, fun _ => rfl, fun _ _ _ => rfl⟩

/-- `LAST_ENQ` is -1 after reset (R60). -/
theorem State.resetOf_lastEnq (b : Build) (env : Env) :
    (State.resetOf b env).ring.lastEnq.toInt = -1 := by
  show (0xFFFFFFFF : Word).toInt = -1
  decide

/-- The FIFO is empty after reset (R60). -/
theorem State.resetOf_tokens (b : Build) (env : Env) : (State.resetOf b env).Tokens := by
  intro _
  refine ⟨?_, fun k hk => ?_, fun j k _ _ _ hk => ?_⟩
  · rw [State.resetOf_lastEnq]
    exact ⟨le_rfl, show (-1 : Int) < 0 by decide⟩
  all_goals exact absurd hk (Nat.not_lt_zero k)

/-- After reset the continuous mode's one sequence is empty (R60, R261). -/
theorem State.resetOf_stream (b : Build) (env : Env) : (State.resetOf b env).Stream [] := by
  intro _
  refine ⟨[], [], rfl, fun _ => rfl, fun _ => rfl, List.Pairwise.nil, ?_,
    State.resetOf_lastEnq b env, ?_⟩
  · exact fun j hj => absurd hj List.not_mem_nil
  · exact List.suffix_rfl

/-- Settles O37: each invariant of the reset values (R60, R286). -/
theorem resetStateHasInvariants : Obligations.ResetStateHasInvariants := by
  intro b env hb
  refine ⟨State.resetOf_inv env hb, State.resetOf_whole b env, State.resetOf_tokens b env,
    State.resetOf_stream b env, ?sequence, ?batch⟩
  case sequence => exact fun _ htrig => nomatch htrig
  case batch => exact fun hgated => nomatch hgated

/-! ## No operation reads what has left the core (R58)

An operation that reads neither the trace nor the replies commutes with putting older outputs before
those recorded. This composes along the model's definitions, and gives O45 from the state with nothing
recorded. -/

/-- The same machine, these outputs having left it before those recorded. -/
def State.withPast (s : State) (es : List Event) (rs : List BusReply) : State :=
  s.withOutputs (es ++ s.env.trace) (rs ++ s.env.reads)

/-- `f` neither reads nor removes outputs recorded before it (R58). An update of the core's own fields
keeps the past by definition. -/
def KeepsPast (f : State → State) : Prop :=
  ∀ s es rs, f (s.withPast es rs) = (f s).withPast es rs

section
variable (s : State) (es : List Event) (rs : List BusReply)

@[simp] theorem State.withPast_build : (s.withPast es rs).build = s.build := rfl
@[simp] theorem State.withPast_acq : (s.withPast es rs).acq = s.acq := rfl

/-- With nothing recorded, the past is all there is. -/
theorem State.withOutputs_withPast : (s.withOutputs [] []).withPast es rs = s.withOutputs es rs := by
  simp [State.withPast, State.withOutputs]

/- The shared operations (R14). -/

/-- An event goes after all that has left the core. -/
theorem emit_withPast (e : Event) : (s.withPast es rs).emit e = (s.emit e).withPast es rs := by
  simp [State.emit, State.withPast, State.withOutputs]

/-- So does a reply. -/
theorem reply_withPast (a d : Word) : (s.withPast es rs).reply a d = (s.reply a d).withPast es rs := by
  simp [State.reply, State.withPast, State.withOutputs]

end

theorem KeepsPast.comp {f g : State → State} (hg : KeepsPast g) (hf : KeepsPast f) :
    KeepsPast (fun s => g (f s)) := by
  intro s es rs
  simp only [hf s es rs, hg (f s) es rs]

/-- A choice by what is no output, which it then is by definition. -/
theorem KeepsPast.ite {c : State → Prop} [DecidablePred c] {f g : State → State}
    (hf : KeepsPast f) (hg : KeepsPast g)
    (hc : ∀ s es rs, c (s.withPast es rs) = c s := by intros; rfl) :
    KeepsPast (fun s => if c s then f s else g s) := by
  intro s es rs
  by_cases h : c s
  · simp only [hc, h, if_true, hf s es rs]
  · simp only [hc, h, if_false, hg s es rs]

theorem emit_keepsPast (e : Event) : KeepsPast (State.emit · e) :=
  fun s es rs => emit_withPast s es rs e

/- The ring (R268 to R281). -/

theorem push_keepsPast (t : Word) : KeepsPast (push t) := by
  unfold push
  exact .ite (fun _ _ _ => rfl) (fun _ _ _ => rfl)

theorem enqueueSlot_keepsPast (j : Nat) : KeepsPast (enqueueSlot j) := by
  intro s es rs
  simp only [enqueueSlot, push_keepsPast _ s es rs]
  rfl

theorem backfill_keepsPast (n j : Nat) : KeepsPast (backfill n j) := by
  induction n generalizing j with
  | zero => exact fun _ _ _ => rfl
  | succ n ih => exact (ih (j + 1)).comp (enqueueSlot_keepsPast j)

theorem firstTrigger_keepsPast : KeepsPast firstTrigger := by
  have hstart : KeepsPast (fun s => if s.ring.mode = .triggered then push startToken s else s) :=
    .ite (push_keepsPast _) (fun _ _ _ => rfl)
  intro s es rs
  unfold firstTrigger
  simp only [hstart s es rs]
  have hfill := backfill_keepsPast (s.ring.fill.toNat - backfillFirst s) (backfillFirst s)
  exact congrArg (fun u : State => { u with
    ring := { u.ring with
      isTriggered := true
      trigIndex := s.ring.fill.setWidth 32
      finalIndex := .ofNat 32 (newFinal s) } }) (hfill _ es rs)

theorem onTrigger_keepsPast : KeepsPast onTrigger := by
  unfold onTrigger
  exact .ite (fun _ _ _ => rfl) firstTrigger_keepsPast

theorem advanceFill_keepsPast : KeepsPast advanceFill := by
  unfold advanceFill
  exact .ite (fun _ _ _ => rfl) (fun _ _ _ => rfl)

theorem endSequence_keepsPast : KeepsPast endSequence := by
  intro s es rs
  simp only [endSequence, push_keepsPast _ s es rs]
  rfl

theorem closeGate_keepsPast : KeepsPast closeGate := fun _ _ _ => rfl

theorem slotWhileTriggered_keepsPast (c : Nat) : KeepsPast (slotWhileTriggered c) := by
  have hgate : KeepsPast (fun s => if s.ring.mode = .gated then closeGate s else s) :=
    .ite closeGate_keepsPast (fun _ _ _ => rfl)
  have hend : KeepsPast (fun s => if s.ring.finalIndex.toNat ≤ c then
      (if (endSequence s).ring.mode = .gated then closeGate (endSequence s) else endSequence s)
      else s) :=
    .ite (hgate.comp endSequence_keepsPast) (fun _ _ _ => rfl)
  exact .ite (hend.comp (enqueueSlot_keepsPast c)) (fun _ _ _ => rfl)

theorem closeFullBatch_keepsPast : KeepsPast closeFullBatch := by
  unfold closeFullBatch
  exact .ite (closeGate_keepsPast.comp endSequence_keepsPast) (fun _ _ _ => rfl)

theorem onSlotFull_keepsPast : KeepsPast onSlotFull := by
  unfold onSlotFull
  refine .ite (fun s => ?_) (fun s => ?_)
  · exact ((enqueueSlot_keepsPast s.ring.fill.toNat).comp advanceFill_keepsPast) s
  · exact (closeFullBatch_keepsPast.comp
      ((slotWhileTriggered_keepsPast s.ring.fill.toNat).comp advanceFill_keepsPast)) s

theorem storeSample_keepsPast (x : Half) : KeepsPast (storeSample x) := fun _ _ _ => rfl

theorem appendSample_keepsPast (x : Half) : KeepsPast (appendSample x) := by
  have hfull : KeepsPast (fun s => if s.ring.wpos.toNat = s.build.e then onSlotFull s else s) :=
    .ite onSlotFull_keepsPast (fun _ _ _ => rfl)
  exact hfull.comp (storeSample_keepsPast x)

theorem appendSamples_keepsPast (xs : List Half) : KeepsPast (appendSamples xs) := by
  induction xs with
  | nil => exact fun _ _ _ => rfl
  | cons x xs ih =>
    exact .ite (c := fun s => gateClosed s) (fun _ _ _ => rfl)
      (ih.comp (appendSample_keepsPast x))

theorem reopenGate_keepsPast : KeepsPast reopenGate := by
  have hopen : KeepsPast (fun s =>
      { s with ring := { s.ring with recDone := false, gatedReading := false } }) := fun _ _ _ => rfl
  exact (push_keepsPast startToken).comp hopen

theorem ringAppend_keepsPast (xs : List Half) : KeepsPast (ringAppend xs) := by
  have htake : KeepsPast (fun s => { s with trigFlag := false }) := fun _ _ _ => rfl
  have happend := (appendSamples_keepsPast xs).comp htake
  have hreopen := (appendSamples_keepsPast xs).comp (reopenGate_keepsPast.comp htake)
  have htrigger := (appendSamples_keepsPast xs).comp (onTrigger_keepsPast.comp htake)
  unfold ringAppend
  exact .ite (.ite hreopen htake)
    (.ite htrigger happend)

theorem ringResetRule_keepsPast (mode : Mode) : KeepsPast (ringResetRule mode) := by
  unfold ringResetRule
  split
  · exact KeepsPast.comp (g := fun s => (push startToken s).setResp 0)
      (KeepsPast.comp (g := fun s => s.setResp 0) (fun _ _ _ => rfl) (push_keepsPast startToken))
      (fun _ _ _ => rfl)
  · exact fun _ _ _ => rfl

theorem getNextLoop_keepsPast (n : Nat) : KeepsPast (getNextLoop n) := by
  induction n with
  | zero => exact fun _ _ _ => rfl
  | succ n ih =>
    have hskip : KeepsPast (fun s => getNextLoop n (pop (s.setDraws (headToken s).2))) :=
      ih.comp (f := fun s => pop (s.setDraws (headToken s).2)) (fun _ _ _ => rfl)
    have hstart : KeepsPast
        (fun s => getNextLoop n (pop (setRdActive false (s.setDraws (headToken s).2)))) :=
      ih.comp (f := fun s => pop (setRdActive false (s.setDraws (headToken s).2)))
        (fun _ _ _ => rfl)
    refine .ite (c := fun s => s.ring.count.toNat = 0) (fun _ _ _ => rfl) ?_
    refine .ite (fun _ _ _ => rfl) (.ite hstart ?_)
    refine .ite hskip (.ite hskip ?_)
    exact .ite (fun _ _ _ => rfl) (fun _ _ _ => rfl)

theorem ringGetnextRule_keepsPast : KeepsPast ringGetnextRule := by
  unfold ringGetnextRule
  exact .ite (fun _ _ _ => rfl)
    (fun s => getNextLoop_keepsPast s.ring.count.toNat s)

theorem ringRecdoneRule_keepsPast : KeepsPast ringRecdoneRule := by
  have hsignal : KeepsPast (fun s =>
      if gateClosed s then { s with ring := { s.ring with recDone := true } } else s) :=
    .ite (fun _ _ _ => rfl) (fun _ _ _ => rfl)
  exact KeepsPast.comp (g := fun s => s.setResp 0) (fun _ _ _ => rfl) hsignal

/- The acquirer (R191 to R196), the detector (R221 to R223) and the gain (R171 to R175). -/

theorem reportOverload_keepsPast (vs : List Int) : KeepsPast (reportOverload vs) :=
  .ite (c := fun s => vs.any (overloaded s.acq.ovlThr))
    (.comp (emit_keepsPast .ovlEvt) (fun _ _ _ => rfl)) (fun _ _ _ => rfl)

theorem handOver_keepsPast (xs : List Half) : KeepsPast (handOver xs) := by
  intro s es rs
  unfold handOver
  simp only [State.withPast_acq]
  cases s.acq.proc with
  | none => rfl
  | ring => exact ringAppend_keepsPast xs s es rs
  | usb => exact emit_withPast s es rs _

theorem hfReadyRule_keepsPast (half : BitVec 1) (offset : Half) (shift : BitVec 4) :
    KeepsPast (hfReadyRule half offset shift) := by
  intro s
  let raws := rawHalf half s
  let vs := scaleAll offset shift s raws.1
  let samples := vs.map (narrow s.build.narrow)
  have hpublish : KeepsPast (fun u => publish samples (u.setDraws raws.2)) := fun _ _ _ => rfl
  have hanswer : KeepsPast (fun u => u.setResp 0) := fun _ _ _ => rfl
  exact (hanswer.comp ((handOver_keepsPast samples).comp
    ((reportOverload_keepsPast vs).comp hpublish))) s

theorem detBeginRule_keepsPast : KeepsPast detBeginRule :=
  .ite (c := fun s => s.det.busy) (fun _ _ _ => rfl)
    (.ite (c := fun s => s.acq.hfReady) (fun _ _ _ => rfl) (fun _ _ _ => rfl))

theorem detWinRule_keepsPast : KeepsPast detWinRule := by
  unfold detWinRule
  exact .ite (fun _ _ _ => rfl) (fun _ _ _ => rfl)

theorem detCommitRule_keepsPast : KeepsPast detCommitRule := by
  have hevent : KeepsPast (fun s => (s.emit .trigEvt).setResp 1) :=
    .comp (g := fun s => s.setResp 1) (fun _ _ _ => rfl) (emit_keepsPast .trigEvt)
  exact .ite (fun _ _ _ => rfl) (.ite (c := fun s => s.det.acc)
    (.ite (hevent.comp (fun _ _ _ => rfl)) (fun _ _ _ => rfl)) (fun _ _ _ => rfl))

theorem gainEmit_keepsPast : KeepsPast gainEmit := by
  intro s es rs
  unfold gainEmit
  simp only [emit_withPast]
  rfl

theorem selectRange_keepsPast (r : State → Nat) (dis : Bool)
    (hr : ∀ s es rs, r (s.withPast es rs) = r s) : KeepsPast (fun s => selectRange s (r s) dis) := by
  intro s es rs
  simp only [hr]
  have h := gainEmit_keepsPast (setDisabled (setRange s (r s)) dis) es rs
  exact congrArg (fun u : State => u.setResp (u.gain.range.setWidth 32)) h

theorem gainMove_keepsPast (r : State → Nat) (hr : ∀ s es rs, r (s.withPast es rs) = r s) :
    KeepsPast (fun s => (gainEmit (setRange s (r s))).setResp 1) := by
  intro s es rs
  simp only [hr]
  exact congrArg (State.setResp · 1) (gainEmit_keepsPast (setRange s (r s)) es rs)

theorem gainUpRule_keepsPast : KeepsPast gainUpRule :=
  .ite (gainMove_keepsPast (fun s => s.gain.range.toNat + 1) (fun _ _ _ => rfl)) (fun _ _ _ => rfl)

theorem gainDownRule_keepsPast : KeepsPast gainDownRule :=
  .ite (gainMove_keepsPast (fun s => s.gain.range.toNat - 1) (fun _ _ _ => rfl)) (fun _ _ _ => rfl)

/- The dispatch and the bus (R150, R151, R154). -/

theorem perform_keepsPast (i : Instr) : KeepsPast (perform i) := by
  cases i with
  | gainSet range dis => exact selectRange_keepsPast _ dis (fun _ _ _ => rfl)
  | gainSetdb db dis => exact selectRange_keepsPast _ dis (fun _ _ _ => rfl)
  | gainUp => exact gainUpRule_keepsPast
  | gainDown => exact gainDownRule_keepsPast
  | hfReady half offset shift => exact hfReadyRule_keepsPast half offset shift
  | detBegin => exact detBeginRule_keepsPast
  | detWin => exact detWinRule_keepsPast
  | detCommit => exact detCommitRule_keepsPast
  | ringReset mode => exact ringResetRule_keepsPast mode
  | ringGetnext => exact ringGetnextRule_keepsPast
  | ringRecdone => exact ringRecdoneRule_keepsPast
  | nop | sysReset | gainGetdb | gainGetshift | gainForrange | gainShiftfor | procSet | busRd
  | busWr => exact fun _ _ _ => rfl

theorem command_keepsPast {rule : State → State} (h : KeepsPast rule) : KeepsPast (command rule) :=
  .ite (c := fun s => s.halted) (fun _ _ _ => rfl) h

theorem cmdWrite_keepsPast (w : Word) : KeepsPast (cmdWrite w) := by
  have hrule : KeepsPast (fun s =>
      match decodeCommand w with
      | .ok i => perform i s
      | .error _ => s.errCmd) := by
    cases decodeCommand w with
    | ok i => exact perform_keepsPast i
    | error _ => exact fun _ _ _ => rfl
  exact .ite (fun _ _ _ => rfl) hrule

theorem readTarget_withPast (s : State) (es : List Event) (rs : List BusReply) (t : Target) :
    readTarget (s.withPast es rs) t = readTarget s t := by
  cases t <;> rfl

theorem busRdRule_keepsPast (addr : Word) : KeepsPast (busRdRule addr) := by
  intro s es rs
  unfold busRdRule
  simp only [State.withPast_build]
  cases targetOf s.build addr with
  | none => exact reply_withPast s.errBus es rs addr 0
  | some t =>
    simp only [readTarget_withPast]
    exact reply_withPast (s.setDraws _) es rs addr _

theorem csrStore_withPast (v : Word) (s : State) (es : List Event) (rs : List BusReply) (r : Csr) :
    csrStore v (s.withPast es rs) r = (csrStore v s r).withPast es rs := by
  cases r <;> rfl

theorem writeCsr_keepsPast (r : Csr) (data : Word) : KeepsPast (writeCsr r data) := by
  unfold writeCsr
  cases r.access with
  | wo => exact cmdWrite_keepsPast data
  | w1c =>
    exact .ite (c := fun s => s.halted) (fun _ _ _ => rfl) (fun _ _ _ => rfl)
  | rw =>
    exact .ite (c := fun s => s.halted) (fun _ _ _ => rfl)
      (fun s es rs => csrStore_withPast data s es rs r)
  | ro => exact fun _ _ _ => rfl

theorem busWrRule_keepsPast (addr data : Word) : KeepsPast (busWrRule addr data) := by
  intro s es rs
  unfold busWrRule
  simp only [State.withPast_build]
  rcases targetOf s.build addr with _ | (r | i | i | i | i)
  case some.csr => exact writeCsr_keepsPast r data s es rs
  all_goals rfl

/-- A command but `SYS.RESET` is its rule behind the halted test (R154). -/
theorem exec_eq_command {j : Instr} (hj : isCommand j = true) (hreset : j ≠ .sysReset) (s : State) :
    exec j s = .next (command (perform j) s) := by
  cases j with
  | sysReset => exact absurd rfl hreset
  | busRd | busWr => exact nomatch hj
  | _ => rfl

/-- Every operation completes, and by a function of the state that reads no output (R58). -/
theorem exec_keepsPast (i : Instr) : ∃ f, KeepsPast f ∧ ∀ s, exec i s = .next (f s) := by
  by_cases hreset : i = .sysReset
  · subst hreset
    exact ⟨sysResetRule, fun _ _ _ => rfl, fun _ => rfl⟩
  by_cases hi : isCommand i = true
  · exact ⟨_, command_keepsPast (perform_keepsPast i), exec_eq_command hi hreset⟩
  cases i with
  | busRd addr => exact ⟨_, busRdRule_keepsPast addr, fun _ => rfl⟩
  | busWr addr data => exact ⟨_, busWrRule_keepsPast addr data, fun _ => rfl⟩
  | _ => exact absurd rfl hi

/-- Settles O45: what the operation does to the state with nothing recorded is what it appends, and any
record is a past put before that state. -/
theorem outputsAreNeverRead : Obligations.OutputsAreNeverRead := by
  intro i s
  obtain ⟨f, hpast, hexec⟩ := exec_keepsPast i
  have hbare (es : List Event) (rs : List BusReply) :
      f (s.withOutputs es rs) = (f (s.withOutputs [] [])).withPast es rs := by
    rw [← hpast, State.withOutputs_withPast]
  have hs : f s = (f (s.withOutputs [] [])).withPast s.env.trace s.env.reads := hbare _ _
  refine ⟨f s, (f (s.withOutputs [] [])).env.trace, (f (s.withOutputs [] [])).env.reads, hexec s,
    ?_, ?_, fun es' rs' => ?_⟩
  · rw [hs]
    rfl
  · rw [hs]
    rfl
  · rw [hexec, hbare, hs]
    rfl

/-! ## The words that select a row of the opcode map decode (R127, R131) -/

/-- A field that the mask covers is the pattern's. -/
theorem slice_of_mask {w m p : Word} (h : w &&& m = p) {hi lo : Nat}
    (hm : slice m hi lo = 2 ^ (hi + 1 - lo) - 1) : slice w hi lo = slice p hi lo := by
  have hp : p.toNat = w.toNat &&& m.toNat := by rw [← h, BitVec.toNat_and]
  unfold slice at hm ⊢
  rw [hp, ← Nat.shiftRight_eq_div_pow (w.toNat &&& m.toNat), Nat.shiftRight_and_distrib,
    Nat.shiftRight_eq_div_pow, Nat.shiftRight_eq_div_pow, Nat.and_mod_two_pow, hm,
    Nat.and_two_pow_sub_one_eq_mod, Nat.mod_mod]

/-- A row selects a word by its mask, and by `sel ≠ 3` in format `S` (R127, R128). -/
theorem MapRow.selects_iff (r : MapRow) (w : Word) :
    r.selects w = true ↔ w &&& r.mask = r.pattern ∧ (r.selector = true → w.toNat % 4 ≠ 3) := by
  simp only [MapRow.selects, Bool.and_eq_true, beq_iff_eq, Bool.not_eq_true', Bool.and_eq_false_iff,
    beq_eq_false_iff_ne]
  cases r.selector <;> simp

/-- A selector that is not 3 is a processor's (R190). -/
theorem procOfSel_isSome {n : Nat} (h : n < 3) : ∃ p, procOfSel n = some p := by
  interval_cases n <;> exact ⟨_, rfl⟩

/-- A selector that is not 3 is a mode's (R266). -/
theorem modeOfSel_isSome {n : Nat} (h : n < 3) : ∃ m, modeOfSel n = some m := by
  interval_cases n <;> exact ⟨_, rfl⟩

/-- A row without operands is one word (R121). -/
theorem decode_of_wholeWord {w p : Word} {j : Instr} (h : w &&& 0xFFFFFFFF = p)
    (hj : decodeCommand p = .ok j) : ∃ j, decodeCommand w = .ok j := by
  have hw : w &&& 0xFFFFFFFF = w := BitVec.and_allOnes
  exact ⟨j, by rw [← hw, h, hj]⟩

/-- Format `S` decodes a selector of its table (R125). -/
theorem formatS_isOk {α : Type} {w : Word} {sel : Nat → Option α} {v : α} (f : α → Instr)
    (hres : slice w 23 2 = 0) (hsel : sel (slice w 1 0) = some v) :
    formatS w sel f = .ok (f v) := by
  simp only [formatS, hres, if_true, hsel]

/-- Every word that selects a row of the map decodes (R127, R131). -/
theorem decodes_of_selects {w : Word} {r : MapRow} (hr : r ∈ opcodeMap) (h : r.selects w = true) :
    ∃ j, decodeCommand w = .ok j := by
  obtain ⟨hw, hsel⟩ := (r.selects_iff w).1 h
  have field (hi lo : Nat) (hm : slice r.mask hi lo = 2 ^ (hi + 1 - lo) - 1) :
      slice w hi lo = slice r.pattern hi lo := slice_of_mask hw hm
  have hcode (hs : r.selector = true) : slice w 1 0 < 3 := by
    have := hsel hs
    simp only [slice]
    omega
  simp only [opcodeMap, List.mem_cons, List.not_mem_nil, or_false] at hr
  rcases hr with rfl | rfl | rfl | rfl | rfl | rfl | rfl | rfl | rfl | rfl | rfl | rfl | rfl | rfl |
    rfl | rfl | rfl | rfl
  · exact decode_of_wholeWord hw (j := .nop) (by decide)
  · exact decode_of_wholeWord hw (j := .sysReset) (by decide)
  · simp only [decodeCommand, field 31 24 (by decide), formatG, field 23 9 (by decide)]
    exact ⟨_, rfl⟩
  · simp only [decodeCommand, field 31 24 (by decide), formatD, field 23 17 (by decide)]
    exact ⟨_, rfl⟩
  · exact decode_of_wholeWord hw (j := .gainUp) (by decide)
  · exact decode_of_wholeWord hw (j := .gainDown) (by decide)
  · exact decode_of_wholeWord hw (j := .gainGetdb) (by decide)
  · exact decode_of_wholeWord hw (j := .gainGetshift) (by decide)
  · simp only [decodeCommand, field 31 24 (by decide), formatR, field 23 8 (by decide)]
    exact ⟨_, rfl⟩
  · simp only [decodeCommand, field 31 24 (by decide), formatR, field 23 8 (by decide)]
    exact ⟨_, rfl⟩
  · obtain ⟨v, hv⟩ := procOfSel_isSome (hcode rfl)
    simp only [decodeCommand, field 31 24 (by decide)]
    exact ⟨_, formatS_isOk _ (field 23 2 (by decide)) hv⟩
  · simp only [decodeCommand, field 31 24 (by decide), formatH, field 3 1 (by decide)]
    exact ⟨_, rfl⟩
  · exact decode_of_wholeWord hw (j := .detBegin) (by decide)
  · exact decode_of_wholeWord hw (j := .detWin) (by decide)
  · exact decode_of_wholeWord hw (j := .detCommit) (by decide)
  · obtain ⟨v, hv⟩ := modeOfSel_isSome (hcode rfl)
    simp only [decodeCommand, field 31 24 (by decide)]
    exact ⟨_, formatS_isOk _ (field 23 2 (by decide)) hv⟩
  · exact decode_of_wholeWord hw (j := .ringGetnext) (by decide)
  · exact decode_of_wholeWord hw (j := .ringRecdone) (by decide)

/-- A word that does not decode is illegal by the map (R128). -/
theorem isIllegalWord_of_decode {w : Word} {e : DecodeError} (h : decodeCommand w = .error e) :
    isIllegalWord (.busWr cmdAddr w) = true := by
  simp only [isIllegalWord, beq_self_eq_true, Bool.true_and, List.all_eq_true, Bool.not_eq_true']
  intro r hr
  by_contra hsel
  obtain ⟨j, hj⟩ := decodes_of_selects hr (Bool.eq_true_of_not_eq_false hsel)
  exact nomatch hj.symm.trans h

/- What each format decodes to is its operation (R121 to R126). -/

theorem formatZ_ok {w : Word} {i j : Instr} (h : formatZ w i = .ok j) : i = j := by
  unfold formatZ at h
  split at h <;> cases h
  rfl

theorem formatR_ok {w : Word} {f : Byte → Instr} {j : Instr} (h : formatR w f = .ok j) :
    ∃ a, f a = j := by
  unfold formatR at h
  split at h <;> cases h
  exact ⟨_, rfl⟩

theorem formatG_ok {w : Word} {f : Byte → Bool → Instr} {j : Instr} (h : formatG w f = .ok j) :
    ∃ a d, f a d = j := by
  unfold formatG at h
  split at h <;> cases h
  exact ⟨_, _, rfl⟩

theorem formatD_ok {w : Word} {f : Half → Bool → Instr} {j : Instr} (h : formatD w f = .ok j) :
    ∃ a d, f a d = j := by
  unfold formatD at h
  split at h <;> cases h
  exact ⟨_, _, rfl⟩

theorem formatS_ok {α : Type} {w : Word} {sel : Nat → Option α} {f : α → Instr} {j : Instr}
    (h : formatS w sel f = .ok j) : ∃ v, f v = j := by
  unfold formatS at h
  split at h
  · split at h <;> cases h
    exact ⟨_, rfl⟩
  · cases h

theorem formatH_ok {w : Word} {f : BitVec 1 → Half → BitVec 4 → Instr} {j : Instr}
    (h : formatH w f = .ok j) : ∃ a b c, f a b c = j := by
  unfold formatH at h
  split at h <;> cases h
  exact ⟨_, _, _, rfl⟩

/-- A decoded word is a command (R120). -/
theorem isCommand_of_decode {w : Word} {j : Instr} (h : decodeCommand w = .ok j) :
    isCommand j = true := by
  unfold decodeCommand at h
  split at h
  case h_3 => obtain ⟨_, _, rfl⟩ := formatG_ok h; rfl
  case h_4 => obtain ⟨_, _, rfl⟩ := formatD_ok h; rfl
  case h_9 | h_10 => obtain ⟨_, rfl⟩ := formatR_ok h; rfl
  case h_11 | h_16 => obtain ⟨_, rfl⟩ := formatS_ok h; rfl
  case h_12 => obtain ⟨_, _, _, rfl⟩ := formatH_ok h; rfl
  case h_19 => cases h
  all_goals
    cases formatZ_ok h
    rfl

/-! ## The map of the registers (R47, R49) -/

/-- Beyond the fixed registers lies the threshold table alone (R44). -/
theorem csrAt_of_le (b : Build) {off : Nat} (h : 0x400 ≤ off) : csrAt b off = thresholdAt b off := by
  unfold csrAt
  split
  case h_50 => rfl
  all_goals omega

/-- The words of bucket `k`'s entry (R44). -/
theorem csrAt_threshold {b : Build} {k : Nat} (h : k < b.nb) :
    csrAt b (0x400 + 16 * k) = some (.thrLo k) ∧ csrAt b (0x404 + 16 * k) = some (.thrHi k) ∧
      csrAt b (0x408 + 16 * k) = some (.thrCtl k) := by
  refine ⟨?lo, ?hi, ?ctl⟩
  all_goals rw [csrAt_of_le b (by omega), thresholdAt, if_pos (by omega)]
  case lo =>
    rw [show (0x400 + 16 * k - 0x400) % 16 = 0 by omega,
      show (0x400 + 16 * k - 0x400) / 16 = k by omega]
    rfl
  case hi =>
    rw [show (0x404 + 16 * k - 0x400) % 16 = 4 by omega,
      show (0x404 + 16 * k - 0x400) / 16 = k by omega]
    rfl
  case ctl =>
    rw [show (0x408 + 16 * k - 0x400) % 16 = 8 by omega,
      show (0x408 + 16 * k - 0x400) / 16 = k by omega]
    rfl

/-- The threshold table holds nothing else (R44). -/
theorem thresholdAt_some {b : Build} {off : Nat} {r : Csr} (h : thresholdAt b off = some r) :
    ∃ k < b.nb, (off = 0x400 + 16 * k ∧ r = .thrLo k) ∨ (off = 0x404 + 16 * k ∧ r = .thrHi k) ∨
      (off = 0x408 + 16 * k ∧ r = .thrCtl k) := by
  unfold thresholdAt at h
  split at h
  case isFalse => cases h
  case isTrue hin =>
    refine ⟨(off - 0x400) / 16, hin.2, ?_⟩
    split at h
    case h_1 hrem => exact .inl ⟨by omega, (Option.some.inj h).symm⟩
    case h_2 hrem => exact .inr (.inl ⟨by omega, (Option.some.inj h).symm⟩)
    case h_3 hrem => exact .inr (.inr ⟨by omega, (Option.some.inj h).symm⟩)
    case h_4 => cases h

/-- The read-write registers are the nine fixed ones and the words of the threshold table (R40 to R45). -/
theorem mem_rwFields {b : Build} {off width : Nat} :
    (off, width) ∈ rwFields b ↔
      (off, width) ∈ [(0x030, 16), (0x034, 16), (0x044, 8), (0x048, 8), (0x050, 16), (0x0B0, 16),
        (0x0B4, 16), (0x0B8, 16), (0x0BC, 16)] ∨
      ∃ k < b.nb, (off, width) ∈ [(0x400 + 16 * k, 32), (0x404 + 16 * k, 32), (0x408 + 16 * k, 1)] := by
  rw [rwFields, List.mem_append, List.mem_flatMap]
  simp only [List.mem_range]

/-- `CMD`, `STATUS` and the read-write registers are at the offsets R47 gives them (R49). -/
theorem csrAt_access {b : Build} {off : Nat} {r : Csr} (h : csrAt b off = some r) :
    (r.access = .wo → off = 0x004) ∧ (r.access = .w1c → off = 0x00C) ∧
      (r.access = .rw → ∃ width, (off, width) ∈ rwFields b) := by
  simp only [mem_rwFields]
  unfold csrAt at h
  split at h
  case h_50 =>
    obtain ⟨k, hk, ⟨rfl, rfl⟩ | ⟨rfl, rfl⟩ | ⟨rfl, rfl⟩⟩ := thresholdAt_some h
    all_goals simp only [Csr.access, reduceCtorEq, false_implies, true_implies, true_and]
    · exact ⟨32, .inr ⟨k, hk, .head _⟩⟩
    · exact ⟨32, .inr ⟨k, hk, .tail _ (.head _)⟩⟩
    · exact ⟨1, .inr ⟨k, hk, .tail _ (.tail _ (.head _))⟩⟩
  all_goals
    obtain rfl := Option.some.inj h
    simp [Csr.access]

/-- A read-write register's offset names a read-write register (R47, R49). -/
theorem csrAt_rwFields {b : Build} {off width : Nat} (h : (off, width) ∈ rwFields b) :
    ∃ r, csrAt b off = some r ∧ r.access = .rw := by
  rcases mem_rwFields.1 h with h | ⟨k, hk, h⟩
  · simp only [List.mem_cons, Prod.mk.injEq, List.not_mem_nil, or_false] at h
    rcases h with ⟨rfl, -⟩ | ⟨rfl, -⟩ | ⟨rfl, -⟩ | ⟨rfl, -⟩ | ⟨rfl, -⟩ | ⟨rfl, -⟩ | ⟨rfl, -⟩ |
      ⟨rfl, -⟩ | ⟨rfl, -⟩
    all_goals exact ⟨_, rfl, rfl⟩
  · obtain ⟨hlo, hhi, hctl⟩ := csrAt_threshold hk
    simp only [List.mem_cons, Prod.mk.injEq, List.not_mem_nil, or_false] at h
    rcases h with ⟨rfl, -⟩ | ⟨rfl, -⟩ | ⟨rfl, -⟩
    · exact ⟨_, hlo, rfl⟩
    · exact ⟨_, hhi, rfl⟩
    · exact ⟨_, hctl, rfl⟩

/-- Every offset of the register map names a register (R47). -/
theorem csrAt_csrMap {s : State} {off : Nat} {v : Word} (h : (off, v) ∈ csrMap s) :
    ∃ r, csrAt s.build off = some r := by
  have hall : ∀ p ∈ csrMap s, (csrAt s.build p.1).isSome = true := by
    simp only [csrMap, List.forall_mem_append]
    refine ⟨⟨⟨?control, ?matchVec⟩, ?ring⟩, ?thresholds⟩
    case control | ring | matchVec => exact List.all_eq_true.1 rfl
    case thresholds =>
      intro p hp
      obtain ⟨k, hk, hp⟩ := List.mem_flatMap.1 hp
      obtain ⟨hlo, hhi, hctl⟩ := csrAt_threshold (List.mem_range.1 hk)
      simp only [List.mem_cons, List.not_mem_nil, or_false] at hp
      rcases hp with rfl | rfl | rfl
      · rw [hlo]; rfl
      · rw [hhi]; rfl
      · rw [hctl]; rfl
  exact Option.isSome_iff_exists.1 (hall _ h)

/-! ## What an operation can do (R150, R151, R154) -/

/-- An access in range names its element (R83). -/
theorem elementAt_of_inRange {width size off : Nat} (h : inRange width size off) :
    elementAt width size off = some (off / width) :=
  if_pos h

/-- Space 0 holds the addresses below `2^28` (R81). -/
theorem toNat_lt_of_spaceOf_csr {addr : Word} (h : spaceOf addr = some .csr) :
    addr.toNat < 2 ^ 28 := by
  unfold spaceOf at h
  rw [(slice_parts addr).1] at h
  split at h
  case h_1 hzero => omega
  all_goals cases h

/-- A register's address is its offset (R81). -/
theorem csrAt_of_targetOf {b : Build} {addr : Word} {r : Csr} (h : targetOf b addr = some (.csr r)) :
    csrAt b addr.toNat = some r := by
  unfold targetOf offsetOf at h
  rw [(slice_parts addr).2] at h
  split at h
  case h_1 hspace =>
    rw [Nat.mod_eq_of_lt (toNat_lt_of_spaceOf_csr hspace)] at h
    simpa using h
  all_goals simp at h

/-- A raw sample's address is in its space (R81). -/
theorem spaceOf_of_targetOf_raw {b : Build} {addr : Word} {i : Nat}
    (h : targetOf b addr = some (.raw i)) : spaceOf addr = some .raw := by
  unfold targetOf at h
  split at h
  case h_2 hspace => exact hspace
  all_goals simp at h

/- What an address names, by the number of its space (R80, R81). -/

theorem targetOf_of_space_csr {addr : Word} (b : Build) (h : addr.toNat / 2 ^ 28 = 0) :
    targetOf b addr = (csrAt b (addr.toNat % 2 ^ 28)).map .csr := by
  simp only [targetOf, spaceOf, offsetOf, (slice_parts addr).1, (slice_parts addr).2, h]

theorem targetOf_of_space_raw {addr : Word} (b : Build) (h : addr.toNat / 2 ^ 28 = 1) :
    targetOf b addr = (elementAt 2 (2 * b.h) (addr.toNat % 2 ^ 28)).map .raw := by
  simp only [targetOf, spaceOf, offsetOf, (slice_parts addr).1, (slice_parts addr).2, h]

theorem targetOf_of_space_hf {addr : Word} (b : Build) (h : addr.toNat / 2 ^ 28 = 2) :
    targetOf b addr = (elementAt 2 b.h (addr.toNat % 2 ^ 28)).map .hf := by
  simp only [targetOf, spaceOf, offsetOf, (slice_parts addr).1, (slice_parts addr).2, h]

theorem targetOf_of_space_slot {addr : Word} (b : Build) (h : addr.toNat / 2 ^ 28 = 3) :
    targetOf b addr = (elementAt 2 (b.n * b.e) (addr.toNat % 2 ^ 28)).map .slot := by
  simp only [targetOf, spaceOf, offsetOf, (slice_parts addr).1, (slice_parts addr).2, h]

theorem targetOf_of_space_fifo {addr : Word} (b : Build) (h : addr.toNat / 2 ^ 28 = 4) :
    targetOf b addr = (elementAt 4 b.fc (addr.toNat % 2 ^ 28)).map .fifo := by
  simp only [targetOf, spaceOf, offsetOf, (slice_parts addr).1, (slice_parts addr).2, h]

/-- A read that R326 does not name reaches a target (R150). -/
theorem targetOf_of_goodRead {s : State} {addr : Word} (h : goodRead s addr) :
    ∃ t, targetOf s.build addr = some t := by
  unfold goodRead at h
  split at h
  case h_1 hspace =>
    obtain ⟨v, hv⟩ := h
    obtain ⟨r, hr⟩ := csrAt_csrMap hv
    exact ⟨.csr r, by rw [targetOf_of_space_csr _ hspace, hr, Option.map_some]⟩
  case h_2 hspace =>
    exact ⟨_, by rw [targetOf_of_space_raw _ hspace, elementAt_of_inRange h, Option.map_some]⟩
  case h_3 hspace =>
    exact ⟨_, by rw [targetOf_of_space_hf _ hspace, elementAt_of_inRange h, Option.map_some]⟩
  case h_4 hspace =>
    exact ⟨_, by rw [targetOf_of_space_slot _ hspace, elementAt_of_inRange h, Option.map_some]⟩
  case h_5 hspace =>
    exact ⟨_, by rw [targetOf_of_space_fifo _ hspace, elementAt_of_inRange h, Option.map_some]⟩
  case h_6 => exact h.elim

/-- A write that R326 does not name reaches a raw sample or a register that can be written (R151). -/
theorem targetOf_of_goodWrite {s : State} {addr : Word} (h : goodWrite s addr) :
    (∃ i, targetOf s.build addr = some (.raw i)) ∨
      ∃ r, targetOf s.build addr = some (.csr r) ∧ r.access ≠ .ro := by
  unfold goodWrite at h
  split at h
  case h_1 hspace =>
    right
    have hoff : targetOf s.build addr = (csrAt s.build addr.toNat).map .csr := by
      rw [← targetOf_csr s.build (off := addr.toNat) (by omega), BitVec.ofNat_toNat, BitVec.setWidth_eq]
    rw [hoff]
    rcases h with rfl | rfl | ⟨width, hmem⟩
    · exact ⟨.cmd, rfl, by decide⟩
    · exact ⟨.status, rfl, by decide⟩
    · obtain ⟨r, hr, hacc⟩ := csrAt_rwFields hmem
      exact ⟨r, by rw [hr]; rfl, by simp [hacc]⟩
  case h_2 hspace =>
    left
    exact ⟨_, by rw [targetOf_of_space_raw _ hspace, elementAt_of_inRange h, Option.map_some]⟩
  case h_3 => exact h.elim

/-- What an operation `i` can make of `s` (R150, R151, R154): one case per way it can end. -/
inductive Effect (i : Instr) (s : State) : State → Prop
  /-- A command of a running core, by its constructor or by its word (R154). -/
  | command (hresp : writesResp i = true) (hj : isCommand (carried i) = true)
      (hrun : s.halted = false) : Effect i s (perform (carried i) s)
  /-- A command or any command word while halted (R322). -/
  | refused (hresp : writesResp i = true) (hhalt : s.halted = true) :
      Effect i s (s.setResp refusedResp)
  /-- An illegal word (R324). -/
  | illegal (hresp : writesResp i = true) (hword : isIllegalWord i = true) (hrun : s.halted = false) :
      Effect i s s.errCmd
  /-- A bus read that reaches a target (R150). -/
  | read (draws : Nat) (addr data : Word) : Effect i s ((s.setDraws draws).reply addr data)
  /-- A bus read that reaches none (R326). -/
  | badRead (addr : Word) (hi : i = .busRd addr) (hbad : ¬ goodRead s addr) :
      Effect i s (s.errBus.reply addr 0)
  /-- A bus write to what cannot be written (R326). -/
  | badWrite (addr data : Word) (hi : i = .busWr addr data) (hbad : ¬ goodWrite s addr) :
      Effect i s s.errBus
  /-- A write to `STATUS` or to a read-write register while halted (R322). -/
  | ignored (hhalt : s.halted = true) : Effect i s s
  /-- A write to `STATUS` (R26). -/
  | status (data : Word) (hi : isStatusWrite i = true) :
      Effect i s { s with sticky := clearSticky s.sticky data }
  /-- A write to a read-write register (R49). -/
  | store (off width : Nat) (data : Word) (r : Csr) (hi : i = .busWr (.ofNat 32 off) data)
      (hmem : (off, width) ∈ rwFields s.build) (hacc : r.access = .rw) : Effect i s (csrStore data s r)
  /-- A write of a raw sample (R151). -/
  | raw (addr data : Word) (raw : Memory) (hi : i = .busWr addr data)
      (hspace : spaceOf addr = some .raw) : Effect i s { s with mem := { s.mem with raw := raw } }

/-- A command carries itself (R120). -/
theorem carried_of_isCommand {i : Instr} (h : isCommand i = true) : carried i = i := by
  cases i with
  | busRd | busWr => exact nomatch h
  | _ => rfl

/-- A command writes `RESP` (R25). -/
theorem writesResp_of_isCommand {i : Instr} (h : isCommand i = true) : writesResp i = true := by
  cases i with
  | busRd | busWr => exact nomatch h
  | _ => rfl

/-- What a command offered as such can do, `SYS.RESET` apart (R154). -/
theorem command_effect {i : Instr} {s : State} (hi : isCommand i = true) :
    Effect i s (command (perform i) s) := by
  have hresp := writesResp_of_isCommand hi
  cases hh : s.halted with
  | true =>
    rw [Machine.command, if_pos hh]
    exact .refused hresp hh
  | false =>
    have h := Effect.command hresp (by rwa [carried_of_isCommand hi]) hh
    rw [command_running _ hh]
    rwa [carried_of_isCommand hi] at h

/-- What a bus read can do (R150). -/
theorem busRdRule_effect (addr : Word) (s : State) : Effect (.busRd addr) s (busRdRule addr s) := by
  unfold busRdRule
  cases ht : targetOf s.build addr with
  | some t => exact .read _ addr _
  | none =>
    refine .badRead addr rfl (fun hgood => ?_)
    obtain ⟨t, hsome⟩ := targetOf_of_goodRead hgood
    exact nomatch ht.symm.trans hsome

/-- What a write of a command word can do, `SYS.RESET`'s apart (R154). -/
theorem cmdWrite_effect {w : Word} {s : State} (hreset : carried (.busWr cmdAddr w) ≠ .sysReset) :
    Effect (.busWr cmdAddr w) s (cmdWrite w s) := by
  have hcarried {j : Instr} (hj : decodeCommand w = .ok j) : carried (.busWr cmdAddr w) = j := by
    simp [carried, BusOp.instr, decode, hj]
  have hword : w ≠ sysResetWord := by
    rintro rfl
    exact hreset (hcarried (by decide))
  unfold cmdWrite
  cases hh : s.halted with
  | true =>
    rw [if_pos ⟨rfl, hword⟩]
    exact .refused rfl hh
  | false =>
    rw [if_neg (fun h => nomatch h.1)]
    cases hd : decodeCommand w with
    | error e => exact .illegal rfl (isIllegalWord_of_decode hd) hh
    | ok j =>
      have h := Effect.command (i := .busWr cmdAddr w) (s := s) rfl
        (by rw [hcarried hd]; exact isCommand_of_decode hd) hh
      rwa [hcarried hd] at h

/-- What a bus write can do, that of `SYS.RESET`'s word apart (R151). -/
theorem busWrRule_effect {addr data : Word} {s : State}
    (hreset : carried (.busWr addr data) ≠ .sysReset) :
    Effect (.busWr addr data) s (busWrRule addr data s) := by
  have hbad (h : ∀ t, targetOf s.build addr = some t →
      (∀ i, t ≠ .raw i) ∧ ∀ r, t = .csr r → r.access = .ro) : ¬ goodWrite s addr := by
    intro hgood
    rcases targetOf_of_goodWrite hgood with ⟨i, ht⟩ | ⟨r, ht, hacc⟩
    · exact (h _ ht).1 i rfl
    · exact hacc ((h _ ht).2 r rfl)
  have hself {off : Nat} (h : addr.toNat = off) : addr = .ofNat 32 off := by
    rw [← h, BitVec.ofNat_toNat, BitVec.setWidth_eq]
  unfold busWrRule
  rcases ht : targetOf s.build addr with _ | (r | i | i | i | i)
  case some.raw => exact .raw addr data _ rfl (spaceOf_of_targetOf_raw ht)
  case some.csr =>
    obtain ⟨hwo, hw1c, hrw⟩ := csrAt_access (csrAt_of_targetOf ht)
    simp only [writeCsr]
    cases hacc : r.access with
    | ro =>
      refine .badWrite addr data rfl (hbad fun t h => ?_)
      obtain rfl := Option.some.inj (ht.symm.trans h)
      exact ⟨nofun, fun r' hr' => by cases hr'; exact hacc⟩
    | wo =>
      obtain rfl : addr = cmdAddr := hself (hwo hacc)
      exact cmdWrite_effect hreset
    | w1c =>
      cases hh : s.halted with
      | true => exact .ignored hh
      | false => exact .status data (beq_iff_eq.2 (hself (hw1c hacc)))
    | rw =>
      obtain ⟨width, hmem⟩ := hrw hacc
      cases hh : s.halted with
      | true => exact .ignored hh
      | false => exact .store _ width data r (by rw [← hself rfl]) hmem hacc
  all_goals
    refine .badWrite addr data rfl (hbad fun t h => ?_)
    have h := ht.symm.trans h
    cases h
  all_goals exact ⟨nofun, nofun⟩

/-- Every operation that is no reset completes in one of these ways (R150, R151, R154). -/
theorem exec_effect {i : Instr} {s : State} (hreset : carried i ≠ .sysReset) :
    ∃ t, exec i s = .next t ∧ Effect i s t := by
  cases hi : isCommand i with
  | true =>
    refine ⟨_, exec_eq_command hi ?_ s, command_effect hi⟩
    rintro rfl
    exact hreset rfl
  | false =>
    cases i with
    | busRd addr => exact ⟨_, rfl, busRdRule_effect addr s⟩
    | busWr addr data => exact ⟨_, rfl, busWrRule_effect hreset⟩
    | _ => exact nomatch hi

/-! ## What the producer and the consumer of the ring write (R260) -/

/-- Of the ring's registers `t` differs from `s` in the producer's alone; it may clear `REC_DONE` and
raise faults, and does not the reverse (R260, R270, R321). -/
structure ProducerOnly (s t : State) : Prop where
  ring : t.ring = { s.ring with
    fill := t.ring.fill, wpos := t.ring.wpos, tail := t.ring.tail, count := t.ring.count
    isTriggered := t.ring.isTriggered, trigIndex := t.ring.trigIndex
    finalIndex := t.ring.finalIndex, lastEnq := t.ring.lastEnq
    gatedReading := t.ring.gatedReading, recDone := t.ring.recDone }
  recDone : t.ring.recDone = true → s.ring.recDone = true
  fifoOvf : s.fault.fifoOvf = true → t.fault.fifoOvf = true
  lifetime : s.fault.lifetime = true → t.fault.lifetime = true

theorem ProducerOnly.refl (s : State) : ProducerOnly s s := ⟨rfl, id, id, id⟩

theorem ProducerOnly.trans {s t u : State} (h : ProducerOnly s t) (k : ProducerOnly t u) :
    ProducerOnly s u where
  ring := by rw [k.ring, h.ring]
  recDone := h.recDone ∘ k.recDone
  fifoOvf := k.fifoOvf ∘ h.fifoOvf
  lifetime := k.lifetime ∘ h.lifetime

/-- What `ProducerOnly` says of each register (R260). -/
theorem ProducerOnly.fields {s t : State} (h : ProducerOnly s t) :
    t.ring.mode = s.ring.mode ∧ t.ring.head = s.ring.head ∧ t.ring.rdActive = s.ring.rdActive ∧
      t.ring.gnToken = s.ring.gnToken ∧ t.ring.pretrigSlots = s.ring.pretrigSlots ∧
      t.ring.minSlots = s.ring.minSlots ∧ t.ring.bufferDelta = s.ring.bufferDelta ∧
      t.ring.maxReadLead = s.ring.maxReadLead := by
  rw [h.ring]
  simp

theorem push_producerOnly (t : Word) (s : State) : ProducerOnly s (push t s) := by
  unfold push
  split
  · exact ⟨rfl, id, fun _ => rfl, id⟩
  · exact ⟨rfl, id, id, id⟩

theorem enqueueSlot_producerOnly (j : Nat) (s : State) : ProducerOnly s (enqueueSlot j s) :=
  (push_producerOnly _ s).trans ⟨rfl, id, id, id⟩

theorem backfill_producerOnly (n j : Nat) (s : State) : ProducerOnly s (backfill n j s) := by
  induction n generalizing j s with
  | zero => exact .refl s
  | succ n ih => exact (enqueueSlot_producerOnly j s).trans (ih _ _)

theorem onTrigger_producerOnly (s : State) : ProducerOnly s (onTrigger s) := by
  have hstart : ProducerOnly s (if s.ring.mode = .triggered then push startToken s else s) := by
    split
    · exact push_producerOnly _ _
    · exact .refl s
  unfold onTrigger
  split
  · exact ⟨rfl, id, id, id⟩
  · exact hstart.trans ((backfill_producerOnly _ _ _).trans ⟨rfl, id, id, id⟩)

theorem advanceFill_producerOnly (s : State) : ProducerOnly s (advanceFill s) := by
  by_cases h : s.ring.fill.toNat < 2 ^ 31 - 1
  · rw [advanceFill_next h]
    exact ⟨rfl, id, id, id⟩
  · rw [advanceFill_last h]
    exact ⟨rfl, id, id, fun _ => rfl⟩

theorem endSequence_producerOnly (s : State) : ProducerOnly s (endSequence s) :=
  (push_producerOnly _ s).trans ⟨rfl, id, id, id⟩

theorem closeGate_producerOnly (s : State) : ProducerOnly s (closeGate s) := ⟨rfl, id, id, id⟩

theorem slotWhileTriggered_producerOnly (c : Nat) (s : State) :
    ProducerOnly s (slotWhileTriggered c s) := by
  unfold slotWhileTriggered
  simp only
  split
  · refine (enqueueSlot_producerOnly c s).trans ?_
    split
    · refine (endSequence_producerOnly _).trans ?_
      split
      · exact closeGate_producerOnly _
      · exact .refl _
    · exact .refl _
  · exact .refl s

theorem closeFullBatch_producerOnly (s : State) : ProducerOnly s (closeFullBatch s) := by
  unfold closeFullBatch
  split
  · exact (endSequence_producerOnly _).trans (closeGate_producerOnly _)
  · exact .refl s

theorem onSlotFull_producerOnly (s : State) : ProducerOnly s (onSlotFull s) := by
  unfold onSlotFull
  refine (advanceFill_producerOnly s).trans ?_
  simp only
  split
  · exact enqueueSlot_producerOnly _ _
  · exact (slotWhileTriggered_producerOnly _ _).trans (closeFullBatch_producerOnly _)

theorem appendSample_producerOnly (x : Half) (s : State) : ProducerOnly s (appendSample x s) := by
  have hstore : ProducerOnly s (storeSample x s) := ⟨rfl, id, id, id⟩
  unfold appendSample
  simp only
  split
  · exact hstore.trans (onSlotFull_producerOnly _)
  · exact hstore

theorem appendSamples_producerOnly (xs : List Half) (s : State) :
    ProducerOnly s (appendSamples xs s) := by
  induction xs generalizing s with
  | nil => exact .refl s
  | cons x xs ih =>
    unfold appendSamples
    split
    · exact .refl s
    · exact (appendSample_producerOnly x s).trans (ih _)

/-- `RingAppend` is the producer's (R260, R270). -/
theorem ringAppend_producerOnly (xs : List Half) (s : State) :
    ProducerOnly s (ringAppend xs s) := by
  have htake : ProducerOnly s { s with trigFlag := false } := ⟨rfl, id, id, id⟩
  have hopen : ProducerOnly s { s with
      trigFlag := false, ring := { s.ring with recDone := false, gatedReading := false } } :=
    ⟨rfl, nofun, id, id⟩
  unfold ringAppend
  simp only
  split
  · split
    · exact hopen.trans ((push_producerOnly _ _).trans (appendSamples_producerOnly _ _))
    · exact htake
  · split
    · exact htake.trans ((onTrigger_producerOnly _).trans (appendSamples_producerOnly _ _))
    · exact htake.trans (appendSamples_producerOnly _ _)

/-- A hand-over outside `PROC = RING` moves nothing of the ring (R196). -/
theorem handOver_of_ne_ring (xs : List Half) {s : State} (h : s.acq.proc ≠ .ring) :
    ∃ es, handOver xs s = { s with env := { s.env with trace := s.env.trace ++ es } } := by
  unfold handOver
  cases hp : s.acq.proc with
  | none => exact ⟨[], by simp⟩
  | ring => exact absurd hp h
  | usb => exact ⟨_, rfl⟩

/-- A hand-over with `PROC = RING` is the producer's (R196, R260). -/
theorem handOver_of_ring (xs : List Half) {s : State} (h : s.acq.proc = .ring) :
    handOver xs s = ringAppend xs s := by
  simp only [handOver, h]

/-- `s` with the Half-Frame `xs` published and an overload reported or not; `env` is what the reads of
`RAW` and the report leave of the surroundings (R191, R193, R195). -/
def State.afterPublication (s : State) (xs : List Half) (ovl : Bool) (env : Env) : State :=
  { s with
    sticky := { s.sticky with ovl := s.sticky.ovl || ovl }
    acq := { s.acq with gen := s.acq.gen + 1, hfReady := true }
    mem := { s.mem with hf := s.mem.hf.writeRun 0 xs }
    env := env }

section
variable (s : State) (xs : List Half) (ovl : Bool) (env : Env)

@[simp] theorem State.afterPublication_build :
    (s.afterPublication xs ovl env).build = s.build := rfl
@[simp] theorem State.afterPublication_fault :
    (s.afterPublication xs ovl env).fault = s.fault := rfl
@[simp] theorem State.afterPublication_sticky :
    (s.afterPublication xs ovl env).sticky = { s.sticky with ovl := s.sticky.ovl || ovl } := rfl
@[simp] theorem State.afterPublication_trigFlag :
    (s.afterPublication xs ovl env).trigFlag = s.trigFlag := rfl
@[simp] theorem State.afterPublication_acq :
    (s.afterPublication xs ovl env).acq = { s.acq with gen := s.acq.gen + 1, hfReady := true } := rfl
@[simp] theorem State.afterPublication_gain :
    (s.afterPublication xs ovl env).gain = s.gain := rfl
@[simp] theorem State.afterPublication_det : (s.afterPublication xs ovl env).det = s.det := rfl
@[simp] theorem State.afterPublication_ring :
    (s.afterPublication xs ovl env).ring = s.ring := rfl
@[simp] theorem State.afterPublication_mem :
    (s.afterPublication xs ovl env).mem = { s.mem with hf := s.mem.hf.writeRun 0 xs } := rfl

end

/-- `HF.READY` publishes, reports an overload and hands over (R191). -/
theorem hfReadyRule_eq (half : BitVec 1) (offset : Half) (shift : BitVec 4) (s : State) :
    ∃ xs ovl env, hfReadyRule half offset shift s =
      (handOver xs (s.afterPublication xs ovl env)).setResp 0 := by
  unfold hfReadyRule
  simp only [reportOverload_eq, publish_eq]
  exact ⟨_, _, _, rfl⟩

/-- `Push` writes the FIFO, its tail and count, and `FIFO_OVF` (R268). -/
theorem push_frame (t : Word) (s : State) :
    push t s = { s with
      fault := { s.fault with fifoOvf := (push t s).fault.fifoOvf }
      mem := { s.mem with fifo := (push t s).mem.fifo }
      ring := { s.ring with tail := (push t s).ring.tail, count := (push t s).ring.count } } := by
  unfold push
  split <;> rfl

/-- `RING.RESET` clears the ring's registers and `TRIG_FLAG`; it raises no fault in a legal build, whose
empty FIFO has room for `START` (R266). -/
theorem ringResetRule_eq (mode : Mode) (s : State) :
    ∃ (ovf : Bool) (fifo : Memory) (tail count : Word), ringResetRule mode s = { s with
        resp := 0
        fault := { s.fault with fifoOvf := ovf }
        trigFlag := false
        mem := { s.mem with fifo := fifo }
        ring := { s.ring with
          mode := mode, fill := 0, wpos := 0, head := 0, tail := tail, count := count
          isTriggered := false, trigIndex := 0, finalIndex := 0, lastEnq := 0xFFFFFFFF
          gatedReading := false, recDone := false, rdActive := false, gnToken := 0xFFFFFFFF } } ∧
      (s.fault.fifoOvf = true → ovf = true) ∧ (s.build.wf = true → ovf = s.fault.fifoOvf) := by
  unfold ringResetRule
  simp only
  split
  · rw [push_frame]
    refine ⟨_, _, _, _, rfl,
      fun hovf => (push_producerOnly startToken _).fifoOvf hovf, fun hb => ?_⟩
    have hroom : (0 : Word).toNat ≠ s.build.fc := by
      obtain ⟨-, -, -, -, -, ⟨hfc, -⟩, -⟩ := Build.bounds hb
      simp
      omega
    rw [push_room _ hroom]
  · exact ⟨_, _, _, _, rfl, id, fun _ => rfl⟩

/-- `RING.GETNEXT` writes the consumer's registers, `RESP` and the draw counter alone (R260, R280). -/
theorem ringGetnextRule_eq (s : State) :
    ∃ resp draws head count rdActive gnToken, ringGetnextRule s = { s with
      resp := resp
      env := { s.env with draws := draws }
      ring := { s.ring with
        head := head, count := count, rdActive := rdActive, gnToken := gnToken } } := by
  unfold ringGetnextRule
  split
  · exact ⟨_, _, _, _, _, _, rfl⟩
  · rw [getNextLoop_frame]
    exact ⟨_, _, _, _, _, _, rfl⟩

/-- Storing a range and sending the command writes `GAIN_STATE` and the trace alone (R171). -/
theorem gainEmit_setRange_eq (s : State) (r : Nat) :
    gainEmit (setRange s r) = { s with
      gain := { s.gain with range := .ofNat 8 r }, env := (gainEmit (setRange s r)).env } := rfl

/-- So does selecting a range, which answers it (R172, R173). -/
theorem selectRange_eq (s : State) (r : Nat) (dis : Bool) :
    selectRange s r dis = { s with
      resp := (selectRange s r dis).resp
      gain := { s.gain with range := .ofNat 8 r, dis := dis }
      env := (selectRange s r dis).env } := rfl

/-- A command of the gain controller that may move the gain writes `GAIN_STATE`, `RESP` and the trace
alone (R172 to R175). -/
theorem perform_setsGain_eq {j : Instr} (hj : setsGain j = true) (s : State) :
    ∃ resp range dis env, perform j s = { s with
      resp := resp, gain := { s.gain with range := range, dis := dis }, env := env } := by
  cases j with
  | gainSet range dis => exact ⟨_, _, _, _, selectRange_eq s (clampRange s range.toNat) dis⟩
  | gainSetdb db dis => exact ⟨_, _, _, _, selectRange_eq s (nearestRange s db) dis⟩
  | gainUp =>
    simp only [perform, gainUpRule]
    split
    · rw [gainEmit_setRange_eq]
      exact ⟨_, _, _, _, rfl⟩
    · exact ⟨0, s.gain.range, s.gain.dis, s.env, rfl⟩
  | gainDown =>
    simp only [perform, gainDownRule]
    split
    · rw [gainEmit_setRange_eq]
      exact ⟨_, _, _, _, rfl⟩
    · exact ⟨0, s.gain.range, s.gain.dis, s.env, rfl⟩
  | _ => exact nomatch hj

/-! ## Each unit writes its own (R22, R91, R170, R220, R260)

One lemma per way an operation can end, and per command. Its frame says which fields are written; for
each of them the rule of O41 names the operation, and the others are left alone. -/

/-- What O41 says of an operation `i` that takes `s` to `t`. -/
def ByRule (i : Instr) (s t : State) : Prop :=
  FlagsByRule i s t ∧ RegistersByRule i s t ∧ MemoriesByRule i s t

/- A flag left alone, cleared or set, as the rules of R22 see it. -/

section
variable (may flag other : Bool)

@[simp] theorem setOnlyBy_self : setOnlyBy may flag flag := fun _ h => h
@[simp] theorem setOnlyBy_may : setOnlyBy true flag other := nofun
@[simp] theorem setOnlyBy_cleared : setOnlyBy may flag false := nofun
@[simp] theorem setOnlyBy_and : setOnlyBy may flag (flag && other) :=
  fun _ h => (Bool.and_eq_true_iff.1 h).1
@[simp] theorem clearedOnlyBy_self : clearedOnlyBy may flag flag := fun _ h => h
@[simp] theorem clearedOnlyBy_may : clearedOnlyBy true flag other := nofun
@[simp] theorem clearedOnlyBy_or : clearedOnlyBy may flag (flag || other) :=
  fun _ h => Bool.or_eq_true_iff.2 (.inl h)
@[simp] theorem clearedOnlyBy_set : clearedOnlyBy may flag true := fun _ _ => rfl

end

@[simp] theorem sameConfig_refl (s : State) : sameConfig s s := by simp [sameConfig]

/-- Whoever writes `RESP` may write it. -/
theorem byRule_setResp {i : Instr} (hresp : writesResp i = true) (s : State) (v : Word) :
    ByRule i s (s.setResp v) := by
  refine ⟨?_, ?_, ?_⟩ <;> constructor <;> simp [hresp, sameConfig]

/-- An illegal word raises `ERR_CMD` (R128). -/
theorem byRule_errCmd {i : Instr} {s : State} (hresp : writesResp i = true)
    (hword : isIllegalWord i = true) (hrun : s.halted = false) : ByRule i s s.errCmd := by
  refine ⟨?_, ?_, ?_⟩ <;> constructor <;> simp [hresp, hword, hrun, sameConfig]

/-- A detector command out of place raises `ERR_STATE` (R325). -/
theorem byRule_errState {i : Instr} {s : State} (hresp : writesResp i = true)
    (hdet : isDetector (carried i) = true) (hrun : s.halted = false) : ByRule i s s.errState := by
  refine ⟨?_, ?_, ?_⟩ <;> constructor <;> simp [hresp, hdet, hrun, sameConfig]

/-- A bus read writes nothing but its reply (R150). -/
theorem byRule_read (i : Instr) (s : State) (draws : Nat) (addr data : Word) :
    ByRule i s ((s.setDraws draws).reply addr data) := by
  refine ⟨?_, ?_, ?_⟩ <;> constructor <;> simp [sameConfig]

/-- A bad read sets `ERR_BUS` (R326). -/
theorem byRule_badRead {addr : Word} {s : State} (hbad : ¬ goodRead s addr) :
    ByRule (.busRd addr) s (s.errBus.reply addr 0) := by
  refine ⟨?_, ?_, ?_⟩ <;> constructor <;> simp [hbad, sameConfig]

/-- A bad write sets `ERR_BUS` (R326). -/
theorem byRule_badWrite {addr data : Word} {s : State} (hbad : ¬ goodWrite s addr) :
    ByRule (.busWr addr data) s s.errBus := by
  refine ⟨?_, ?_, ?_⟩ <;> constructor <;> simp [hbad, sameConfig]

/-- What changes nothing. -/
theorem byRule_refl (i : Instr) (s : State) : ByRule i s s := by
  refine ⟨?_, ?_, ?_⟩ <;> constructor <;> simp

/-- A write to `STATUS` clears sticky bits (R26). -/
theorem byRule_status {i : Instr} (hi : isStatusWrite i = true) (s : State) (data : Word) :
    ByRule i s { s with sticky := clearSticky s.sticky data } := by
  refine ⟨?_, ?_, ?_⟩ <;> constructor <;> simp [hi, clearSticky, sameConfig]
  exact fun _ _ _ h _ => h

/-- A write of a raw sample (R91, R151). -/
theorem byRule_raw {addr : Word} (data : Word) (s : State) (raw : Memory)
    (hspace : spaceOf addr = some .raw) :
    ByRule (.busWr addr data) s { s with mem := { s.mem with raw := raw } } := by
  refine ⟨?_, ?_, ?_⟩ <;> constructor <;> simp [hspace, sameConfig]

/-- A read-write register's store writes configuration alone (R40 to R45). -/
theorem csrStore_frame (data : Word) (s : State) {r : Csr} :
    csrStore data s r = { s with
      acq := { s.acq with
        sclCorr := (csrStore data s r).acq.sclCorr, ovlThr := (csrStore data s r).acq.ovlThr }
      gain := { s.gain with
        min := (csrStore data s r).gain.min, max := (csrStore data s r).gain.max }
      det := { s.det with
        trigMaxCnt := (csrStore data s r).det.trigMaxCnt, thr := (csrStore data s r).det.thr }
      ring := { s.ring with
        pretrigSlots := (csrStore data s r).ring.pretrigSlots
        minSlots := (csrStore data s r).ring.minSlots
        bufferDelta := (csrStore data s r).ring.bufferDelta
        maxReadLead := (csrStore data s r).ring.maxReadLead } } := by
  cases r <;> rfl

/-- A write to a read-write register (R49). -/
theorem byRule_store {off width : Nat} (data : Word) {s : State} (r : Csr)
    (hmem : (off, width) ∈ rwFields s.build) :
    ByRule (.busWr (.ofNat 32 off) data) s (csrStore data s r) := by
  rw [csrStore_frame]
  refine ⟨?_, ?_, ?_⟩ <;> constructor
  case refine_2.config => exact fun h => absurd rfl (h off width data hmem)
  all_goals simp

/- The commands of a running core, by their constructors or by their words (R120). -/

section
variable {i : Instr} {s : State} (hresp : writesResp i = true)
include hresp

/-- The gain controller's commands that may move the gain write `GAIN_STATE` (R31, R170). -/
theorem byRule_setsGain (hgain : setsGain (carried i) = true) :
    ByRule i s (perform (carried i) s) := by
  obtain ⟨resp, range, dis, env, heq⟩ := perform_setsGain_eq hgain s
  rw [heq]
  refine ⟨?_, ?_, ?_⟩ <;> constructor <;> simp [hgain, hresp, sameConfig]

/-- `PROC.SET` writes `PROC` (R30, R190). -/
theorem byRule_procSet {sel : Proc} (hi : carried i = .procSet sel) :
    ByRule i s (procSetRule sel s) := by
  have hproc : setsProc (carried i) = true := by rw [hi]; rfl
  refine ⟨?_, ?_, ?_⟩ <;> constructor <;> simp [procSetRule, hproc, hresp, sameConfig]

/-- `DET.BEGIN` takes `HF_READY` and opens an evaluation (R221). -/
theorem byRule_detBegin (hi : carried i = .detBegin) (hrun : s.halted = false) :
    ByRule i s (detBeginRule s) := by
  unfold detBeginRule
  split
  · exact byRule_errState hresp (by rw [hi]; rfl) hrun
  · split
    · refine ⟨?_, ?_, ?_⟩ <;> constructor <;> simp [hi, hresp, sameConfig]
    · exact byRule_setResp hresp s 0

/-- `DET.WIN` writes the match result, `WIN` and `ACC` (R222). -/
theorem byRule_detWin (hi : carried i = .detWin) (hrun : s.halted = false) :
    ByRule i s (detWinRule s) := by
  unfold detWinRule
  split
  · exact byRule_errState hresp (by rw [hi]; rfl) hrun
  · rw [judgeWindow_frame]
    refine ⟨?_, ?_, ?_⟩ <;> constructor <;> simp [hi, hresp, sameConfig]

/-- `DET.COMMIT` closes the evaluation and may set `TRIG_FLAG` (R223). -/
theorem byRule_detCommit (hi : carried i = .detCommit) (hrun : s.halted = false) :
    ByRule i s (detCommitRule s) := by
  have hclosed (v : Word) :
      ByRule i s ({ s with det := { s.det with busy := false } }.setResp v) := by
    refine ⟨?_, ?_, ?_⟩ <;> constructor <;> simp [hi, hresp, sameConfig]
  unfold detCommitRule
  split
  · exact byRule_errState hresp (by rw [hi]; rfl) hrun
  · simp only
    split
    · split
      · refine ⟨?_, ?_, ?_⟩ <;> constructor <;> simp [hi, hresp, sameConfig]
      · exact hclosed 2
    · exact hclosed 0

/-- `RING.RESET` starts a session (R266). -/
theorem byRule_ringReset {mode : Mode} (hi : carried i = .ringReset mode) :
    ByRule i s (ringResetRule mode s) := by
  have hreset : isRingReset (carried i) = true := by rw [hi]; rfl
  obtain ⟨ovf, fifo, tail, count, heq, hsticky, hlegal⟩ := ringResetRule_eq mode s
  rw [heq]
  refine ⟨?_, ?_, ?_⟩ <;> constructor
  case refine_1.fifoOvf => exact ⟨fun hb => by simp [hlegal hb], fun _ => hsticky⟩
  all_goals simp [hreset, hresp, sameConfig]

/-- `RING.GETNEXT` writes the consumer's registers (R260, R280). -/
theorem byRule_ringGetnext (hi : carried i = .ringGetnext) : ByRule i s (ringGetnextRule s) := by
  obtain ⟨resp, draws, head, count, rdActive, gnToken, heq⟩ := ringGetnextRule_eq s
  rw [heq]
  refine ⟨?_, ?_, ?_⟩ <;> constructor <;> simp [hi, hresp, sameConfig]

/-- `RING.RECDONE` sets `REC_DONE` (R281). -/
theorem byRule_ringRecdone (hi : carried i = .ringRecdone) : ByRule i s (ringRecdoneRule s) := by
  unfold ringRecdoneRule
  split
  · refine ⟨?_, ?_, ?_⟩ <;> constructor <;> simp [hi, hresp, sameConfig]
  · exact byRule_setResp hresp s 0

/-- A publication handed over to the ring moves the producer and takes `TRIG_FLAG` (R196, R270). -/
theorem byRule_publication_ring {t : State} {xs : List Half} {ovl : Bool} {env : Env}
    (hpub : isPublication (carried i) = true) (hproc : s.acq.proc = .ring)
    (hring : RingOnly { s.afterPublication xs ovl env with trigFlag := false } t)
    (hproducer : ProducerOnly (s.afterPublication xs ovl env) t) : ByRule i s (t.setResp 0) := by
  obtain ⟨hbuild, -, hsticky, htrig, hacq, hgain, hdet, hraw, -, -⟩ := hring.fields
  obtain ⟨hmode, hhead, hrdActive, hgnToken, hpretrig, hmin, hdelta, hlead⟩ := hproducer.fields
  have happends : appends i s = true := by simp [appends, hpub, hproc]
  refine ⟨?_, ?_, ?_⟩ <;> constructor
  case refine_1.recDone => exact ⟨fun _ => hproducer.recDone, by simp [happends]⟩
  case refine_1.fifoOvf => exact ⟨by simp [happends], fun _ => hproducer.fifoOvf⟩
  case refine_1.lifetime => exact ⟨by simp [happends], fun _ => hproducer.lifetime⟩
  all_goals simp [happends, hpub, hbuild, hsticky, htrig, hacq, hgain, hdet, hraw, hmode, hhead,
    hrdActive, hgnToken, hpretrig, hmin, hdelta, hlead, hresp, sameConfig]

/-- `HF.READY` publishes, and moves the ring's producer while `RING` is registered (R191, R196). -/
theorem byRule_hfReady {half : BitVec 1} {offset : Half} {shift : BitVec 4}
    (hi : carried i = .hfReady half offset shift) : ByRule i s (hfReadyRule half offset shift s) := by
  have hpub : isPublication (carried i) = true := by rw [hi]; rfl
  obtain ⟨xs, ovl, env, heq⟩ := hfReadyRule_eq half offset shift s
  rw [heq]
  by_cases hproc : s.acq.proc = .ring
  · rw [handOver_of_ring xs (s := s.afterPublication xs ovl env) hproc]
    exact byRule_publication_ring hresp hpub hproc (ringAppend_ringOnly xs _)
      (ringAppend_producerOnly xs _)
  · obtain ⟨es, hand⟩ := handOver_of_ne_ring xs (s := s.afterPublication xs ovl env) hproc
    rw [hand]
    refine ⟨?_, ?_, ?_⟩ <;> constructor <;> simp [hpub, hresp, sameConfig]

/-- Every command of a running core but `SYS.RESET` (R154). -/
theorem byRule_perform (hj : isCommand (carried i) = true) (hreset : carried i ≠ .sysReset)
    (hrun : s.halted = false) : ByRule i s (perform (carried i) s) := by
  cases hi : carried i with
  | sysReset => exact absurd hi hreset
  | busRd | busWr =>
    rw [hi] at hj
    exact nomatch hj
  | gainSet | gainSetdb | gainUp | gainDown =>
    rw [← hi]
    exact byRule_setsGain hresp (by rw [hi]; rfl)
  | nop | gainGetdb | gainGetshift | gainForrange | gainShiftfor => exact byRule_setResp hresp s _
  | procSet sel => exact byRule_procSet hresp hi
  | hfReady half offset shift => exact byRule_hfReady hresp hi
  | detBegin => exact byRule_detBegin hresp hi hrun
  | detWin => exact byRule_detWin hresp hi hrun
  | detCommit => exact byRule_detCommit hresp hi hrun
  | ringReset mode => exact byRule_ringReset hresp hi
  | ringGetnext => exact byRule_ringGetnext hresp hi
  | ringRecdone => exact byRule_ringRecdone hresp hi

end

/-- Whatever an operation that is no reset can do keeps the rules of O41. -/
theorem Effect.byRule {i : Instr} {s t : State} (hreset : carried i ≠ .sysReset)
    (h : Effect i s t) : ByRule i s t := by
  cases h with
  | command hresp hj hrun => exact byRule_perform hresp hj hreset hrun
  | refused hresp _ => exact byRule_setResp hresp s _
  | illegal hresp hword hrun => exact byRule_errCmd hresp hword hrun
  | read draws addr data => exact byRule_read i s draws addr data
  | badRead addr hi hbad => exact hi ▸ byRule_badRead hbad
  | badWrite addr data hi hbad => exact hi ▸ byRule_badWrite hbad
  | ignored _ => exact byRule_refl i s
  | status data hi => exact byRule_status hi s data
  | store off width data r hi hmem _ => exact hi ▸ byRule_store data r hmem
  | raw addr data raw hi hspace => exact hi ▸ byRule_raw data s raw hspace

/-- Settles O41, by the ways an operation can end. -/
theorem eachUnitWritesItsOwn : Obligations.EachUnitWritesItsOwn := by
  intro i s hreset
  obtain ⟨t, hexec, heffect⟩ := exec_effect hreset
  exact ⟨t, hexec, heffect.byRule hreset⟩

/-- A halted core raises and clears no fault bit but by reset (R322). -/
theorem Effect.fault_of_halted {i : Instr} {s t : State} (hhalt : s.halted = true)
    (h : Effect i s t) : t.fault = s.fault := by
  cases h with
  | command _ _ hrun => exact nomatch hrun.symm.trans hhalt
  | store off width data r _ _ _ => rw [csrStore_frame]
  | _ => rfl

/-- The two bits are all of `FAULT` (R27). -/
theorem FaultReg.eq_of_bits {f g : FaultReg} (hovf : f.fifoOvf = g.fifoOvf)
    (hlife : f.lifetime = g.lifetime) : f = g := by
  cases f
  cases g
  exact FaultReg.mk.injEq .. ▸ ⟨hovf, hlife⟩

/-- Settles O43: by the rules of the fault bits a change of `FAULT` is a bit raised by a call of
`RingAppend`, and a halted core leaves it alone. -/
theorem faultsAreStickyUntilReset : Obligations.FaultsAreStickyUntilReset := by
  intro i s hb hreset
  obtain ⟨t, hexec, heffect⟩ := exec_effect hreset
  obtain ⟨hflags, -, -⟩ := heffect.byRule hreset
  obtain ⟨hovfSet, hovfKept⟩ := hflags.fifoOvf
  obtain ⟨hlifeSet, hlifeKept⟩ := hflags.lifetime
  refine ⟨t, hexec, hovfKept rfl, hlifeKept rfl, fun hchanged => ⟨?_, ?_⟩⟩
  · cases happends : appends i s with
    | true => exact (Bool.and_eq_true_iff.1 happends).1
    | false =>
      have hovf := Bool.eq_iff_iff.2 ⟨hovfSet hb happends, hovfKept rfl⟩
      have hlife := Bool.eq_iff_iff.2 ⟨hlifeSet happends, hlifeKept rfl⟩
      exact absurd (FaultReg.eq_of_bits hovf hlife) hchanged
  · cases hhalt : s.halted with
    | false => rfl
    | true => exact absurd (heffect.fault_of_halted hhalt) hchanged

end Sys2Proof.Machine

/-!
PROOFS. The statements on memory and on the order of operations: what a step takes from the masters'
offers (O53, O54), what an unchanged `GEN` says of the Half-Frame (O20), and that no step leaves an
element half written (O38).
-/

namespace Sys2Proof.Machine

/-! ## What a step takes from the offers (R95, R327) -/

/-- Who offers: a master with an operation queued, or the reset pin (R340, R360). -/
theorem Env.mem_offers {e : Env} {x : Source} :
    x ∈ e.offers ↔ (∃ a, x = .agent a ∧ e.queue a ≠ []) ∨ (x = .resetPin ∧ e.resetPin = true) := by
  have hagent (a : Agent) : a ∈ [Agent.dma, .acq, .main, .reader] := by cases a <;> decide
  cases x with
  | agent a => cases hp : e.resetPin <;> simpa [Env.offers, hp] using fun _ => hagent a
  | resetPin => cases hp : e.resetPin <;> simp [Env.offers, hp]

/-- A single offer is taken, and no free choice is made (R327). -/
theorem Env.choose_of_single {e : Env} {x : Source} (h : e.offers = [x]) :
    e.choose = (some x, e.turns) := by
  simp only [Env.choose, h]

/-- The chosen master's first operation is performed, its queue advanced (R95). -/
theorem step_of_choose_agent {s : State} {a : Agent} {turns : Nat} {op : BusOp} {rest : List BusOp}
    (hchoose : s.env.choose = (some (.agent a), turns)) (hqueue : s.env.queue a = op :: rest) :
    step s = exec op.instr (s.granted a rest turns) := by
  simp only [step, nextWork, hchoose, hqueue]

/-- The chosen reset pin resets the core, its pulse spent (R360). -/
theorem step_of_choose_resetPin {s : State} {turns : Nat}
    (hchoose : s.env.choose = (some .resetPin, turns)) :
    step s = .next (s.pinTaken turns).resetCore := by
  simp only [step, nextWork, hchoose]

/-- With nothing offered the core holds (log 5). -/
theorem step_of_no_offer {s : State} (h : s.env.offers = []) : step s = .next s := by
  simp only [step, nextWork, Env.choose, h]

/-- A step of the only offer performs the operation it decodes to (R95, R120). -/
theorem step_of_single_offer {s : State} {a : Agent} {op : BusOp} {rest : List BusOp} {i : Instr}
    (hoffers : s.env.offers = [.agent a]) (hqueue : s.env.queue a = op :: rest)
    (hdecode : decode op = .ok i) :
    step s = exec i { s with env := { s.env.setQueue a rest with grant := a } } := by
  rw [step_of_choose_agent (Env.choose_of_single hoffers) hqueue, BusOp.instr_of_decode hdecode]
  cases a <;> rfl

/-- A word of the opcode table decodes as the write of it to `CMD` (R120, R130). -/
theorem decode_of_decodeTableWord {nbits w : Nat} {i : Instr} (h : decodeTableWord nbits w = some i) :
    decode (.wr cmdAddr (.ofNat 32 (w % 2 ^ nbits))) = .ok i := by
  unfold decodeTableWord at h
  split at h
  · split at h
    next hd => rw [← Option.some.inj h]; exact hd
    next => exact nomatch h
  · exact nomatch h

/-- Settles O53: a single offer leaves no choice, no offer nothing to do, and a word of the table is
offered alone. -/
theorem stepRunsTheOfferedOperation : Obligations.StepRunsTheOfferedOperation := by
  refine ⟨fun s a op rest i => step_of_single_offer, fun s => step_of_no_offer, fun s w i h => ?_⟩
  exact step_of_single_offer (s := s.withFetchWord 32 w) (a := .main) (rest := []) rfl rfl
    (decode_of_decodeTableWord h)

/-- Settles O54: the source the free value picks is one that offers, a master with a first operation or
the pin. -/
theorem stepPerformsOneOffer : Obligations.StepPerformsOneOffer := by
  intro s hoffers picked turns
  have hchoose : s.env.choose = (picked, turns) := Env.choose_eq hoffers
  have hlt : Config.arbiter s.env.turns % s.env.offers.length < s.env.offers.length :=
    Nat.mod_lt _ (List.length_pos_iff.2 hoffers)
  have hpicked : picked = some s.env.offers[Config.arbiter s.env.turns % s.env.offers.length] :=
    List.getElem?_eq_getElem hlt
  rw [hpicked] at hchoose ⊢
  rcases Env.mem_offers.1 (List.getElem_mem hlt) with ⟨a, ha, hqueue⟩ | ⟨hpin, hset⟩
  · obtain ⟨op, rest, hq⟩ := List.exists_cons_of_ne_nil hqueue
    rw [ha] at hchoose ⊢
    exact .inr ⟨a, op, rest, rfl, hq, step_of_choose_agent hchoose hq⟩
  · rw [hpin] at hchoose ⊢
    exact .inl ⟨rfl, hset, step_of_choose_resetPin hchoose⟩

/-- All that a step can do: hold, reset, or perform one operation of a master (R95, R360). -/
theorem step_next_cases {s t : State} (h : step s = .next t) :
    t = s ∨ (∃ turns, t = (s.pinTaken turns).resetCore) ∨
      ∃ (a : Agent) (op : BusOp) (rest : List BusOp) (turns : Nat),
        exec op.instr (s.granted a rest turns) = .next t := by
  by_cases hoffers : s.env.offers = []
  · rw [step_of_no_offer hoffers] at h
    exact .inl (Host.Outcome.next.inj h).symm
  · rcases stepPerformsOneOffer s hoffers with ⟨-, -, hstep⟩ | ⟨a, op, rest, -, -, hstep⟩
    · exact .inr (.inl ⟨_, (Host.Outcome.next.inj (hstep.symm.trans h)).symm⟩)
    · exact .inr (.inr ⟨a, op, rest, _, hstep.symm.trans h⟩)

/-! ## Publications along a run (R103, R195) -/

/-- A bus write that carries a command writes the command's word to `CMD` (R120). -/
theorem decodeCommand_of_carried {addr data : Word}
    (h : isCommand (carried (.busWr addr data)) = true) :
    addr = cmdAddr ∧ decodeCommand data = .ok (carried (.busWr addr data)) := by
  by_cases haddr : addr = cmdAddr
  · subst haddr
    refine ⟨rfl, ?_⟩
    cases hd : decodeCommand data with
    | ok j =>
      have hdecode : decode (.wr cmdAddr data) = .ok j := hd
      exact congrArg Except.ok (BusOp.instr_of_decode hdecode).symm
    | error e =>
      have hself : carried (.busWr cmdAddr data) = .busWr cmdAddr data := by
        simp [carried, BusOp.instr, decode, hd]
      rw [hself] at h
      exact nomatch h
  · have hdecode : decode (.wr addr data) = .ok (.busWr addr data) := if_neg haddr
    have hself : carried (.busWr addr data) = .busWr addr data := BusOp.instr_of_decode hdecode
    rw [hself] at h
    exact nomatch h

/-- An operation that carries a command, `SYS.RESET` apart, is that command's rule behind the halted
test, offered as the command or as its word (R120, R154). -/
theorem exec_of_carried {i : Instr} (hcommand : isCommand (carried i) = true)
    (hreset : carried i ≠ .sysReset) (s : State) :
    exec i s = .next (command (perform (carried i)) s) := by
  cases i with
  | busRd addr => exact nomatch hcommand
  | busWr addr data =>
    obtain ⟨rfl, hd⟩ := decodeCommand_of_carried hcommand
    have hword : data ≠ sysResetWord := by
      rintro rfl
      exact hreset (Except.ok.inj (hd.symm.trans (by decide)))
    show Host.Outcome.next (busWrRule cmdAddr data s) = _
    rw [busWrRule_cmd, cmdWrite, hd, Machine.command]
    simp only [hword, ne_eq, not_false_eq_true, and_true]
  | _ => exact exec_eq_command hcommand hreset s

/-- The only publication is `HF.READY`, which is a command and no reset (R191). -/
theorem command_of_isPublication {j : Instr} (h : isPublication j = true) :
    (isCommand j = true ∧ j ≠ .sysReset) ∧
      ∃ half offset shift, j = .hfReady half offset shift := by
  cases j with
  | hfReady half offset shift => exact ⟨⟨rfl, nofun⟩, half, offset, shift, rfl⟩
  | _ => exact nomatch h

/-- `HF.READY` advances `GEN` by one (R191, R195). -/
theorem hfReadyRule_gen (half : BitVec 1) (offset : Half) (shift : BitVec 4) (s : State) :
    (hfReadyRule half offset shift s).acq.gen = s.acq.gen + 1 := by
  obtain ⟨xs, ovl, env, heq⟩ := hfReadyRule_eq half offset shift s
  rw [heq, handOver_frame]
  rfl

/-- The operation performs a publication in state `s`: it asks for one and the core is not halted
(R154, R191). -/
def publishes (i : Instr) (s : State) : Bool := isPublication (carried i) && !s.halted

/-- A publication asked of a halted core is refused (R322). -/
theorem exec_publication_halted {i : Instr} {s : State} (hpub : isPublication (carried i) = true)
    (hhalt : s.halted = true) : exec i s = .next { s with resp := 0xFFFFFFFF } := by
  obtain ⟨⟨hcommand, hreset⟩, -⟩ := command_of_isPublication hpub
  rw [exec_of_carried hcommand hreset, command_halted _ hhalt]

/-- A publication performed advances `GEN` by one (R195). -/
theorem exec_gen_of_publishes {i : Instr} {s t : State} (hpub : publishes i s = true)
    (h : exec i s = .next t) : t.acq.gen = s.acq.gen + 1 := by
  obtain ⟨hasked, hrun⟩ := Bool.and_eq_true_iff.1 hpub
  obtain ⟨⟨hcommand, hreset⟩, half, offset, shift, hi⟩ := command_of_isPublication hasked
  rw [exec_of_carried hcommand hreset, command_running _ (Bool.not_eq_true' _ ▸ hrun), hi] at h
  rw [← Host.Outcome.next.inj h]
  exact hfReadyRule_gen half offset shift s

/-- An operation that neither publishes nor resets leaves `GEN` and the Half-Frame alone (R28, R91). -/
theorem exec_kept_of_not_publishes {i : Instr} {s t : State} (hreset : carried i ≠ .sysReset)
    (hpub : publishes i s = false) (h : exec i s = .next t) :
    t.acq.gen = s.acq.gen ∧ t.mem.hf = s.mem.hf := by
  cases hasked : isPublication (carried i) with
  | true =>
    have hhalt : s.halted = true := by simpa [publishes, hasked] using hpub
    rw [exec_publication_halted hasked hhalt] at h
    rw [← Host.Outcome.next.inj h]
    exact ⟨rfl, rfl⟩
  | false =>
    obtain ⟨u, hexec, -, hregs, hmems⟩ := eachUnitWritesItsOwn i s hreset
    obtain rfl := Host.Outcome.next.inj (hexec.symm.trans h)
    exact ⟨hregs.gen hasked, hmems.hf hasked⟩

/-- How many publications a run performs: those asked for that no halted core refused (R195). -/
def performedPublications : List Instr → State → Nat
  | [], _ => 0
  | i :: is, s => (publishes i s).toNat + performedPublications is (runOps [i] s)

/-- The first operation's publication and those of the rest. -/
theorem performedPublications_cons {i : Instr} {s t : State} (is : List Instr)
    (h : exec i s = .next t) :
    performedPublications (i :: is) s = (publishes i s).toNat + performedPublications is t := by
  rw [performedPublications, runOps_cons [] h, runOps_nil]

/-- The publications of a run in two parts. -/
theorem performedPublications_append (is js : List Instr) (s : State) :
    performedPublications (is ++ js) s =
      performedPublications is s + performedPublications js (runOps is s) := by
  induction is generalizing s with
  | nil => exact (Nat.zero_add _).symm
  | cons i is ih =>
    obtain ⟨t, h⟩ := exec_next i s
    rw [List.cons_append, performedPublications_cons _ h, performedPublications_cons _ h,
      runOps_cons _ h, ih, Nat.add_assoc]

/-- No more publications are performed than are asked for. -/
theorem performedPublications_le (is : List Instr) (s : State) :
    performedPublications is s ≤ publications is := by
  induction is generalizing s with
  | nil => exact Nat.zero_le _
  | cons i is ih =>
    have hone : (publishes i s).toNat ≤ if isPublication (carried i) then 1 else 0 := by
      cases hasked : isPublication (carried i) <;> simp [publishes, hasked, Bool.toNat_le]
    have htail := ih (runOps [i] s)
    rw [publications, List.countP_cons, performedPublications]
    exact (Nat.add_comm _ _).trans_le (Nat.add_le_add htail hone)

/-- `GEN` counts the publications performed, modulo `2^32` (R195). -/
theorem runOps_gen {is : List Instr} (hreset : noReset is) (s : State) :
    (runOps is s).acq.gen = s.acq.gen + BitVec.ofNat 32 (performedPublications is s) := by
  induction is generalizing s with
  | nil => exact (BitVec.add_zero _).symm
  | cons i is ih =>
    obtain ⟨hi, his⟩ := List.forall_mem_cons.1 hreset
    obtain ⟨t, h⟩ := exec_next i s
    have hgen : t.acq.gen = s.acq.gen + BitVec.ofNat 32 (publishes i s).toNat := by
      cases hpub : publishes i s with
      | true => exact exec_gen_of_publishes hpub h
      | false => exact (exec_kept_of_not_publishes hi hpub h).1.trans (BitVec.add_zero _).symm
    rw [runOps_cons _ h, performedPublications_cons _ h, ih his, hgen, BitVec.add_assoc,
      BitVec.ofNat_add]

/-- A run that performs no publication leaves the Half-Frame alone (R91). -/
theorem runOps_hf_of_none_performed {is : List Instr} (hreset : noReset is) {s : State}
    (hnone : performedPublications is s = 0) : (runOps is s).mem.hf = s.mem.hf := by
  induction is generalizing s with
  | nil => rfl
  | cons i is ih =>
    obtain ⟨hi, his⟩ := List.forall_mem_cons.1 hreset
    obtain ⟨t, h⟩ := exec_next i s
    rw [performedPublications_cons _ h] at hnone
    obtain ⟨hhead, htail⟩ := Nat.add_eq_zero_iff.1 hnone
    rw [runOps_cons _ h, ih his htail]
    exact (exec_kept_of_not_publishes hi (Bool.toNat_eq_zero.1 hhead) h).2

/-- Of a run that performs none, each publication asked for found the core halted (R154). -/
theorem halted_of_none_performed {js ks : List Instr} {i : Instr} {s : State}
    (hnone : performedPublications (js ++ i :: ks) s = 0) (hasked : isPublication (carried i) = true) :
    (runOps js s).halted = true := by
  rw [performedPublications_append, performedPublications] at hnone
  have hpub : (publishes i (runOps js s)).toNat = 0 := by omega
  simpa [publishes, hasked] using hpub

/-- Settles O20: fewer than `2^32` publications that leave `GEN` as it was are none. -/
theorem equalGenMeansSameHalfFrame : Obligations.EqualGenMeansSameHalfFrame := by
  intro is s hreset hfew hgen
  have hnone : performedPublications is s = 0 := by
    have hzero : BitVec.ofNat 32 (performedPublications is s) = 0 := by
      rw [runOps_gen hreset] at hgen
      exact add_eq_left.1 hgen
    have hmod := congrArg BitVec.toNat hzero
    rwa [BitVec.toNat_ofNat,
      Nat.mod_eq_of_lt ((performedPublications_le is s).trans_lt hfew)] at hmod
  refine ⟨fun js i ks heq hasked => ?_, runOps_hf_of_none_performed hreset hnone⟩
  have hhalt := halted_of_none_performed (heq ▸ hnone) hasked
  exact ⟨hhalt, exec_publication_halted hasked hhalt⟩

/-! ## No element is left half written (R84)

Memories are written by `Push` and `storeSample` (the ring), by a publication and by a bus write to
`RAW`, each time a whole element; every other update leaves them alone. -/

/-- Wholeness is a matter of the memories alone. -/
theorem State.Whole.of_mem {s t : State} (h : s.Whole) (hmem : t.mem = s.mem) : t.Whole := by
  unfold State.Whole
  rwa [hmem]

section
variable {s : State} (h : s.Whole)
include h

theorem push_whole (t : Word) : (push t s).Whole := by
  obtain ⟨hraw, hhf, hslot, hfifo⟩ := h
  unfold push
  split
  · exact ⟨hraw, hhf, hslot, hfifo⟩
  · exact ⟨hraw, hhf, hslot, Memory.whole32_write32 hfifo _ _⟩

theorem enqueueSlot_whole (j : Nat) : (enqueueSlot j s).Whole :=
  (push_whole h (.ofNat 32 j)).of_mem rfl

theorem endSequence_whole : (endSequence s).Whole :=
  (push_whole h endToken).of_mem rfl

theorem backfill_whole (n j : Nat) : (backfill n j s).Whole := by
  induction n generalizing j s with
  | zero => exact h
  | succ n ih => exact ih (enqueueSlot_whole h j) (j + 1)

theorem firstTrigger_whole : (firstTrigger s).Whole := by
  refine State.Whole.of_mem (backfill_whole ?_ _ _) rfl
  split
  · exact push_whole h startToken
  · exact h

theorem onTrigger_whole : (onTrigger s).Whole := by
  unfold onTrigger
  split
  · exact h
  · exact firstTrigger_whole h

theorem advanceFill_whole : (advanceFill s).Whole := by
  by_cases hlast : s.ring.fill.toNat < 2 ^ 31 - 1
  · rw [advanceFill_next hlast]
    exact h
  · rw [advanceFill_last hlast]
    exact h

theorem slotWhileTriggered_whole (c : Nat) : (slotWhileTriggered c s).Whole := by
  have hslot := enqueueSlot_whole h c
  have hend := endSequence_whole hslot
  unfold slotWhileTriggered
  split
  · simp only
    split
    · split <;> exact hend
    · exact hslot
  · exact h

theorem closeFullBatch_whole : (closeFullBatch s).Whole := by
  unfold closeFullBatch
  split
  · exact endSequence_whole h
  · exact h

theorem onSlotFull_whole : (onSlotFull s).Whole := by
  have hfill := advanceFill_whole h
  unfold onSlotFull
  simp only
  split
  · exact enqueueSlot_whole hfill _
  · exact closeFullBatch_whole (slotWhileTriggered_whole hfill _)

theorem storeSample_whole (x : Half) : (storeSample x s).Whole := by
  obtain ⟨hraw, hhf, hslot, hfifo⟩ := h
  exact ⟨hraw, hhf, Memory.whole16_write16 hslot _ _, hfifo⟩

theorem appendSample_whole (x : Half) : (appendSample x s).Whole := by
  have hstored := storeSample_whole h x
  unfold appendSample
  simp only
  split
  · exact onSlotFull_whole hstored
  · exact hstored

theorem appendSamples_whole (xs : List Half) : (appendSamples xs s).Whole := by
  induction xs generalizing s with
  | nil => exact h
  | cons x xs ih =>
    unfold appendSamples
    split
    · exact h
    · exact ih (appendSample_whole h x)

theorem reopenGate_whole : (reopenGate s).Whole := by
  unfold reopenGate
  exact push_whole (by exact h) startToken

theorem ringAppend_whole (xs : List Half) : (ringAppend xs s).Whole := by
  have htaken : State.Whole { s with trigFlag := false } := h
  unfold ringAppend
  simp only
  split
  · split
    · exact appendSamples_whole (reopenGate_whole htaken) xs
    · exact htaken
  · split
    · exact appendSamples_whole (onTrigger_whole htaken) xs
    · exact appendSamples_whole htaken xs

theorem handOver_whole (xs : List Half) : (handOver xs s).Whole := by
  unfold handOver
  split
  · exact h
  · exact ringAppend_whole h xs
  · exact h

theorem hfReadyRule_whole (half : BitVec 1) (offset : Half) (shift : BitVec 4) :
    (hfReadyRule half offset shift s).Whole := by
  obtain ⟨hraw, hhf, hslot, hfifo⟩ := h
  obtain ⟨xs, ovl, env, heq⟩ := hfReadyRule_eq half offset shift s
  rw [heq]
  have hpublished : (s.afterPublication xs ovl env).Whole :=
    ⟨hraw, Memory.whole16_writeRun hhf 0 xs, hslot, hfifo⟩
  exact handOver_whole hpublished xs

theorem ringResetRule_whole (mode : Mode) : (ringResetRule mode s).Whole := by
  unfold ringResetRule
  simp only
  split
  · refine State.Whole.of_mem (push_whole ?_ startToken) rfl
    exact h
  · exact h

end

/-- The commands that neither publish, start a ring session nor reset leave the memories alone (R91). -/
theorem perform_mem {j : Instr} (hpub : isPublication j = false) (hring : isRingReset j = false)
    (hreset : j ≠ .sysReset) (s : State) : (perform j s).mem = s.mem := by
  by_cases hgain : setsGain j = true
  · obtain ⟨resp, range, dis, env, heq⟩ := perform_setsGain_eq hgain s
    rw [heq]
  cases j with
  | sysReset => exact absurd rfl hreset
  | hfReady => exact nomatch hpub
  | ringReset => exact nomatch hring
  | gainSet | gainSetdb | gainUp | gainDown => exact absurd rfl hgain
  | detBegin =>
    simp only [perform, detBeginRule]
    split
    · rfl
    · split <;> rfl
  | detWin =>
    simp only [perform, detWinRule]
    split <;> rfl
  | detCommit =>
    simp only [perform, detCommitRule]
    split
    · rfl
    · split
      · split <;> rfl
      · rfl
  | ringGetnext =>
    obtain ⟨resp, draws, head, count, rdActive, gnToken, heq⟩ := ringGetnextRule_eq s
    rw [perform, heq]
  | ringRecdone =>
    simp only [perform, ringRecdoneRule]
    split <;> rfl
  | _ => rfl

/-- A reset leaves nothing written (log 8). -/
theorem resetCore_whole (s : State) : s.resetCore.Whole := State.resetOf_whole s.build s.env

theorem perform_whole (j : Instr) {s : State} (h : s.Whole) : (perform j s).Whole := by
  cases j with
  | sysReset => exact resetCore_whole s
  | hfReady half offset shift => exact hfReadyRule_whole h half offset shift
  | ringReset mode => exact ringResetRule_whole h mode
  | _ => exact h.of_mem (perform_mem (by rfl) (by rfl) (by nofun) s)

theorem cmdWrite_whole (w : Word) {s : State} (h : s.Whole) : (cmdWrite w s).Whole := by
  unfold cmdWrite
  split
  · exact h
  · cases decodeCommand w with
    | ok j => exact perform_whole j h
    | error _ => exact h

theorem writeCsr_whole (r : Csr) (data : Word) {s : State} (h : s.Whole) :
    (writeCsr r data s).Whole := by
  have hstored : (csrStore data s r).Whole := by
    rw [csrStore_frame]
    exact h
  unfold writeCsr
  cases r.access with
  | wo => exact cmdWrite_whole data h
  | rw => cases s.halted <;> assumption
  | w1c => cases s.halted <;> exact h
  | ro => exact h

/-- A bus write to a memory writes one whole element of `RAW` or nothing (R84, R151). -/
theorem busWrRule_whole (addr data : Word) {s : State} (h : s.Whole) :
    (busWrRule addr data s).Whole := by
  unfold busWrRule
  rcases targetOf s.build addr with _ | (r | i | i | i | i)
  case some.csr => exact writeCsr_whole r data h
  case some.raw =>
    obtain ⟨hraw, hhf, hslot, hfifo⟩ := h
    exact ⟨Memory.whole16_write16 hraw i _, hhf, hslot, hfifo⟩
  all_goals exact h

theorem busRdRule_whole (addr : Word) {s : State} (h : s.Whole) : (busRdRule addr s).Whole := by
  unfold busRdRule
  cases targetOf s.build addr <;> exact h

/-- No operation leaves an element half written (R84). -/
theorem exec_whole {i : Instr} {s t : State} (h : s.Whole) (hexec : exec i s = .next t) : t.Whole := by
  by_cases hreset : i = .sysReset
  · subst hreset
    obtain rfl := Host.Outcome.next.inj hexec
    exact resetCore_whole s
  by_cases hcommand : isCommand i = true
  · rw [exec_eq_command hcommand hreset] at hexec
    obtain rfl := Host.Outcome.next.inj hexec
    unfold command
    split
    · exact h
    · exact perform_whole i h
  cases i with
  | busRd addr =>
    obtain rfl := Host.Outcome.next.inj hexec
    exact busRdRule_whole addr h
  | busWr addr data =>
    obtain rfl := Host.Outcome.next.inj hexec
    exact busWrRule_whole addr data h
  | _ => exact absurd rfl hcommand

/-- Settles O38: taking an offer writes no memory, a reset leaves nothing written, and every operation
keeps elements whole. -/
theorem stepKeepsElementsWhole : Obligations.StepKeepsElementsWhole := by
  intro s t h hstep
  rcases step_next_cases hstep with rfl | ⟨turns, rfl⟩ | ⟨a, op, rest, turns, hexec⟩
  · exact h
  · exact resetCore_whole _
  · exact exec_whole (h.of_mem (State.granted_mem s a rest turns)) hexec

end Sys2Proof.Machine

/-!
PROOFS. The statements on the encoding: decoding and encoding are inverse (O50, O51), the words that
decode are those of the opcode map (O47, O52), a command word performs its operation (O49), and what the
pseudo-instructions `THR.SET` and `RAW.LOAD` do by their bus writes (O60, O13).
-/

namespace Sys2Proof.Machine

/-! ## The argument of a command word in each format (R121 to R126)

A format decodes a word exactly to the operations whose operands make up the word's argument. Each fact
serves the decoder in one direction and the encoder in the other. -/

/-- A word is built from its opcode and its argument (R120). -/
theorem commandWord_of_parts {w : Word} {op arg : Nat} (hop : slice w 31 24 = op)
    (harg : slice w 23 0 = arg) : commandWord op arg = w := by
  have hw := w.isLt
  subst hop harg
  apply BitVec.eq_of_toNat_eq
  simp only [commandWord, slice, BitVec.toNat_ofNat]
  omega

/-- The argument of a built word (R120). -/
theorem slice_commandWord_argument {op arg : Nat} (hop : op < 2 ^ 8) (harg : arg < 2 ^ 24) :
    slice (commandWord op arg) 23 0 = arg := by
  rw [slice_commandWord_arg op arg 23 0 hop harg (by omega) (by omega)]
  omega

/-- A number read as one bit is that bit. -/
theorem toNat_beq_one {n : Nat} (h : n < 2) : (n == 1).toNat = n := by
  interval_cases n <;> rfl

theorem beq_one_toNat (b : Bool) : (b.toNat == 1) = b := by
  cases b <;> rfl

/-- A field's unsigned value, stored in a field of its width again. -/
theorem ofNat_of_toNat_eq {width n : Nat} {v : BitVec width} (h : n = v.toNat) :
    BitVec.ofNat width n = v := by
  rw [h, BitVec.ofNat_toNat, BitVec.setWidth_eq]

theorem formatZ_eq_ok_iff {w : Word} {i j : Instr} :
    formatZ w i = .ok j ↔ i = j ∧ slice w 23 0 = 0 := by
  unfold formatZ
  split <;> simp [*]

theorem formatR_eq_ok_iff {w : Word} {f : Byte → Instr} {j : Instr} :
    formatR w f = .ok j ↔ ∃ range, f range = j ∧ slice w 23 0 = range.toNat := by
  constructor
  · intro h
    unfold formatR at h
    split at h <;> cases h
    next hres =>
      refine ⟨_, rfl, ?_⟩
      simp only [slice, BitVec.toNat_ofNat] at hres ⊢
      omega
  · rintro ⟨range, rfl, harg⟩
    have hrange := range.isLt
    have hres : slice w 23 8 = 0 := by simp only [slice] at harg ⊢; omega
    have hlow : slice w 7 0 = range.toNat := by simp only [slice] at harg ⊢; omega
    rw [formatR, if_pos hres, ofNat_of_toNat_eq hlow]

theorem formatG_eq_ok_iff {w : Word} {f : Byte → Bool → Instr} {j : Instr} :
    formatG w f = .ok j ↔
      ∃ range dis, f range dis = j ∧ slice w 23 0 = dis.toNat * 2 ^ 8 + range.toNat := by
  constructor
  · intro h
    unfold formatG at h
    split at h <;> cases h
    next hres =>
      refine ⟨_, _, rfl, ?_⟩
      have hbit : slice w 8 8 < 2 := Nat.mod_lt _ (by decide)
      rw [toNat_beq_one hbit]
      simp only [slice, BitVec.toNat_ofNat] at hres ⊢
      omega
  · rintro ⟨range, dis, rfl, harg⟩
    have hrange := range.isLt
    have hdis := dis.toNat_le
    have hres : slice w 23 9 = 0 := by simp only [slice] at harg ⊢; omega
    have hbit : slice w 8 8 = dis.toNat := by simp only [slice] at harg ⊢; omega
    have hlow : slice w 7 0 = range.toNat := by simp only [slice] at harg ⊢; omega
    rw [formatG, if_pos hres, hbit, beq_one_toNat, ofNat_of_toNat_eq hlow]

theorem formatD_eq_ok_iff {w : Word} {f : Half → Bool → Instr} {j : Instr} :
    formatD w f = .ok j ↔
      ∃ db dis, f db dis = j ∧ slice w 23 0 = dis.toNat * 2 ^ 16 + db.toNat := by
  constructor
  · intro h
    unfold formatD at h
    split at h <;> cases h
    next hres =>
      refine ⟨_, _, rfl, ?_⟩
      have hbit : slice w 16 16 < 2 := Nat.mod_lt _ (by decide)
      rw [toNat_beq_one hbit]
      simp only [slice, BitVec.toNat_ofNat] at hres ⊢
      omega
  · rintro ⟨db, dis, rfl, harg⟩
    have hdb := db.isLt
    have hdis := dis.toNat_le
    have hres : slice w 23 17 = 0 := by simp only [slice] at harg ⊢; omega
    have hbit : slice w 16 16 = dis.toNat := by simp only [slice] at harg ⊢; omega
    have hlow : slice w 15 0 = db.toNat := by simp only [slice] at harg ⊢; omega
    rw [formatD, if_pos hres, hbit, beq_one_toNat, ofNat_of_toNat_eq hlow]

/-- Format `S` with a selector's table and the codes that it reads back. -/
theorem formatS_eq_ok_iff {α : Type} {w : Word} {sel : Nat → Option α} {code : α → Nat}
    {f : α → Instr} {j : Instr} (hsel : ∀ n v, sel n = some v ↔ code v = n) :
    formatS w sel f = .ok j ↔ ∃ v, f v = j ∧ slice w 23 0 = code v ∧ code v < 4 := by
  constructor
  · intro h
    unfold formatS at h
    split at h
    next hres =>
      split at h <;> cases h
      next v hv =>
        refine ⟨v, rfl, ?_⟩
        rw [(hsel _ _).1 hv]
        simp only [slice] at hres ⊢
        omega
    next => cases h
  · rintro ⟨v, rfl, harg, hcode⟩
    have hres : slice w 23 2 = 0 := by simp only [slice] at harg ⊢; omega
    have hlow : code v = slice w 1 0 := by simp only [slice] at harg ⊢; omega
    exact formatS_isOk f hres ((hsel _ _).2 hlow)

theorem procOfSel_eq_some_iff (n : Nat) (p : Proc) : procOfSel n = some p ↔ p.code = n := by
  constructor
  · intro h
    unfold procOfSel at h
    split at h <;> cases h <;> rfl
  · rintro rfl
    exact procOfSel_code p

theorem modeOfSel_eq_some_iff (n : Nat) (m : Mode) : modeOfSel n = some m ↔ m.code = n := by
  constructor
  · intro h
    unfold modeOfSel at h
    split at h <;> cases h <;> rfl
  · rintro rfl
    exact modeOfSel_code m

theorem formatH_eq_ok_iff {w : Word} {f : BitVec 1 → Half → BitVec 4 → Instr} {j : Instr} :
    formatH w f = .ok j ↔ ∃ half offset shift, f half offset shift = j ∧
      slice w 23 0 = offset.toNat * 2 ^ 8 + shift.toNat * 2 ^ 4 + half.toNat := by
  constructor
  · intro h
    unfold formatH at h
    split at h <;> cases h
    next hres =>
      refine ⟨_, _, _, rfl, ?_⟩
      simp only [slice, BitVec.toNat_ofNat] at hres ⊢
      omega
  · rintro ⟨half, offset, shift, rfl, harg⟩
    have hhalf := half.isLt
    have hoffset := offset.isLt
    have hshift := shift.isLt
    have hres : slice w 3 1 = 0 := by simp only [slice] at harg ⊢; omega
    have hbit : slice w 0 0 = half.toNat := by simp only [slice] at harg ⊢; omega
    have hhigh : slice w 23 8 = offset.toNat := by simp only [slice] at harg ⊢; omega
    have hmid : slice w 7 4 = shift.toNat := by simp only [slice] at harg ⊢; omega
    rw [formatH, if_pos hres, ofNat_of_toNat_eq hbit, ofNat_of_toNat_eq hhigh,
      ofNat_of_toNat_eq hmid]

/-! ## Decoding and encoding are inverse (R120, R130, R131, R134) -/

/-- Every decoded word is the command word of its operation (R130). -/
theorem encodeCommand_of_decode {w : Word} {i : Instr} (h : decodeCommand w = .ok i) :
    encodeCommand i = some w := by
  have word {op arg : Nat} (hop : slice w 31 24 = op) (harg : slice w 23 0 = arg) :
      some (commandWord op arg) = some w := congrArg some (commandWord_of_parts hop harg)
  unfold decodeCommand at h
  split at h
  case h_3 hop => obtain ⟨_, _, rfl, harg⟩ := formatG_eq_ok_iff.1 h; exact word hop harg
  case h_4 hop => obtain ⟨_, _, rfl, harg⟩ := formatD_eq_ok_iff.1 h; exact word hop harg
  case h_9 hop | h_10 hop => obtain ⟨_, rfl, harg⟩ := formatR_eq_ok_iff.1 h; exact word hop harg
  case h_11 hop =>
    obtain ⟨_, rfl, harg, -⟩ := (formatS_eq_ok_iff procOfSel_eq_some_iff).1 h
    exact word hop harg
  case h_16 hop =>
    obtain ⟨_, rfl, harg, -⟩ := (formatS_eq_ok_iff modeOfSel_eq_some_iff).1 h
    exact word hop harg
  case h_12 hop => obtain ⟨_, _, _, rfl, harg⟩ := formatH_eq_ok_iff.1 h; exact word hop harg
  case h_19 => cases h
  all_goals
    next hop =>
      obtain ⟨rfl, harg⟩ := formatZ_eq_ok_iff.1 h
      exact word hop harg

/-- The opcode and the argument of a command word (R120). -/
theorem parts_of_commandWord {w : Word} {op arg : Nat} (h : some (commandWord op arg) = some w)
    (hop : op < 2 ^ 8) (harg : arg < 2 ^ 24) : slice w 31 24 = op ∧ slice w 23 0 = arg := by
  obtain rfl := Option.some.inj h
  exact ⟨slice_commandWord_op op arg hop harg, slice_commandWord_argument hop harg⟩

/-- The command word of an operation decodes to it (R131, R134). -/
theorem decodeCommand_of_encode {w : Word} {i : Instr} (h : encodeCommand i = some w) :
    decodeCommand w = .ok i := by
  cases i with
  | gainSet range dis =>
    have hdis := dis.toNat_le
    obtain ⟨hop, harg⟩ := parts_of_commandWord h (by decide) (by omega)
    simp only [decodeCommand, hop]
    exact formatG_eq_ok_iff.2 ⟨range, dis, rfl, harg⟩
  | gainSetdb db dis =>
    have hdis := dis.toNat_le
    obtain ⟨hop, harg⟩ := parts_of_commandWord h (by decide) (by omega)
    simp only [decodeCommand, hop]
    exact formatD_eq_ok_iff.2 ⟨db, dis, rfl, harg⟩
  | gainForrange range | gainShiftfor range =>
    obtain ⟨hop, harg⟩ := parts_of_commandWord h (by decide) (by omega)
    simp only [decodeCommand, hop]
    exact formatR_eq_ok_iff.2 ⟨range, rfl, harg⟩
  | procSet sel =>
    have hsel := sel.code_lt
    obtain ⟨hop, harg⟩ := parts_of_commandWord h (by decide) (by omega)
    simp only [decodeCommand, hop]
    exact (formatS_eq_ok_iff procOfSel_eq_some_iff).2 ⟨sel, rfl, harg, by omega⟩
  | ringReset mode =>
    have hmode := mode.code_lt
    obtain ⟨hop, harg⟩ := parts_of_commandWord h (by decide) (by omega)
    simp only [decodeCommand, hop]
    exact (formatS_eq_ok_iff modeOfSel_eq_some_iff).2 ⟨mode, rfl, harg, by omega⟩
  | hfReady half offset shift =>
    obtain ⟨hop, harg⟩ := parts_of_commandWord h (by decide) (by omega)
    simp only [decodeCommand, hop]
    exact formatH_eq_ok_iff.2 ⟨half, offset, shift, rfl, harg⟩
  | busRd | busWr => exact nomatch h
  | _ =>
    obtain ⟨hop, harg⟩ := parts_of_commandWord h (by decide) (by decide)
    simp only [decodeCommand, hop]
    exact formatZ_eq_ok_iff.2 ⟨rfl, harg⟩

/-- A command operation has a command word; a bus operation has none (R120). -/
theorem encode_of_isCommand {i : Instr} (h : isCommand i = true) :
    ∃ w, encodeCommand i = some w ∧ encode i = .wr cmdAddr w := by
  cases i with
  | busRd | busWr => exact nomatch h
  | _ => exact ⟨_, rfl, rfl⟩

/-- Settles O50: a command's word decodes to it, and a bus operation that does not write `CMD` is its own
transaction. -/
theorem decodeAfterEncode : Obligations.DecodeAfterEncode := by
  intro i hwf
  by_cases hcommand : isCommand i = true
  · obtain ⟨w, hword, hencode⟩ := encode_of_isCommand hcommand
    rw [hencode]
    exact decodeCommand_of_encode hword
  · cases i with
    | busRd addr => rfl
    | busWr addr data => exact if_neg (bne_iff_ne.1 hwf)
    | _ => exact absurd rfl hcommand

/-- Every command is an operation of its own (R120). -/
theorem wellFormed_of_isCommand {i : Instr} (h : isCommand i = true) : i.wellFormed = true := by
  cases i with
  | busRd | busWr => exact nomatch h
  | _ => rfl

/-- Settles O51: a word written to `CMD` is the command word of what it decodes to, and any other
transaction decodes to itself. -/
theorem encodeAfterDecode : Obligations.EncodeAfterDecode := by
  intro op i h
  cases op with
  | rd addr =>
    obtain rfl := Except.ok.inj h
    exact ⟨rfl, rfl⟩
  | wr addr data =>
    by_cases haddr : addr = cmdAddr
    · subst haddr
      have hdecode : decodeCommand data = .ok i := h
      have hcommand := isCommand_of_decode hdecode
      obtain ⟨w, hword, hencode⟩ := encode_of_isCommand hcommand
      obtain rfl := Option.some.inj (hword.symm.trans (encodeCommand_of_decode hdecode))
      exact ⟨wellFormed_of_isCommand hcommand, hencode⟩
    · obtain rfl := Except.ok.inj ((if_neg haddr).symm.trans h)
      exact ⟨bne_iff_ne.2 haddr, rfl⟩

/-- Settles O52: each legal word is the encoding of its operation, and the last has bit 0 of format `Z`
set. -/
theorem sampleWordsDecode : Obligations.SampleWordsDecode := by
  refine ⟨decodeAfterEncode (.gainSet 1 true) rfl, decodeAfterEncode (.gainSetdb 0xFFFD false) rfl,
    decodeAfterEncode (.gainForrange 200) rfl, decodeAfterEncode (.procSet .ring) rfl,
    decodeAfterEncode (.hfReady 0 0x8000 2) rfl, decodeAfterEncode (.ringReset .gated) rfl, ?_⟩
  decide

/-! ## The words that decode are those of the opcode map (R127) -/

/-- The bits of a mask from `lo` to `hi` (R127). -/
def fieldMask (hi lo : Nat) : Word := .ofNat 32 ((2 ^ (hi + 1 - lo) - 1) * 2 ^ lo)

/-- A field masked out of a word is the field in its place (R12). -/
theorem and_fieldMask (w : Word) (hi lo : Nat) :
    w &&& fieldMask hi lo = .ofNat 32 (slice w hi lo * 2 ^ lo) := by
  apply BitVec.eq_of_getLsbD_eq
  intro k hk
  simp only [fieldMask, slice, BitVec.getLsbD_and, BitVec.getLsbD_ofNat, Nat.testBit_mul_two_pow,
    Nat.testBit_two_pow_sub_one, Nat.testBit_mod_two_pow, Nat.testBit_div_two_pow]
  by_cases hlo : lo ≤ k
  · simp [hk, hlo, BitVec.getLsbD, Bool.and_comm]
  · simp [hlo]

/-- A row selects the words with its opcode whose other masked field is zero (R127, R128). -/
theorem MapRow.selects_of_fields {r : MapRow} {w : Word} {op hi lo : Nat}
    (hmask : r.mask = fieldMask 31 24 ||| fieldMask hi lo)
    (hpattern : r.pattern = .ofNat 32 (op * 2 ^ 24)) (hop : slice w 31 24 = op)
    (hres : slice w hi lo = 0) (hsel : r.selector = true → w.toNat % 4 ≠ 3) :
    r.selects w = true := by
  refine (r.selects_iff w).2 ⟨?_, hsel⟩
  calc w &&& r.mask = w &&& fieldMask 31 24 ||| w &&& fieldMask hi lo := by
        rw [hmask, BitVec.and_or_distrib_left]
    _ = .ofNat 32 (op * 2 ^ 24) ||| .ofNat 32 (0 * 2 ^ lo) := by
        rw [and_fieldMask, and_fieldMask, hop, hres]
    _ = r.pattern := by rw [hpattern, Nat.zero_mul, BitVec.or_zero]

/-- A small argument leaves the bits above it zero (R121 to R125). -/
theorem slice_eq_zero_of_argument_lt {w : Word} {k : Nat} (hk : k ≤ 24)
    (h : slice w 23 0 < 2 ^ k) : slice w 23 k = 0 := by
  have hsplit : 2 ^ 24 = 2 ^ k * 2 ^ (24 - k) := by rw [← Nat.pow_add, Nat.add_sub_cancel' hk]
  have harg : slice w 23 0 = w.toNat % 2 ^ 24 := by simp only [slice]; omega
  show w.toNat / 2 ^ k % 2 ^ (24 - k) = 0
  rw [← Nat.mod_mul_right_div_self, ← hsplit, ← harg, Nat.div_eq_of_lt h]

/-- A row whose reserved bits are those from `k` up selects the words of its opcode with an argument below
`2^k`, in format `S` below 3 (R121 to R125). -/
theorem MapRow.selects_of_argument_lt {r : MapRow} {w : Word} {op k : Nat}
    (hmask : r.mask = fieldMask 31 24 ||| fieldMask 23 k)
    (hpattern : r.pattern = .ofNat 32 (op * 2 ^ 24)) (hk : k ≤ 24) (hop : slice w 31 24 = op)
    (harg : slice w 23 0 < 2 ^ k) (hsel : r.selector = true → slice w 23 0 < 3) :
    r.selects w = true := by
  refine MapRow.selects_of_fields hmask hpattern hop (slice_eq_zero_of_argument_lt hk harg) fun hs => ?_
  have hcode := hsel hs
  simp only [slice] at hcode
  omega

/-- A word that decodes selects the row of its operation (R127). -/
theorem selects_of_decode {w : Word} {i : Instr} (h : decodeCommand w = .ok i) :
    ∃ r ∈ opcodeMap, r.selects w = true := by
  unfold decodeCommand at h
  split at h
  case h_3 hop =>
    obtain ⟨range, dis, -, harg⟩ := formatG_eq_ok_iff.1 h
    have hdis := dis.toNat_le
    exact ⟨⟨0x10000000, 0xFFFFFE00, false⟩, by decide, MapRow.selects_of_argument_lt (k := 9)
      (by decide) (by decide) (by decide) hop (by omega) nofun⟩
  case h_4 hop =>
    obtain ⟨db, dis, -, harg⟩ := formatD_eq_ok_iff.1 h
    have hdis := dis.toNat_le
    exact ⟨⟨0x11000000, 0xFFFE0000, false⟩, by decide, MapRow.selects_of_argument_lt (k := 17)
      (by decide) (by decide) (by decide) hop (by omega) nofun⟩
  case h_9 hop =>
    obtain ⟨range, -, harg⟩ := formatR_eq_ok_iff.1 h
    exact ⟨⟨0x16000000, 0xFFFFFF00, false⟩, by decide, MapRow.selects_of_argument_lt (k := 8)
      (by decide) (by decide) (by decide) hop (by omega) nofun⟩
  case h_10 hop =>
    obtain ⟨range, -, harg⟩ := formatR_eq_ok_iff.1 h
    exact ⟨⟨0x17000000, 0xFFFFFF00, false⟩, by decide, MapRow.selects_of_argument_lt (k := 8)
      (by decide) (by decide) (by decide) hop (by omega) nofun⟩
  case h_11 hop =>
    obtain ⟨sel, -, harg, -⟩ := (formatS_eq_ok_iff procOfSel_eq_some_iff).1 h
    have hsel := sel.code_lt
    exact ⟨⟨0x20000000, 0xFFFFFFFC, true⟩, by decide, MapRow.selects_of_argument_lt (k := 2)
      (by decide) (by decide) (by decide) hop (by omega) (fun _ => by omega)⟩
  case h_12 hop =>
    obtain ⟨half, offset, shift, -, harg⟩ := formatH_eq_ok_iff.1 h
    exact ⟨⟨0x21000000, 0xFF00000E, false⟩, by decide, MapRow.selects_of_fields (hi := 3) (lo := 1)
      (by decide) (by decide) hop (by simp only [slice] at harg ⊢; omega) nofun⟩
  case h_16 hop =>
    obtain ⟨mode, -, harg, -⟩ := (formatS_eq_ok_iff modeOfSel_eq_some_iff).1 h
    have hmode := mode.code_lt
    exact ⟨⟨0x40000000, 0xFFFFFFFC, true⟩, by decide, MapRow.selects_of_argument_lt (k := 2)
      (by decide) (by decide) (by decide) hop (by omega) (fun _ => by omega)⟩
  case h_19 => cases h
  all_goals
    next hop =>
      obtain ⟨-, harg⟩ := formatZ_eq_ok_iff.1 h
      rw [← commandWord_of_parts hop harg]
      decide

/-- Settles O47: a word that decodes has the fields of its row, and the fields of a row decode. -/
theorem legalWordsAreTheMapsWords : Obligations.LegalWordsAreTheMapsWords := by
  intro w
  constructor
  · rintro ⟨i, h⟩
    exact selects_of_decode h
  · rintro ⟨r, hr, h⟩
    exact decodes_of_selects hr h

/-! ## A command word performs its operation (R120, R154) -/

/-- The word of `SYS.RESET` resets the core, halted or not (R154). -/
theorem exec_sysResetWord (s : State) : exec (.busWr cmdAddr sysResetWord) s = exec .sysReset s := by
  have hdecode : decodeCommand sysResetWord = .ok .sysReset := by decide
  show Host.Outcome.next (busWrRule cmdAddr sysResetWord s) = _
  rw [busWrRule_cmd, cmdWrite, if_neg (fun h => h.2 rfl), hdecode]
  rfl

/-- Settles O49: `SYS.RESET` has one word, and every other command is its rule behind the halted test,
offered as the command or as its word. -/
theorem commandWordPerformsOperation : Obligations.CommandWordPerformsOperation := by
  intro w i s h
  have hdecode : decodeCommand w = .ok i := h
  have hcommand := isCommand_of_decode hdecode
  by_cases hreset : i = .sysReset
  · subst hreset
    obtain rfl : sysResetWord = w := Option.some.inj (encodeCommand_of_decode hdecode)
    exact exec_sysResetWord s
  · have hcarried : carried (.busWr cmdAddr w) = i := BusOp.instr_of_decode h
    rw [exec_of_carried (hcarried ▸ hcommand) (hcarried ▸ hreset), hcarried,
      exec_eq_command hcommand hreset]

/-! ## Runs of bus writes: the pseudo-instructions (R135) -/

/-- A bus write to an address other than that of `CMD` is itself the operation (R120). -/
theorem instr_wr_ofNat {addr : Nat} (hlt : addr < 2 ^ 32) (hne : addr ≠ 4) (data : Word) :
    (BusOp.wr (.ofNat 32 addr) data).instr = .busWr (.ofNat 32 addr) data := by
  refine BusOp.instr_of_decode (if_neg fun h => hne ?_)
  have hnat := congrArg BitVec.toNat h
  rwa [BitVec.toNat_ofNat, Nat.mod_eq_of_lt hlt] at hnat

/-- A write to a read-write register of a running core stores its field (R49, R151). -/
theorem exec_busWr_register {s : State} {off : Nat} {r : Csr} (data : Word) (hrun : s.halted = false)
    (hlt : off < 2 ^ 28) (hr : csrAt s.build off = some r) (hacc : r.access = .rw) :
    exec (.busWr (.ofNat 32 off) data) s = .next (csrStore data s r) := by
  have htarget : targetOf s.build (.ofNat 32 off) = some (.csr r) := by
    rw [targetOf_csr _ hlt, hr]
    rfl
  show Host.Outcome.next (busWrRule (.ofNat 32 off) data s) = _
  simp only [busWrRule, htarget, writeCsr, hacc, hrun, Bool.false_eq_true, if_false]

/-- A write to a raw sample stores the low 16 bits, halted or not (R84, R151). -/
theorem exec_busWr_raw {s : State} {i : Nat} (data : Word) (hb : s.build.wf = true)
    (hi : i < 2 * s.build.h) :
    exec (.busWr (.ofNat 32 (0x10000000 + 2 * i)) data) s =
      .next { s with mem := { s.mem with raw := s.mem.raw.write16 i (data.setWidth 16) } } := by
  obtain ⟨⟨-, hh⟩, -⟩ := Build.bounds hb
  show Host.Outcome.next (busWrRule (.ofNat 32 (0x10000000 + 2 * i)) data s) = _
  simp only [busWrRule, targetOf_raw _ hi hh]

/-! ### `THR.SET` (R44, R135) -/

/-- An entry just put in the table reads back (R44). -/
theorem thrEntry_setThr {s : State} {k : Nat} (t : Threshold) (hk : k < s.det.thr.length) :
    thrEntry (setThr s k t) k = t := by
  simp [thrEntry, setThr, hk]

/-- Of two writes to an entry the second counts (R44). -/
theorem setThr_setThr (s : State) (k : Nat) (t u : Threshold) :
    setThr (setThr s k t) k u = setThr s k u := by
  simp [setThr]

/-- `THR.SET` stores the three words of the entry, one after the other (R135). -/
theorem runOps_pseudoThrSet {s : State} {k : Nat} (thr : BitVec 64) (en : Bool)
    (hb : s.build.wf = true) (hrun : s.halted = false) (hk : k < s.build.nb) :
    runOps ((pseudoThrSet k thr en).map BusOp.instr) s =
      csrStore (.ofNat 32 en.toNat) (csrStore (thr.extractLsb' 32 32)
        (csrStore (thr.extractLsb' 0 32) s (.thrLo k)) (.thrHi k)) (.thrCtl k) := by
  obtain ⟨-, ⟨-, -, hnb⟩, -⟩ := Build.bounds hb
  obtain ⟨hlo, hhi, hctl⟩ := csrAt_threshold hk
  have hwriteHi := exec_busWr_register (s := csrStore (thr.extractLsb' 0 32) s (.thrLo k))
    (thr.extractLsb' 32 32) hrun (by omega) hhi rfl
  have hwriteCtl := exec_busWr_register
    (s := csrStore (thr.extractLsb' 32 32) (csrStore (thr.extractLsb' 0 32) s (.thrLo k)) (.thrHi k))
    (.ofNat 32 en.toNat) hrun (by omega) hctl rfl
  simp only [pseudoThrSet, List.map_cons, List.map_nil]
  rw [instr_wr_ofNat (by omega) (by omega), instr_wr_ofNat (by omega) (by omega),
    instr_wr_ofNat (by omega) (by omega),
    runOps_cons _ (exec_busWr_register _ hrun (by omega) hlo rfl), runOps_cons _ hwriteHi,
    runOps_cons _ hwriteCtl, runOps_nil]

/-- The entry with threshold `thr` and enable bit `en` (R44). -/
def Threshold.ofValue (thr : BitVec 64) (en : Bool) : Threshold :=
  { lo := thr.extractLsb' 0 32, hi := thr.extractLsb' 32 32, en := en }

theorem Threshold.ofValue_value (thr : BitVec 64) (en : Bool) :
    (Threshold.ofValue thr en).value = thr.toNat := by
  have hthr := thr.isLt
  simp only [Threshold.value, Threshold.ofValue, BitVec.extractLsb'_toNat, Nat.shiftRight_eq_div_pow]
  omega

/-- Settles O60: the three writes make up the one entry. -/
theorem thrSetWritesEntry : Obligations.ThrSetWritesEntry := by
  intro s k thr en hb hrun hlen hk
  refine ⟨.ofValue thr en, Threshold.ofValue_value thr en, rfl, ?_⟩
  have hin : k < s.det.thr.length := hlen ▸ hk
  have hen : (BitVec.ofNat 32 en.toNat).getLsbD 0 = en := by cases en <;> rfl
  rw [runOps_pseudoThrSet thr en hb hrun hk]
  simp only [csrStore, thrEntry_setThr _ hin, setThr_setThr, hen]
  rfl

/-! ### `RAW.LOAD` and `HF.READY` (R135, R191) -/

/-- The writes of `RAW.LOAD` write a run of raw samples and nothing else (R135, R151). -/
theorem runOps_rawWrites {s : State} {i : Nat} {vs : List Half} (hb : s.build.wf = true)
    (hi : i + vs.length ≤ 2 * s.build.h) :
    runOps ((rawWrites i vs).map BusOp.instr) s =
      { s with mem := { s.mem with raw := s.mem.raw.writeRun i vs } } := by
  obtain ⟨⟨-, hh⟩, -⟩ := Build.bounds hb
  induction vs generalizing s i with
  | nil => rfl
  | cons v vs ih =>
    rw [List.length_cons] at hi
    have hdata : (v.setWidth 32).setWidth 16 = v := by
      rw [BitVec.setWidth_setWidth_of_le _ (by decide), BitVec.setWidth_eq]
    have hrest := ih (s := { s with mem := { s.mem with raw := s.mem.raw.write16 i v } }) (i := i + 1)
      hb (show i + 1 + vs.length ≤ 2 * s.build.h by omega) hh
    rw [rawWrites, List.map_cons, instr_wr_ofNat (by omega) (by omega),
      runOps_cons _ (exec_busWr_raw _ hb (by omega)), hdata, hrest]
    rfl

/-- A run just written is read back, and nothing is drawn (R90). -/
theorem Memory.fetchRun_writeRun (m : Memory) (i : Nat) (vs : List Half) (draws : Nat) :
    (m.writeRun i vs).fetchRun i vs.length draws = (vs, draws) := by
  have hread (k : Nat) (hk : k < vs.length) : (m.writeRun i vs).read16 (i + k) = some vs[k] := by
    rw [read16_writeRun m i k vs hk, List.getElem?_eq_getElem hk]
  refine Prod.ext (List.ext_getElem? fun k => ?_) (fetchRun_draws _ _ _ _ fun k hk => ?_)
  · by_cases hk : k < vs.length
    · rw [fetchRun_written _ _ _ _ _ hk (hread k hk), List.getElem?_eq_getElem hk]
    · rw [List.getElem?_eq_none (by simpa using hk), List.getElem?_eq_none (by simpa using hk)]
  · rw [hread k hk]
    rfl

/-- `s` with the half `half` of `RAW` written as `vs` (R135, R191). -/
def State.rawLoaded (s : State) (half : BitVec 1) (vs : List Half) : State :=
  { s with mem := { s.mem with raw := s.mem.raw.writeRun (half.toNat * s.build.h) vs } }

/-- `RAW.LOAD` writes the half of `RAW` and nothing else (R135). -/
theorem runOps_pseudoRawLoad {s : State} (half : BitVec 1) {vs : List Half} (hb : s.build.wf = true)
    (hlen : vs.length = s.build.h) :
    runOps ((pseudoRawLoad s.build half vs).map BusOp.instr) s = s.rawLoaded half vs := by
  have hhalf : half.toNat * s.build.h ≤ 1 * s.build.h :=
    Nat.mul_le_mul_right _ (Nat.le_of_lt_succ half.isLt)
  exact runOps_rawWrites hb (by omega)

/-- The loaded half is read back whole (R191). -/
theorem rawHalf_rawLoaded {s : State} (half : BitVec 1) {vs : List Half}
    (hlen : vs.length = s.build.h) :
    rawHalf half (s.rawLoaded half vs) = (vs, s.env.draws) := by
  show Memory.fetchRun (s.mem.raw.writeRun (half.toNat * s.build.h) vs) (half.toNat * s.build.h)
    s.build.h s.env.draws = _
  rw [← hlen]
  exact Memory.fetchRun_writeRun _ _ _ _

/-- A Half-Frame published to nobody is handed over to nobody (R196). -/
theorem handOver_of_none (xs : List Half) {s : State} (h : s.acq.proc = .none) :
    handOver xs s = s := by
  simp only [handOver, h]

/-- With the half of `RAW` written as `vs` and no processor registered, `HF.READY` publishes `vs` scaled
and narrowed and reports an overload (R191). -/
theorem hfReadyRule_of_rawHalf {s : State} {half : BitVec 1} (offset : Half) (shift : BitVec 4)
    {vs : List Half} (hproc : s.acq.proc = .none) (hraw : rawHalf half s = (vs, s.env.draws)) :
    hfReadyRule half offset shift s =
      (reportOverload (scaleAll offset shift s vs)
        (publish ((scaleAll offset shift s vs).map (narrow s.build.narrow)) s)).setResp 0 := by
  simp only [hfReadyRule, hraw]
  rw [handOver_of_none _ (by rw [reportOverload_eq]; exact hproc)]
  rfl

/-- Settles O13: the loaded half is read back whole, and what `HF.READY` publishes of it is in `HF`. -/
theorem loadedSamplesArePublished : Obligations.LoadedSamplesArePublished := by
  intro s half offset shift vs hb hrun hproc hlen t
  have hready : exec (.hfReady half offset shift) (s.rawLoaded half vs) =
      .next (hfReadyRule half offset shift (s.rawLoaded half vs)) :=
    exec_command _ hrun nofun nofun
  have ht : t = hfReadyRule half offset shift (s.rawLoaded half vs) := by
    show runOps (_ ++ _) s = _
    rw [runOps_append, runOps_pseudoRawLoad half hb hlen, runOps_cons _ hready, runOps_nil]
  rw [ht, hfReadyRule_of_rawHalf (s := s.rawLoaded half vs) offset shift hproc
    (rawHalf_rawLoaded half hlen), reportOverload_eq]
  refine ⟨fun i v hv => ?_, rfl, rfl, rfl, rfl, rfl⟩
  obtain ⟨hi, -⟩ := List.getElem?_eq_some_iff.1 hv
  show Memory.read16 (s.mem.hf.writeRun 0 _) i = _
  rw [← Nat.zero_add i, Memory.read16_writeRun _ _ _ _ (by simpa [scaleAll] using hi)]
  simp only [scaleAll, List.getElem?_map, hv, Option.map_some]
  rfl

end Sys2Proof.Machine

/-!
PROOFS. The statements on the bus operations and the system commands: what a bus read answers (O55), what
a bus write to `RAW` and to a read-write register stores (O56, O57), `NOP` (O1) and `SYS.RESET` (O2).
-/

namespace Sys2Proof.Machine

/-! ## The registers in the order of the map (R47) -/

/-- The byte offset of a register (R47). -/
def Csr.offset : Csr → Nat
  | .id => 0x000
  | .cmd => 0x004
  | .resp => 0x008
  | .status => 0x00C
  | .fault => 0x010
  | .gen => 0x020
  | .hfPtr => 0x024
  | .hfBytes => 0x028
  | .proc => 0x02C
  | .sclCorr => 0x030
  | .ovlThr => 0x034
  | .gainState => 0x040
  | .gainMin => 0x044
  | .gainMax => 0x048
  | .trigMaxCnt => 0x050
  | .matchCnt => 0x054
  | .detGen => 0x058
  | .detWin => 0x05C
  | .matchVec w => 0x060 + 4 * w
  | .mode => 0x080
  | .fill => 0x084
  | .wpos => 0x088
  | .wslot => 0x08C
  | .fifoCount => 0x090
  | .fifoHead => 0x094
  | .fifoTail => 0x098
  | .trigIndex => 0x09C
  | .finalIndex => 0x0A0
  | .lastEnq => 0x0A4
  | .gnToken => 0x0A8
  | .pretrigSlots => 0x0B0
  | .minSlots => 0x0B4
  | .bufferDelta => 0x0B8
  | .maxReadLead => 0x0BC
  | .pH => 0x0C0
  | .pW => 0x0C4
  | .pNsw => 0x0C8
  | .pNb => 0x0CC
  | .pN => 0x0D0
  | .pE => 0x0D4
  | .pFc => 0x0D8
  | .pNr => 0x0DC
  | .thrLo k => 0x400 + 16 * k
  | .thrHi k => 0x404 + 16 * k
  | .thrCtl k => 0x408 + 16 * k

/-- The registers before `MATCH_VEC`. -/
def controlCsrs : List Csr :=
  [.id, .cmd, .resp, .status, .fault, .gen, .hfPtr, .hfBytes, .proc, .sclCorr, .ovlThr, .gainState,
    .gainMin, .gainMax, .trigMaxCnt, .matchCnt, .detGen, .detWin]

/-- The registers of the ring and the build parameters. -/
def ringCsrs : List Csr :=
  [.mode, .fill, .wpos, .wslot, .fifoCount, .fifoHead, .fifoTail, .trigIndex, .finalIndex, .lastEnq,
    .gnToken, .pretrigSlots, .minSlots, .bufferDelta, .maxReadLead, .pH, .pW, .pNsw, .pNb, .pN, .pE,
    .pFc, .pNr]

/-- The registers that every build has. -/
def fixedCsrs : List Csr := controlCsrs ++ (List.range 8).map .matchVec ++ ringCsrs

/-- The registers of the threshold table (R44). -/
def thresholdCsrs (b : Build) : List Csr :=
  (List.range b.nb).flatMap fun k => [.thrLo k, .thrHi k, .thrCtl k]

/-- The registers of a build, in the order of R47. -/
def csrs (b : Build) : List Csr := fixedCsrs ++ thresholdCsrs b

theorem mem_thresholdCsrs {b : Build} {r : Csr} :
    r ∈ thresholdCsrs b ↔ ∃ k < b.nb, r = .thrLo k ∨ r = .thrHi k ∨ r = .thrCtl k := by
  simp [thresholdCsrs]

/-- A threshold register of the map is of a bucket of the build (R44, R226). -/
theorem lt_nb_of_mem_csrs {b : Build} {r : Csr} {k : Nat} (h : r ∈ csrs b)
    (hr : r = .thrLo k ∨ r = .thrHi k ∨ r = .thrCtl k) : k < b.nb := by
  have hfixed : r ∉ fixedCsrs := by
    rcases hr with rfl | rfl | rfl <;> simp [fixedCsrs, controlCsrs, ringCsrs]
  obtain ⟨j, hj, hrj⟩ := mem_thresholdCsrs.1 ((List.mem_append.1 h).resolve_left hfixed)
  rcases hr with rfl | rfl | rfl <;> simp_all

/-- The address map places each register of the build at its offset, and nothing else (R47, R48). -/
theorem csrAt_eq_some_iff {b : Build} {off : Nat} {r : Csr} :
    csrAt b off = some r ↔ r ∈ csrs b ∧ r.offset = off := by
  constructor
  · intro h
    unfold csrAt at h
    split at h
    case h_50 =>
      obtain ⟨k, hk, ⟨rfl, rfl⟩ | ⟨rfl, rfl⟩ | ⟨rfl, rfl⟩⟩ := thresholdAt_some h
      all_goals exact ⟨List.mem_append_right _ (mem_thresholdCsrs.2 ⟨k, hk, by simp⟩), rfl⟩
    all_goals
      obtain rfl := Option.some.inj h
      exact ⟨List.mem_append_left _ (by decide), rfl⟩
  · rintro ⟨hr, rfl⟩
    rcases List.mem_append.1 hr with hr | hr
    · have hall : fixedCsrs.map (fun r => csrAt b r.offset) = fixedCsrs.map some := rfl
      exact List.map_inj_left.1 hall r hr
    · obtain ⟨k, hk, hr⟩ := mem_thresholdCsrs.1 hr
      obtain ⟨hlo, hhi, hctl⟩ := csrAt_threshold hk
      rcases hr with rfl | rfl | rfl <;> assumption

/-- Every register is in the address space of the registers (R81). -/
theorem offset_lt_of_mem_csrs {b : Build} (hb : b.wf = true) {r : Csr} (h : r ∈ csrs b) :
    r.offset < 2 ^ 28 := by
  obtain ⟨-, ⟨-, -, hnb⟩, -⟩ := Build.bounds hb
  rcases List.mem_append.1 h with h | h
  · have hall : ∀ r ∈ fixedCsrs, r.offset < 0x400 := by decide
    have := hall r h
    omega
  · obtain ⟨k, hk, rfl | rfl | rfl⟩ := mem_thresholdCsrs.1 h
    all_goals simp only [Csr.offset]; omega

/-- The fields of `STATUS` at their bits (R26). -/
theorem statusWord_eq (s : State) :
    statusWord s = .ofNat 32
      (s.acq.hfReady.toNat + s.trigFlag.toNat * 2 ^ 1 + s.det.busy.toNat * 2 ^ 2 +
        s.ring.isTriggered.toNat * 2 ^ 3 + s.ring.gatedReading.toNat * 2 ^ 4 +
        s.ring.recDone.toNat * 2 ^ 5 + s.ring.rdActive.toNat * 2 ^ 6 +
        (s.fault.fifoOvf || s.fault.lifetime).toNat * 2 ^ 7 + s.sticky.ovl.toNat * 2 ^ 8 +
        s.sticky.errCmd.toNat * 2 ^ 9 + s.sticky.errState.toNat * 2 ^ 10 +
        s.sticky.errBus.toNat * 2 ^ 11) := by
  simp only [statusWord, statusBits, packBits, State.halted]
  refine congrArg (BitVec.ofNat 32) ?_
  omega

/-- The fields of `FAULT` at their bits (R27). -/
theorem faultWord_eq (s : State) :
    faultWord s = .ofNat 32 (s.fault.fifoOvf.toNat + s.fault.lifetime.toNat * 2) := by
  simp only [faultWord, packBits]
  refine congrArg (BitVec.ofNat 32) ?_
  omega

/-- A word of `MATCH_VEC` in numbers (R35). -/
theorem csrRead_matchVec (s : State) (w : Nat) :
    csrRead s (.matchVec w) = .ofNat 32 (s.det.matchVec.toNat / 2 ^ (32 * w)) := by
  rw [← Nat.shiftRight_eq_div_pow]
  rfl

/-- The map of R47 lists the registers of the build at their offsets, each with what a read answers (R23
to R46). -/
theorem csrMap_eq (s : State) :
    csrMap s = (csrs s.build).map fun r => (r.offset, csrRead s r) := by
  simp only [csrMap, csrs, fixedCsrs, List.map_append]
  refine congrArg₂ (· ++ ·) (congrArg₂ (· ++ ·) (congrArg₂ (· ++ ·) ?control ?matchVec) ?ring)
    ?thresholds
  case control =>
    simp only [controlCsrs, List.map_cons, List.map_nil, Csr.offset, csrRead, BitVec.ofNat_toNat,
      statusWord_eq, faultWord_eq, Nat.add_comm (_ * 256)]
    rfl
  case matchVec =>
    rw [List.map_map]
    exact List.map_congr_left fun w _ => by simp only [Function.comp, Csr.offset, csrRead_matchVec]
  case ring =>
    simp only [ringCsrs, List.map_cons, List.map_nil, Csr.offset, csrRead, BitVec.ofNat_toNat,
      slotOf_nat]
    rfl
  case thresholds =>
    rw [thresholdCsrs, List.map_flatMap]
    rfl

/-- The map of R47 holds an offset and a word exactly when the word is what a read of the register at that
offset answers. -/
theorem mem_csrMap {s : State} {off : Nat} {v : Word} :
    (off, v) ∈ csrMap s ↔ ∃ r, csrAt s.build off = some r ∧ csrRead s r = v := by
  simp only [csrMap_eq, List.mem_map, Prod.mk.injEq, csrAt_eq_some_iff, and_assoc]

/-! ## Bus reads (R150) -/

/-- A read of a target answers its datum, counts its draws and does nothing else (R150). -/
theorem exec_busRd_target {s : State} {addr : Word} {t : Target} (h : targetOf s.build addr = some t) :
    exec (.busRd addr) s = .next { s with
      env := { s.env with
        draws := (readTarget s t).2
        reads := s.env.reads ++ [⟨s.env.grant, addr, (readTarget s t).1⟩] } } := by
  show Host.Outcome.next (busRdRule addr s) = _
  simp only [busRdRule, h]
  rfl

/-- A read of no target answers 0 and sets `ERR_BUS` (R150, R326). -/
theorem exec_busRd_none {s : State} {addr : Word} (h : targetOf s.build addr = none) :
    exec (.busRd addr) s = .next { s with
      sticky := { s.sticky with errBus := true }
      env := { s.env with reads := s.env.reads ++ [⟨s.env.grant, addr, 0⟩] } } := by
  show Host.Outcome.next (busRdRule addr s) = _
  simp only [busRdRule, h]
  rfl

/-- A read of a 16-bit element answers it zero-extended, any value where it was never written (R84,
R90). -/
theorem exec_busRd_element16 {s : State} {addr : Word} {t : Target} {m : Memory} {i : Nat}
    (h : targetOf s.build addr = some t) (ht : readTarget s t = wide (m.fetch16 i s.env.draws)) :
    ∃ (v : Half) (d : Nat),
      exec (.busRd addr) s = .next { s with
        env := { s.env with
          draws := d, reads := s.env.reads ++ [⟨s.env.grant, addr, .ofNat 32 v.toNat⟩] } } ∧
        ∀ x, m.read16 i = some x → v = x ∧ d = s.env.draws := by
  refine ⟨(m.fetch16 i s.env.draws).1, (m.fetch16 i s.env.draws).2, ?_, fun x hx => ?_⟩
  · rw [exec_busRd_target h, ht, BitVec.ofNat_toNat]
    rfl
  · rw [Memory.fetch16_written hx]
    exact ⟨rfl, rfl⟩

/-- A named element is in range (R83). -/
theorem inRange_of_elementAt {width size off : Nat} {f : Nat → Target} {t : Target}
    (h : (elementAt width size off).map f = some t) : inRange width size off := by
  by_contra hout
  have hnone : elementAt width size off = none := if_neg hout
  rw [hnone] at h
  exact nomatch h

/-- A read that reaches a target is one that R326 does not name (R150). -/
theorem goodRead_of_targetOf {s : State} {addr : Word} {t : Target}
    (h : targetOf s.build addr = some t) : goodRead s addr := by
  unfold goodRead
  split
  case h_1 hspace =>
    rw [targetOf_of_space_csr _ hspace, Option.map_eq_some_iff] at h
    obtain ⟨r, hr, -⟩ := h
    exact ⟨csrRead s r, mem_csrMap.2 ⟨r, hr, rfl⟩⟩
  case h_2 hspace =>
    rw [targetOf_of_space_raw _ hspace] at h
    exact inRange_of_elementAt h
  case h_3 hspace =>
    rw [targetOf_of_space_hf _ hspace] at h
    exact inRange_of_elementAt h
  case h_4 hspace =>
    rw [targetOf_of_space_slot _ hspace] at h
    exact inRange_of_elementAt h
  case h_5 hspace =>
    rw [targetOf_of_space_fifo _ hspace] at h
    exact inRange_of_elementAt h
  case h_6 =>
    have hnone : spaceOf addr = none := by
      unfold spaceOf
      rw [(slice_parts addr).1]
      split
      case h_6 => rfl
      all_goals contradiction
    simp only [targetOf, hnone, reduceCtorEq] at h

/-- A read that R326 names reaches no target. -/
theorem targetOf_of_not_goodRead {s : State} {addr : Word} (h : ¬ goodRead s addr) :
    targetOf s.build addr = none :=
  Option.eq_none_iff_forall_ne_some.2 fun _ ht => h (goodRead_of_targetOf ht)

/-- Settles O55: each register and each element is the target at its address, and a read that R326 names
has none. -/
theorem busReadAnswers : Obligations.BusReadAnswers := by
  intro s hb
  obtain ⟨⟨-, hh⟩, -, -, -, ⟨-, hne⟩, ⟨-, hfc⟩, -⟩ := Build.bounds hb
  refine ⟨fun _ => rfl, fun off v hv => ?register, fun i hi => ?raw, fun i hi => ?hf,
    fun i hi => ?slot, fun i hi => ?fifo, fun addr hbad => ?bad⟩
  case register =>
    obtain ⟨r, hr, rfl⟩ := mem_csrMap.1 hv
    obtain ⟨hmem, rfl⟩ := csrAt_eq_some_iff.1 hr
    have htarget := targetOf_csr s.build (offset_lt_of_mem_csrs hb hmem)
    rw [hr] at htarget
    exact exec_busRd_target htarget
  case raw => exact exec_busRd_element16 (targetOf_raw _ hi hh) rfl
  case hf => exact exec_busRd_element16 (targetOf_hf _ hi hh) rfl
  case slot => exact exec_busRd_element16 (targetOf_slot _ hi hne) rfl
  case fifo =>
    refine ⟨_, _, exec_busRd_target (targetOf_fifo _ hi hfc), fun x hx => ?_⟩
    rw [readTarget, Memory.fetch32_written hx]
    exact ⟨rfl, rfl⟩
  case bad => exact exec_busRd_none (targetOf_of_not_goodRead hbad)

/-! ## Bus writes of raw samples (R151) -/

/-- Space 1 holds the addresses from `2^28` on (R81). -/
theorem toNat_of_spaceOf_raw {addr : Word} (h : spaceOf addr = some .raw) :
    addr.toNat = 0x10000000 + offsetOf addr := by
  unfold spaceOf at h
  unfold offsetOf
  rw [(slice_parts addr).1] at h
  rw [(slice_parts addr).2]
  split at h
  case h_2 hone => omega
  all_goals cases h

/-- Settles O56: the write stores the element's two bytes, and no other address names one of them. -/
theorem rawWriteStoresElement : Obligations.RawWriteStoresElement := by
  intro s i data hb hi
  refine ⟨s.mem.raw.write16 i (data.setWidth 16), exec_busWr_raw data hb hi,
    Memory.read16_write16_same _ _ _, fun addr hlow hhigh => ?_⟩
  unfold byteAt
  cases hspace : spaceOf addr with
  | none => rfl
  | some space =>
    cases space with
    | raw =>
      refine Memory.readByte_write16_other _ _ fun hsame => ?_
      have haddr := toNat_of_spaceOf_raw hspace
      have hself : addr = .ofNat 32 (0x10000000 + offsetOf addr) := by
        rw [← haddr, BitVec.ofNat_toNat, BitVec.setWidth_eq]
      rcases Nat.mod_two_eq_zero_or_one (offsetOf addr) with heven | hodd
      · exact hlow (hself.trans (by congr 1; omega))
      · exact hhigh (hself.trans (by congr 1; omega))
    | _ => rfl

/-! ## Bus writes of registers (R40 to R45, R49, R151) -/

/-- The width of a read-write register's field (R40 to R45); the other registers have none. -/
def Csr.fieldWidth : Csr → Option Nat
  | .sclCorr => some 16
  | .ovlThr => some 16
  | .gainMin => some 8
  | .gainMax => some 8
  | .trigMaxCnt => some 16
  | .pretrigSlots => some 16
  | .minSlots => some 16
  | .bufferDelta => some 16
  | .maxReadLead => some 16
  | .thrLo _ => some 32
  | .thrHi _ => some 32
  | .thrCtl _ => some 1
  | _ => none

/-- The registers with a field are the read-write ones (R49). -/
theorem access_of_fieldWidth {r : Csr} {width : Nat} (h : r.fieldWidth = some width) :
    r.access = .rw := by
  cases r with
  | sclCorr | ovlThr | gainMin | gainMax | trigMaxCnt | pretrigSlots | minSlots | bufferDelta
  | maxReadLead | thrLo | thrHi | thrCtl => rfl
  | _ => exact nomatch h

/-- The fields of R40 to R45 are those of the map's registers, in its order. -/
theorem rwFields_eq (b : Build) :
    rwFields b = (csrs b).filterMap fun r => r.fieldWidth.map (r.offset, ·) := by
  simp only [rwFields, csrs, thresholdCsrs, List.filterMap_append, List.filterMap_flatMap]
  rfl

/-- A field of R40 to R45 is that of a register of the map. -/
theorem exists_csr_of_mem_rwFields {b : Build} {off width : Nat} (h : (off, width) ∈ rwFields b) :
    ∃ r ∈ csrs b, r.offset = off ∧ r.fieldWidth = some width := by
  rw [rwFields_eq, List.mem_filterMap] at h
  obtain ⟨r, hr, hfield⟩ := h
  obtain ⟨width', hwidth, heq⟩ := Option.map_eq_some_iff.1 hfield
  obtain ⟨rfl, rfl⟩ := Prod.mk.inj heq
  exact ⟨r, hr, rfl, hwidth⟩

/-- A narrow field read back zero-extended is the low bits of the word (R49). -/
theorem setWidth_setWidth_eq_ofNat_mod (v : Word) {n : Nat} :
    (v.setWidth n).setWidth 32 = .ofNat 32 (v.toNat % 2 ^ n) := by
  rw [← BitVec.ofNat_toNat, BitVec.toNat_setWidth]

/-- The lowest bit as a number (R12). -/
theorem toNat_getLsbD_zero (v : Word) : (v.getLsbD 0).toNat = v.toNat % 2 ^ 1 := by
  rw [BitVec.getLsbD, Nat.toNat_testBit, Nat.pow_zero, Nat.div_one, Nat.pow_one]

/-- A read-write register just written reads as the field of the word (R49, R151). -/
theorem csrRead_csrStore_same {s : State} {r : Csr} {width : Nat} (v : Word)
    (hlen : s.det.thr.length = s.build.nb) (hr : r ∈ csrs s.build) (hwidth : r.fieldWidth = some width) :
    csrRead (csrStore v s r) r = .ofNat 32 (v.toNat % 2 ^ width) := by
  have hbucket {k : Nat} (hk : r = .thrLo k ∨ r = .thrHi k ∨ r = .thrCtl k) :
      k < s.det.thr.length := hlen ▸ lt_nb_of_mem_csrs hr hk
  have hword : BitVec.ofNat 32 (v.toNat % 2 ^ 32) = v := by
    rw [Nat.mod_eq_of_lt v.isLt, BitVec.ofNat_toNat, BitVec.setWidth_eq]
  cases r with
  | sclCorr | ovlThr | gainMin | gainMax | trigMaxCnt | pretrigSlots | minSlots | bufferDelta
  | maxReadLead =>
    obtain rfl := Option.some.inj hwidth
    exact setWidth_setWidth_eq_ofNat_mod v
  | thrLo k | thrHi k =>
    obtain rfl := Option.some.inj hwidth
    have hin : k < s.det.thr.length := hbucket (by simp)
    simp only [csrRead, csrStore, thrEntry_setThr _ hin, hword]
  | thrCtl k =>
    obtain rfl := Option.some.inj hwidth
    have hin : k < s.det.thr.length := hbucket (by simp)
    simp only [csrRead, csrStore, thrEntry_setThr _ hin, toNat_getLsbD_zero]
  | _ => exact nomatch hwidth

/-- Another entry of the table is kept (R44). -/
theorem thrEntry_setThr_other {s : State} {k j : Nat} (t : Threshold) (h : j ≠ k) :
    thrEntry (setThr s k t) j = thrEntry s j := by
  simp [thrEntry, setThr, List.getD_eq_getElem?_getD, List.getElem?_set_ne h.symm]

/-- What a new entry has in common with the one it replaces, the table keeps (R44). -/
theorem thrEntry_setThr_congr {α : Type} (f : Threshold → α) {s : State} {k : Nat} {t : Threshold}
    (h : f t = f (thrEntry s k)) (j : Nat) : f (thrEntry (setThr s k t) j) = f (thrEntry s j) := by
  by_cases hin : k < s.det.thr.length
  · by_cases hj : j = k
    · rw [hj, thrEntry_setThr t hin, h]
    · rw [thrEntry_setThr_other t hj]
  · simp only [thrEntry, setThr, List.set_eq_of_length_le (Nat.le_of_not_lt hin)]

/-- A write to a register leaves what every other one reads as (R49, R151): a register of its own field
is read by no other, and of a threshold entry each write keeps the words that it does not write. -/
theorem csrRead_csrStore_other (v : Word) (s : State) {r q : Csr} (h : q ≠ r) :
    csrRead (csrStore v s r) q = csrRead s q := by
  have hlo {k : Nat} {t : Threshold} (ht : t.lo = (thrEntry s k).lo) (j : Nat) :
      csrRead (setThr s k t) (.thrLo j) = csrRead s (.thrLo j) :=
    thrEntry_setThr_congr Threshold.lo ht j
  have hhi {k : Nat} {t : Threshold} (ht : t.hi = (thrEntry s k).hi) (j : Nat) :
      csrRead (setThr s k t) (.thrHi j) = csrRead s (.thrHi j) :=
    thrEntry_setThr_congr Threshold.hi ht j
  have hctl {k : Nat} {t : Threshold} (ht : t.en = (thrEntry s k).en) (j : Nat) :
      csrRead (setThr s k t) (.thrCtl j) = csrRead s (.thrCtl j) :=
    congrArg (fun en : Bool => BitVec.ofNat 32 en.toNat) (thrEntry_setThr_congr Threshold.en ht j)
  cases r with
  | sclCorr | ovlThr | gainMin | gainMax | trigMaxCnt | pretrigSlots | minSlots | bufferDelta
  | maxReadLead => cases q <;> trivial
  | thrLo k =>
    cases q with
    | thrLo j =>
      have hne : j ≠ k := fun hj => h (congrArg Csr.thrLo hj)
      simp only [csrRead, csrStore, thrEntry_setThr_other _ hne]
    | thrHi j => exact hhi (by rfl) j
    | thrCtl j => exact hctl (by rfl) j
    | _ => rfl
  | thrHi k =>
    cases q with
    | thrLo j => exact hlo (by rfl) j
    | thrHi j =>
      have hne : j ≠ k := fun hj => h (congrArg Csr.thrHi hj)
      simp only [csrRead, csrStore, thrEntry_setThr_other _ hne]
    | thrCtl j => exact hctl (by rfl) j
    | _ => rfl
  | thrCtl k =>
    cases q with
    | thrLo j => exact hlo (by rfl) j
    | thrHi j => exact hhi (by rfl) j
    | thrCtl j =>
      have hne : j ≠ k := fun hj => h (congrArg Csr.thrCtl hj)
      simp only [csrRead, csrStore, thrEntry_setThr_other _ hne]
    | _ => rfl
  | _ => rfl

/-- Settles O57: the register at the offset reads as the field stored, and each other offset is another
register's. -/
theorem registerWriteStoresField : Obligations.RegisterWriteStoresField := by
  intro s off width data hb hrun hlen hmem
  obtain ⟨r, hin, rfl, hwidth⟩ := exists_csr_of_mem_rwFields hmem
  have hr : csrAt s.build r.offset = some r := csrAt_eq_some_iff.2 ⟨hin, rfl⟩
  have hexec := exec_busWr_register data hrun (offset_lt_of_mem_csrs hb hin) hr
    (access_of_fieldWidth hwidth)
  have hbuild : (csrStore data s r).build = s.build := by rw [csrStore_frame]
  refine ⟨csrStore data s r, hexec, ?stored, fun off' v hne => ?others, ?mem, ?env, hbuild⟩
  case stored =>
    exact mem_csrMap.2 ⟨r, by rw [hbuild, hr], csrRead_csrStore_same data hlen hin hwidth⟩
  case others =>
    have hkept {q : Csr} (hq : csrAt s.build off' = some q) :
        csrRead (csrStore data s r) q = csrRead s q := by
      refine csrRead_csrStore_other data s fun heq => hne ?_
      rw [← (csrAt_eq_some_iff.1 hq).2, heq]
    rw [mem_csrMap, mem_csrMap, hbuild]
    exact exists_congr fun q => and_congr_right fun hq => by rw [hkept hq]
  case mem => rw [csrStore_frame]
  case env => rw [csrStore_frame]

/-! ## System commands (R152, R153) -/

/-- Settles O1: the rule of `NOP` behind the halted test (R152, R154). -/
theorem nopWritesOnlyResp : Obligations.NopWritesOnlyResp := by
  refine ⟨rfl, decodeAfterEncode .nop rfl, fun s => ?_⟩
  show Host.Outcome.next (command nopRule s) = _
  cases hh : s.halted with
  | true => rw [command_halted _ hh, if_pos rfl]
  | false =>
    rw [command_running _ hh]
    rfl

/-- A threshold of the reset table is the reset threshold, in the table or beyond it (R44). -/
theorem thrEntry_reset (b : Build) (k : Nat) :
    (DetUnit.reset b).thr.getD k Threshold.reset = Threshold.reset := by
  simp only [DetUnit.reset, List.getD_eq_getElem?_getD, List.getElem?_replicate]
  split <;> rfl

/-- The registers after reset read as the `reset` column of R47 (R60, R360). -/
theorem csrMap_resetOf {b : Build} (env : Env) (hb : b.wf = true) :
    csrMap (State.resetOf b env) = resetColumn b := by
  obtain ⟨-, -, -, -, -, -, -, hnr⟩ := Build.bounds hb
  have hmax : (BitVec.ofNat 8 (b.nr - 1)).toNat = b.nr - 1 := toNat_ofNat8 (by omega)
  refine congrArg₂ (· ++ ·) ?fixed ?thresholds
  case fixed =>
    simp only [State.resetOf, AcqUnit.reset, GainUnit.reset, DetUnit.reset, RingUnit.reset, hmax,
      Bool.toNat_false, Bool.or_self, Nat.zero_mul, Nat.add_zero]
    rfl
  case thresholds =>
    simp only [State.resetOf, thrEntry_reset]
    rfl

/-- Settles O2: `SYS.RESET` is the reset of R360, halted or not. -/
theorem sysResetGivesResetColumn : Obligations.SysResetGivesResetColumn := by
  refine ⟨rfl, fun s hb => ⟨s.resetCore, rfl, csrMap_resetOf s.env hb, rfl, rfl, fun a => ?_⟩⟩
  exact ⟨rfl, rfl, rfl, rfl⟩

end Sys2Proof.Machine

/-!
PROOFS. The statements of the Gain Controller (41_gain.md): the limits, the two selecting commands
(O4, O5), the two steps and what they leave of a trigger decision (O6, O8), the queries (O7).
-/

namespace Sys2Proof.Machine

/-! ## The limits (R171) -/

/-- From 0 on, only the upper bound clamps (R13). -/
theorem clamp_zero (x hi : Nat) : clamp x 0 hi = min x hi := Nat.zero_max _

/-- `ClampRange` clamps to the limits, the lower one last, and then to the table. -/
theorem clampRange_eq (s : State) (x : Nat) :
    clampRange s x =
      min (max s.gain.min.toNat (min x s.gain.max.toNat)) (s.build.nr - 1) :=
  clamp_zero _ _

/-- `LO` is the lower limit, clamped to the table. -/
theorem rangeLo_eq (s : State) : rangeLo s = min s.gain.min.toNat (s.build.nr - 1) := by
  rw [rangeLo, clampRange_eq, Nat.zero_min, Nat.max_zero]

/-- `HI` is the upper limit, but not below the lower one, clamped to the table. -/
theorem rangeHi_eq (s : State) :
    rangeHi s = min (max s.gain.min.toNat s.gain.max.toNat) (s.build.nr - 1) := by
  have hmax : s.gain.max.toNat ≤ 255 := Nat.le_of_lt_succ s.gain.max.isLt
  rw [rangeHi, clampRange_eq, Nat.min_eq_right hmax]

theorem rangeLo_le_rangeHi (s : State) : rangeLo s ≤ rangeHi s := by
  rw [rangeLo_eq, rangeHi_eq]
  exact min_le_min_right _ (le_max_left _ _)

/-! ## Selecting a range (R172, R173) -/

/-- Selecting a range stores it with the flag, answers it, and sends twice the code of the row that is
then effective. -/
theorem selectRange_of_le (s : State) {r : Nat} (hr : r ≤ 255) (dis : Bool) :
    selectRange s r dis = { s with
      gain := { s.gain with range := .ofNat 8 r, dis := dis }
      resp := .ofNat 32 r
      env := { s.env with
        trace := s.env.trace ++
          [.gainCmd (gainRow s.build (if dis then s.build.nr else r)).code,
            .gainCmd (gainRow s.build (if dis then s.build.nr else r)).code] } } := by
  have hresp : (BitVec.ofNat 8 r).setWidth 32 = BitVec.ofNat 32 r :=
    BitVec.setWidth_ofNat_of_le_of_lt (by decide) (by omega)
  simp only [selectRange, gainEmit_eq, setDisabled, setRange, State.setResp, erow, toNat_ofNat8 hr,
    hresp]

/-- Settles O4: the selected range is `ClampRange`'s, which fits in a byte. -/
theorem gainSetClampsAndSends : Obligations.GainSetClampsAndSends := by
  intro s range dis
  refine ⟨congrArg (BusOp.wr cmdAddr <| .ofNat 32 ·) (Nat.add_assoc _ _ _).symm, fun hrun => ?_⟩
  rw [← clampRange_eq, exec_command (.gainSet range dis) hrun nofun nofun]
  exact congrArg _ (selectRange_of_le s (clampRange_le s range.toNat) dis)

/-- `r` is the smallest of the ranges nearest to `db` among those from `lo` on and below `n` (R173). -/
structure Nearest (b : Build) (db : Half) (lo n r : Nat) : Prop where
  lo_le : lo ≤ r
  lt : r < n
  le_all : ∀ q, lo ≤ q → q < n → dbDistance b db r ≤ dbDistance b db q
  lt_before : ∀ q, lo ≤ q → q < r → dbDistance b db r < dbDistance b db q

theorem Nearest.single (b : Build) (db : Half) (lo : Nat) : Nearest b db lo (lo + 1) lo where
  lo_le := le_rfl
  lt := Nat.lt_succ_self lo
  le_all q hlo hlt := by rw [show q = lo by omega]
  lt_before q hlo hlt := absurd hlt (by omega)

/-- One range more: it is taken if it is strictly nearer than the best so far. -/
theorem Nearest.step {b : Build} {db : Half} {lo n best : Nat} (h : Nearest b db lo n best) :
    Nearest b db lo (n + 1) (if dbDistance b db n < dbDistance b db best then n else best) := by
  obtain ⟨hlo, hlt, hall, hbefore⟩ := h
  split
  next hnearer =>
    exact ⟨by omega, by omega,
      fun q hq hqn => (Nat.lt_succ_iff_lt_or_eq.1 hqn).elim
        (fun hqn => (hnearer.trans_le (hall q hq hqn)).le) (fun hqn => by rw [hqn]),
      fun q hq hqn => hnearer.trans_le (hall q hq hqn)⟩
  next hfarther =>
    exact ⟨hlo, by omega,
      fun q hq hqn => (Nat.lt_succ_iff_lt_or_eq.1 hqn).elim
        (hall q hq) (fun hqn => by rw [hqn]; exact Nat.le_of_not_lt hfarther),
      hbefore⟩

/-- The search keeps the smallest nearest range of those it has passed. -/
theorem Nearest.search {b : Build} {db : Half} {lo best r : Nat} (h : Nearest b db lo r best)
    (n : Nat) : Nearest b db lo (r + n) (nearestFrom b db best r n) := by
  induction n generalizing best r with
  | zero => exact h
  | succ n ih =>
    rw [Nat.add_comm n 1, ← Nat.add_assoc, Nat.add_comm 1 n]
    exact ih h.step

/-- `GAIN.SETDB` finds the smallest nearest range within `LO..HI` (R173). -/
theorem nearestRange_nearest (s : State) (db : Half) :
    Nearest s.build db (rangeLo s) (rangeHi s + 1) (nearestRange s db) := by
  obtain ⟨k, hk⟩ := Nat.exists_eq_add_of_le (rangeLo_le_rangeHi s)
  have hlen : rangeHi s + 1 - rangeLo s = k + 1 := by omega
  have hend : rangeHi s + 1 = rangeLo s + 1 + k := by omega
  rw [nearestRange, hlen, hend, nearestFrom, ite_self]
  exact (Nearest.single s.build db (rangeLo s)).search k

/-- Settles O5: the search of R173 selects the smallest nearest range. -/
theorem gainSetdbPicksNearest : Obligations.GainSetdbPicksNearest := by
  intro s db dis
  refine ⟨congrArg (BusOp.wr cmdAddr <| .ofNat 32 ·) (Nat.add_assoc _ _ _).symm, fun hrun => ?_⟩
  rw [← rangeLo_eq, ← rangeHi_eq]
  obtain ⟨hlo, hlt, hall, hbefore⟩ := nearestRange_nearest s db
  have hbyte : nearestRange s db ≤ 255 := (Nat.lt_succ_iff.1 hlt).trans (clampRange_le s 255)
  refine ⟨nearestRange s db, hlo, Nat.lt_succ_iff.1 hlt,
    fun q hq hqhi => hall q hq (Nat.lt_succ_of_le hqhi), hbefore, ?_⟩
  rw [exec_command (.gainSetdb db dis) hrun nofun nofun]
  exact congrArg _ (selectRange_of_le s hbyte dis)

/-! ## Stepping the range (R174, R175) -/

/-- A step to range `r` stores it, answers 1, and sends twice the code of the row that is then
effective. -/
theorem setResp_gainEmit_setRange (s : State) {n : Nat} {r : Byte} (hr : BitVec.ofNat 8 n = r) :
    (gainEmit (setRange s n)).setResp 1 = { s with
      gain := { s.gain with range := r }
      resp := 1
      env := { s.env with
        trace := s.env.trace ++
          [.gainCmd (gainRow s.build (if s.gain.dis then s.build.nr else r.toNat)).code,
            .gainCmd (gainRow s.build (if s.gain.dis then s.build.nr else r.toNat)).code] } } := by
  subst hr
  simp only [gainEmit_eq, setRange, State.setResp, erow]

/-- The range above the active one, as a byte. -/
theorem ofNat_toNat_add_one (r : Byte) : BitVec.ofNat 8 (r.toNat + 1) = r + 1 := by
  bv_omega

/-- The range below the active one, as a byte. -/
theorem ofNat_toNat_sub_one {r : Byte} (h : 0 < r.toNat) : BitVec.ofNat 8 (r.toNat - 1) = r - 1 := by
  bv_omega

/-- Settles O6: each step tests its own limit and moves by one range or not at all. -/
theorem gainStepsSaturate : Obligations.GainStepsSaturate := by
  refine ⟨rfl, rfl, fun s hrun => ?_⟩
  rw [← rangeLo_eq, ← rangeHi_eq, exec_command .gainUp hrun nofun nofun,
    exec_command .gainDown hrun nofun nofun]
  refine ⟨congrArg _ ?up, congrArg _ ?down⟩
  case up =>
    exact ite_congr rfl
      (fun _ => setResp_gainEmit_setRange s (ofNat_toNat_add_one s.gain.range)) (fun _ => rfl)
  case down =>
    exact ite_congr rfl
      (fun hlo => setResp_gainEmit_setRange s (ofNat_toNat_sub_one (Nat.zero_lt_of_lt hlo)))
      (fun _ => rfl)

/-- Half the gain in the present range is made up for by four times the power (R236). -/
theorem reaches_halved {gain gain' : Nat} (h : gain' * 2 = gain) (power gm thr : Nat) :
    reaches power gm thr gain' = reaches (4 * power) gm thr gain := by
  have hthr : thr * gain ^ 2 = 4 * (thr * gain' ^ 2) := by rw [← h]; ring
  simp only [reaches, hthr, Nat.mul_assoc, Nat.mul_le_mul_left_iff (show 0 < 4 by decide)]

/-- Settles O8: the range above has half the linear gain, and the table's maximum is the same. -/
theorem gainStepKeepsDecision : Obligations.GainStepKeepsDecision := by
  intro s hrun hdis hhalving hbelow
  have hrange : (BitVec.ofNat 8 (s.gain.range.toNat + 1)).toNat = s.gain.range.toNat + 1 :=
    toNat_ofNat8 (Nat.succ_le_of_lt hbelow |>.trans (clampRange_le s 255))
  have hlast : s.gain.range.toNat + 1 < s.build.nr := by rw [rangeHi_eq] at hbelow; omega
  have hmove : gainUpRule s = (gainEmit (setRange s (s.gain.range.toNat + 1))).setResp 1 :=
    if_pos hbelow
  refine ⟨_, (exec_command .gainUp hrun nofun nofun).trans (congrArg _ hmove),
    ofNat_toNat_add_one s.gain.range, fun p q thr hq => congrArg (thr.armed && ·) ?_⟩
  have hbefore : erow s = s.gain.range.toNat := if_neg (by simp [hdis])
  have hafter : erow ((gainEmit (setRange s (s.gain.range.toNat + 1))).setResp 1) =
      s.gain.range.toNat + 1 :=
    (if_neg (by simp [gainEmit, setRange, hdis])).trans hrange
  rw [hbefore, hafter, hq]
  exact reaches_halved (hhalving _ hlast) ..

/-! ## The queries (R176 to R179) -/

/-- Settles O7: each query's rule is a table lookup behind `RESP`. -/
theorem gainQueriesAnswerTables : Obligations.GainQueriesAnswerTables := by
  refine ⟨⟨rfl, rfl, fun r => ⟨rfl, rfl⟩⟩, fun s range hrun => ?_⟩
  rw [exec_command .gainGetdb hrun nofun nofun, exec_command .gainGetshift hrun nofun nofun,
    exec_command (.gainForrange range) hrun nofun nofun,
    exec_command (.gainShiftfor range) hrun nofun nofun, ← clamp_zero]
  simp only [BitVec.ofNat_toNat]
  exact ⟨rfl, rfl, rfl, rfl⟩

end Sys2Proof.Machine

/-!
PROOFS. The statements of the Sample Acquirer (42_acquire.md): `GEN` along a run (O19), the scaler and
the narrowing (O11, O12), `HF.READY` (O10) and `PROC.SET` (O9).
-/

namespace Sys2Proof.Machine

/-! ## `GEN` along a run that is not halted (R28, R195) -/

/-- Only a reset leads out of the halted state (R322). -/
theorem exec_halted_of_halted {i : Instr} {s t : State} (hreset : carried i ≠ .sysReset)
    (h : exec i s = .next t) (hhalt : s.halted = true) : t.halted = true := by
  obtain ⟨u, hexec, hflags, -, -⟩ := eachUnitWritesItsOwn i s hreset
  obtain rfl := Host.Outcome.next.inj (hexec.symm.trans h)
  obtain ⟨-, hovfKept⟩ := hflags.fifoOvf
  obtain ⟨-, hlifeKept⟩ := hflags.lifetime
  exact Bool.or_eq_true_iff.2 ((Bool.or_eq_true_iff.1 hhalt).imp (hovfKept rfl) (hlifeKept rfl))

/-- A run without a reset that does not end halted did not begin halted (R322). -/
theorem running_of_runOps_running {is : List Instr} (hreset : noReset is) {s : State}
    (hrun : (runOps is s).halted = false) : s.halted = false := by
  by_contra hhalt
  have hend : (runOps is s).halted = true :=
    runOps_induct (P := fun t => t.halted = true) (Bool.eq_true_of_not_eq_false hhalt)
      fun i hi _ _ ht hexec => exec_halted_of_halted (hreset i hi) hexec ht
  exact nomatch hend.symm.trans hrun

/-- A run without a reset that does not end halted performs every publication it asks for (R154). -/
theorem performedPublications_of_running {is : List Instr} (hreset : noReset is) {s : State}
    (hrun : (runOps is s).halted = false) : performedPublications is s = publications is := by
  induction is generalizing s with
  | nil => rfl
  | cons i is ih =>
    have hstart := running_of_runOps_running hreset hrun
    obtain ⟨-, his⟩ := List.forall_mem_cons.1 hreset
    obtain ⟨t, h⟩ := exec_next i s
    rw [runOps_cons _ h] at hrun
    rw [performedPublications_cons _ h, ih his hrun, publishes, hstart, publications, publications,
      List.countP_cons]
    cases isPublication (carried i) <;> simp [Nat.add_comm]

/-- Settles O19: every publication asked for is performed, and each advances `GEN` by one. -/
theorem publicationsAdvanceGen : Obligations.PublicationsAdvanceGen := by
  intro is s hreset hrun
  have hgen := runOps_gen hreset s
  rw [performedPublications_of_running hreset hrun] at hgen
  refine ⟨hgen, fun hsome hfew hsame => ?_⟩
  have hzero : BitVec.ofNat 32 (publications is) = 0 := add_eq_left.1 (hgen.symm.trans hsame)
  have hmod := congrArg BitVec.toNat hzero
  rw [BitVec.toNat_ofNat, Nat.mod_eq_of_lt hfew] at hmod
  exact hsome.ne' hmod

/-! ## The scaler and the narrowing (R192, R194) -/

/-- A difference of two raw codes, shifted left by at most 15, keeps within 65535 times `2^15` (R192). -/
theorem abs_shifted_difference_le (raw offset : Half) (shift : BitVec 4) :
    |((raw.toNat : Int) - offset.toNat) * 2 ^ shift.toNat| ≤ 65535 * 2 ^ 15 := by
  have hraw := raw.isLt
  have hoffset := offset.isLt
  have hdiff : |(raw.toNat : Int) - offset.toNat| ≤ 65535 := by
    rw [abs_le]
    omega
  have hpow : (2 : Int) ^ shift.toNat ≤ 2 ^ 15 :=
    pow_le_pow_right₀ (by decide) (Nat.le_of_lt_succ shift.isLt)
  rw [abs_mul, abs_of_nonneg (pow_nonneg (by decide : (0 : Int) ≤ 2) shift.toNat)]
  exact mul_le_mul hdiff hpow (by positivity) (by decide)

/-- Settles O11: the shifted difference and the 16-bit correction, each at its bounds. -/
theorem scalerIsExact : Obligations.ScalerIsExact := by
  intro raw offset shift corr
  obtain ⟨hlo, hhi⟩ := abs_le.1 (abs_shifted_difference_le raw offset shift)
  have hcorrLo := BitVec.le_toInt corr
  have hcorrHi := BitVec.toInt_lt (x := corr)
  refine ⟨rfl, ?_, ?_⟩ <;> simp only [scaled] <;> omega

/-- Every `NARROW` is the identity on the range of a Sample (R194). -/
theorem toInt_narrow_inRange (k : NarrowKind) {v : Int} (hlo : -32768 ≤ v) (hhi : v ≤ 32767) :
    (narrow k v).toInt = v := by
  rw [narrow_inRange k hlo hhi]
  exact BitVec.toInt_ofInt_eq_self (by decide) hlo (Int.lt_add_one_of_le hhi)

/-- The default `NARROW` keeps the low 16 bits, in range or not (R194). -/
theorem narrow_wrap (v : Int) : narrow .wrap v = .ofInt 16 v := ite_self _

/-- The saturating `NARROW` is the clamp to the range of a Sample (R194). -/
theorem toInt_narrow_saturate (v : Int) :
    (narrow .saturate v).toInt = max (-32768) (min v 32767) := by
  by_cases hin : -32768 ≤ v ∧ v ≤ 32767
  · obtain ⟨hlo, hhi⟩ := hin
    rw [toInt_narrow_inRange _ hlo hhi, min_eq_left hhi, max_eq_right hlo]
  · rw [narrow, if_neg hin]
    by_cases hneg : v < 0
    · rw [if_pos hneg, min_eq_left (by omega), max_eq_left (by omega)]
      decide
    · rw [if_neg hneg, min_eq_right (by omega)]
      decide

/-- Settles O12: in range every instance is the identity; the default wraps and the other
instance clamps every integer. -/
theorem narrowKeepsSamples : Obligations.NarrowKeepsSamples := by
  refine ⟨fun k v => toInt_narrow_inRange k, fun v => ⟨?_, toInt_narrow_saturate v⟩⟩
  rw [narrow_wrap, BitVec.toNat_ofInt]
  exact Int.toNat_of_nonneg (Int.emod_nonneg v (by decide))

/-! ## `HF.READY` (R191, R193, R195, R196) -/

/-- A Half-Frame is overloaded iff one of its scaled values lies outside the threshold (R193). -/
theorem any_overloaded (thr : Half) (vs : List Int)
    [Decidable (∃ v ∈ vs, v > thr.toNat ∨ v < -(thr.toNat : Int))] :
    vs.any (overloaded thr) = decide (∃ v ∈ vs, v > thr.toNat ∨ v < -(thr.toNat : Int)) := by
  refine Bool.eq_iff_iff.2 ?_
  simp only [List.any_eq_true, overloaded, Bool.or_eq_true, decide_eq_true_iff]

/-- The surroundings once `HF.READY` has read `RAW`, `draws` values drawn by then, and has reported an
overload or not (R90, R193). -/
def Env.afterReport (e : Env) (draws : Nat) (ovl : Bool) : Env :=
  { e with draws := draws, trace := e.trace ++ if ovl then [.ovlEvt] else [] }

/-- `HF.READY` in full: what it publishes, which overload it reports and what it hands over (R191). -/
theorem hfReadyRule_publication (half : BitVec 1) (offset : Half) (shift : BitVec 4) {s : State}
    {vs : List Int} {xs : List Half} {ovl : Bool}
    (hvs : scaleAll offset shift s (rawHalf half s).1 = vs)
    (hxs : vs.map (narrow s.build.narrow) = xs) (hovl : vs.any (overloaded s.acq.ovlThr) = ovl) :
    hfReadyRule half offset shift s =
      (handOver xs (s.afterPublication xs ovl
        (s.env.afterReport (rawHalf half s).2 ovl))).setResp 0 := by
  subst hvs hxs hovl
  simp only [hfReadyRule, reportOverload_eq, publish_eq]
  rfl

/-- A hand-over with `PROC = USB` puts the Half-Frame out (R196). -/
theorem handOver_of_usb (xs : List Half) {s : State} (h : s.acq.proc = .usb) :
    handOver xs s = s.emit (.usbOut xs) := by
  simp only [handOver, h]

/-- Settles O10: the samples are the half of `RAW` as read, `HF` is a run just written, and the three
hand-overs are those of R196. -/
theorem hfReadyPublishes : Obligations.HfReadyPublishes := by
  intro s half offset shift
  refine ⟨?_, fun hhalt => exec_publication_halted rfl hhalt, fun hrun => ?_⟩
  · simp only [encode, encodeCommand, commandWord, Option.getD_some, Nat.add_assoc]
    rfl
  refine ⟨(rawHalf half s).1, s.mem.hf.writeRun 0
    ((scaleAll offset shift s (rawHalf half s).1).map (narrow s.build.narrow)),
    (rawHalf half s).2, ?_⟩
  intro vs xs ovl p
  have hlen : xs.length = s.build.h := by simp [xs, vs, rawHalf]
  have hready : exec (.hfReady half offset shift) s = .next ((handOver xs p).setResp 0) :=
    (exec_command (.hfReady half offset shift) hrun nofun nofun).trans (congrArg Host.Outcome.next
      (hfReadyRule_publication half offset shift rfl rfl (any_overloaded _ _)))
  refine ⟨Memory.fetchRun_length .., fun i v hi hv => Memory.fetchRun_written _ _ _ _ _ hi hv,
    fun hwritten => Memory.fetchRun_draws _ _ _ _ hwritten, fun i hi => ?published,
    fun a ha => ?outside, ?handedOver⟩
  case published =>
    have hread := Memory.read16_writeRun s.mem.hf 0 i xs (hlen ▸ hi)
    rwa [Nat.zero_add] at hread
  case outside => exact Memory.readByte_writeRun_other s.mem.hf 0 a xs (.inr (by omega))
  case handedOver =>
    rw [hready]
    cases hproc : s.acq.proc with
    | none => rw [handOver_of_none xs (s := p) hproc]; rfl
    | ring => rw [handOver_of_ring xs (s := p) hproc]; rfl
    | usb => rw [handOver_of_usb xs (s := p) hproc]; rfl

/-! ## `PROC.SET` (R128, R190) -/

/-- A word that does not decode, written to `CMD` of a running core, is reported with `ERR_CMD`
(R128, R154). -/
theorem exec_undecodedWord {w : Word} {e : DecodeError} (h : decodeCommand w = .error e) {s : State}
    (hrun : s.halted = false) : exec (.busWr cmdAddr w) s = .next s.errCmd := by
  show Host.Outcome.next (busWrRule cmdAddr w s) = _
  have hperformed : ¬ (s.halted = true ∧ w ≠ sysResetWord) := by simp [hrun]
  rw [busWrRule_cmd, cmdWrite, if_neg hperformed, h]

/-- Settles O9: the rule writes `PROC` and `RESP`; the word of selector 3 does not decode. -/
theorem procSetReplacesProcessor : Obligations.ProcSetReplacesProcessor := by
  refine ⟨⟨rfl, rfl, rfl⟩, fun s hrun => ⟨fun sel => ?_, ?_⟩⟩
  · exact exec_command (.procSet sel) hrun nofun nofun
  · have hword : decodeCommand 0x20000003 = .error .illegalSelector := by decide
    exact exec_undecodedWord hword hrun

end Sys2Proof.Machine

/-!
PROOFS. The statements of the Spectral Trigger Detector (43_trigger.md): the evaluation's three commands
(O14, O15, O16), a whole evaluation (O18) and the reference power function (O22).
-/

namespace Sys2Proof.Machine

/-! ## The three commands (R221, R222, R223) -/

/-- Settles O14: the rule of `DET.BEGIN` behind the halted test. -/
theorem detBeginOpensEvaluation : Obligations.DetBeginOpensEvaluation :=
  ⟨rfl, fun _ hrun => exec_command .detBegin hrun nofun nofun⟩

/-- Settles O16: the guard on `GEN` matters only once an open evaluation has fired. -/
theorem detCommitGuardsTheRace : Obligations.DetCommitGuardsTheRace := by
  refine ⟨rfl, fun s hrun => (exec_command .detCommit hrun nofun nofun).trans
    (congrArg Host.Outcome.next ?_)⟩
  show detCommitRule s = _
  unfold detCommitRule
  by_cases hbusy : s.det.busy = false
  · simp only [if_pos hbusy]
    rfl
  · simp only [if_neg hbusy]
    cases hacc : s.det.acc with
    | false => rfl
    | true => rfl

/-- A bucket matches iff it is enabled, its threshold is finite, and the compensated comparison holds
(R222, R236). -/
theorem bucketMatch_eq (s : State) (p : BitVec 64) (t : Threshold) :
    bucketMatch s p t = (t.en && decide (t.value ≠ 2 ^ 64 - 1) &&
      decide (p.toNat * (gainRow s.build (sens s.build)).lin.toNat ^ 2 ≥
        t.value * (gainRow s.build (erow s)).lin.toNat ^ 2)) := by
  rw [bucketMatch, Threshold.armed, reaches, bne, beq_eq_decide, decide_not]

/-- `MATCH_CNT` counts the buckets that match (R222). -/
theorem matchBits_count (s : State) (p : Nat → BitVec 64) :
    (matchBits s p).count true = (List.range s.build.nb).countP
      (fun b => bucketMatch s (p b) (s.det.thr.getD b Threshold.reset)) := by
  rw [matchBits, List.count, List.countP_map]
  exact List.countP_congr fun b _ => by simp

/-- Bit `b` of `MATCH_VEC` is set iff bucket `b` exists and matches (R230). -/
theorem getLsbD_matchVec (s : State) (p : Nat → BitVec 64) {b : Nat} (hb : b < 256) :
    (BitVec.ofNat 256 (packBits (matchBits s p))).getLsbD b =
      (decide (b < s.build.nb) && bucketMatch s (p b) (s.det.thr.getD b Threshold.reset)) := by
  rw [BitVec.getLsbD_ofNat, decide_eq_true hb, Bool.true_and, testBit_packBits, matchBits]
  by_cases hnb : b < s.build.nb
  · simp [hnb]
  · simp [hnb]

/-- `DET.WIN` with a sub-window left to evaluate judges it as read (R222). -/
theorem detWinRule_open {s : State} (hbusy : s.det.busy = true) (hwin : s.det.win.toNat < s.build.nsw) :
    detWinRule s =
      judgeWindow (bucketPower s.build (subWindow s).1) (s.setDraws (subWindow s).2) := by
  have hopen : ¬ (s.det.busy = false ∨ s.build.nsw ≤ s.det.win.toNat) := by simp [hbusy, hwin]
  rw [detWinRule, if_neg hopen]

/-- The judgement by its match count and its result (R222). -/
theorem judgeWindow_eq {p : Nat → BitVec 64} {s : State} {cnt : Nat} {f : Bool}
    (hcnt : (matchBits s p).count true = cnt) (hf : fired s.det.trigMaxCnt cnt = f) :
    judgeWindow p s = { s with
      det := { s.det with
        matchVec := .ofNat 256 (packBits (matchBits s p))
        matchCnt := .ofNat 16 cnt
        acc := s.det.acc || f
        win := s.det.win + 1 }
      resp := if f then 1 else 0 } := by
  subst hcnt hf
  rw [← ofNat_toNat_add_one]
  rfl

/-- Settles O15: the samples are the sub-window as read, the most sensitive range is `SENS`, and the
bits are those of `matchBits`. -/
theorem detWinJudgesSubWindow : Obligations.DetWinJudgesSubWindow := by
  refine ⟨rfl, fun s hb hrun => ⟨fun hmisuse => ?misuse, fun hbusy hwin => ?judged⟩⟩
  case misuse =>
    rw [exec_command .detWin hrun nofun nofun, perform, detWinRule, if_pos hmisuse]
    rfl
  case judged =>
    obtain ⟨-, -, -, -, -, -, hnr, -⟩ := Build.bounds hb
    obtain ⟨hsensLt, hsensMax, hsensFirst⟩ := sensAmong_spec s.build s.build.nr
    refine ⟨(subWindow s).1, (subWindow s).2, sens s.build,
      .ofNat 256 (packBits (matchBits s (bucketPower s.build (subWindow s).1))), ?_⟩
    intro off nb lin e hit cnt f
    have hhit (b : Nat) : bucketMatch s (bucketPower s.build (subWindow s).1 b)
        (s.det.thr.getD b Threshold.reset) = hit b := bucketMatch_eq ..
    have hcnt : (matchBits s (bucketPower s.build (subWindow s).1)).count true = cnt := by
      rw [matchBits_count]
      simp only [hhit]
      rfl
    refine ⟨subWindow_length s, fun n v hn hv => Memory.fetchRun_written _ _ _ _ _ hn hv,
      fun hwritten => Memory.fetchRun_draws _ _ _ _ hwritten,
      ⟨hsensLt hnr, hsensMax, hsensFirst⟩, fun b hb => ?bits, ?next⟩
    case bits => rw [getLsbD_matchVec _ _ hb, hhit]; rfl
    case next =>
      rw [exec_command .detWin hrun nofun nofun, perform, detWinRule_open hbusy hwin]
      exact congrArg Host.Outcome.next (judgeWindow_eq (s := s.setDraws (subWindow s).2) hcnt rfl)

/-! ## A whole evaluation (R224, R225, R228) -/

/-- The Samples of sub-window `i` (R225). -/
def State.windowSamples (s : State) (i : Nat) : List Half :=
  (List.range s.build.w).map fun n => (s.mem.hf.read16 (i * (s.build.h / s.build.nsw) + n)).getD 0

/-- Whether sub-window `i` fires (R227). -/
def State.windowFires (s : State) (i : Nat) : Bool :=
  fired s.det.trigMaxCnt ((matchBits s (bucketPower s.build (s.windowSamples i))).count true)

/-- Each sub-window lies in the Half-Frame (R225). -/
theorem subWindow_in_halfFrame {b : Build} (hb : b.wf = true) {i n : Nat} (hi : i < b.nsw)
    (hn : n < b.w) : i * (b.h / b.nsw) + n < b.h := by
  obtain ⟨-, -, ⟨hnsw, hfit, -⟩, -⟩ := Build.bounds hb
  have hstride : b.w ≤ b.h / b.nsw := (Nat.le_div_iff_mul_le hnsw).2 (by rwa [Nat.mul_comm])
  calc i * (b.h / b.nsw) + n
      < i * (b.h / b.nsw) + b.h / b.nsw := by omega
    _ = (i + 1) * (b.h / b.nsw) := (Nat.succ_mul ..).symm
    _ ≤ b.nsw * (b.h / b.nsw) := Nat.mul_le_mul_right _ hi
    _ ≤ b.h := Nat.mul_div_le ..

/-- A written run is read as it is, and nothing is drawn (R90). -/
theorem Memory.fetchRun_of_written {m : Memory} {i n : Nat} (draws : Nat)
    (h : ∀ k, k < n → (m.read16 (i + k)).isSome = true) :
    m.fetchRun i n draws = ((List.range n).map fun k => (m.read16 (i + k)).getD 0, draws) := by
  refine Prod.ext (List.ext_getElem? fun k => ?_) (fetchRun_draws _ _ _ _ h)
  by_cases hk : k < n
  · obtain ⟨v, hv⟩ := Option.isSome_iff_exists.1 (h k hk)
    rw [fetchRun_written _ _ _ _ _ hk hv]
    simp [hk, hv]
  · rw [List.getElem?_eq_none (by simpa using hk), List.getElem?_eq_none (by simpa using hk)]

/-- `s` with an evaluation of its Half-Frame open: `win` sub-windows judged, the accumulator, and what
the latest judgement left in `RESP`, `MATCH_VEC` and `MATCH_CNT` (R221, R222). -/
def State.inEvaluation (s : State) (win : Nat) (acc : Bool) (resp : Word) (vec : BitVec 256)
    (cnt : Half) : State :=
  { s with
    acq := { s.acq with hfReady := false }
    det := { s.det with
      gen := s.acq.gen, busy := true, win := .ofNat 8 win, acc := acc, matchVec := vec
      matchCnt := cnt }
    resp := resp }

/-- `DET.BEGIN` opens the evaluation of a ready Half-Frame (R221). -/
theorem exec_detBegin_ready {s : State} (hrun : s.halted = false) (hready : s.acq.hfReady = true)
    (hidle : s.det.busy = false) :
    exec .detBegin s = .next (s.inEvaluation 0 false 1 s.det.matchVec s.det.matchCnt) := by
  rw [detBeginOpensEvaluation.2 s hrun, hidle, hready]
  rfl

/-- `DET.WIN` judges the next sub-window of a written Half-Frame (R222). -/
theorem exec_detWin_inEvaluation {s : State} (hb : s.build.wf = true) (hrun : s.halted = false)
    (hhf : ∀ i, i < s.build.h → (s.mem.hf.read16 i).isSome = true) {k : Nat} (hk : k < s.build.nsw)
    (acc : Bool) (resp : Word) (vec : BitVec 256) (cnt : Half) :
    ∃ resp' vec' cnt', exec .detWin (s.inEvaluation k acc resp vec cnt) =
      .next (s.inEvaluation (k + 1) (acc || s.windowFires k) resp' vec' cnt') := by
  obtain ⟨-, -, ⟨-, -, hnsw⟩, -⟩ := Build.bounds hb
  have hwin : (s.inEvaluation k acc resp vec cnt).det.win.toNat = k := toNat_ofNat8 (by omega)
  have hsamples : subWindow (s.inEvaluation k acc resp vec cnt) =
      (s.windowSamples k, s.env.draws) := by
    rw [subWindow, subWindowStart, hwin]
    exact Memory.fetchRun_of_written _ fun n hn => hhf _ (subWindow_in_halfFrame hb hk hn)
  have hjudged : detWinRule (s.inEvaluation k acc resp vec cnt) =
      judgeWindow (bucketPower s.build (s.windowSamples k)) (s.inEvaluation k acc resp vec cnt) := by
    rw [detWinRule_open rfl (hwin.trans_lt hk), hsamples]
    rfl
  refine ⟨if s.windowFires k then 1 else 0,
    .ofNat 256 (packBits (matchBits s (bucketPower s.build (s.windowSamples k)))),
    .ofNat 16 ((matchBits s (bucketPower s.build (s.windowSamples k))).count true), ?_⟩
  rw [exec_command .detWin (s := s.inEvaluation k acc resp vec cnt) hrun nofun nofun, perform, hjudged,
    judgeWindow_eq rfl rfl]
  simp only [State.inEvaluation, BitVec.ofNat_add]
  rfl

/-- After `k` sub-windows the accumulator is the OR of their results (R228). -/
theorem runOps_detWin {s : State} (hb : s.build.wf = true) (hrun : s.halted = false)
    (hhf : ∀ i, i < s.build.h → (s.mem.hf.read16 i).isSome = true) {k : Nat} (hk : k ≤ s.build.nsw)
    (resp : Word) (vec : BitVec 256) (cnt : Half) :
    ∃ resp' vec' cnt', runOps (List.replicate k .detWin) (s.inEvaluation 0 false resp vec cnt) =
      s.inEvaluation k ((List.range k).any s.windowFires) resp' vec' cnt' := by
  induction k with
  | zero => exact ⟨_, _, _, rfl⟩
  | succ k ih =>
    obtain ⟨resp₁, vec₁, cnt₁, hbefore⟩ := ih (Nat.le_of_succ_le hk)
    obtain ⟨resp₂, vec₂, cnt₂, hlast⟩ := exec_detWin_inEvaluation hb hrun hhf hk
      ((List.range k).any s.windowFires) resp₁ vec₁ cnt₁
    refine ⟨resp₂, vec₂, cnt₂, ?_⟩
    rw [List.replicate_succ', runOps_append, hbefore, runOps_cons _ hlast, runOps_nil,
      List.range_succ, List.any_append]
    simp

/-- `s` with its evaluation closed and its trigger raised if it fired (R223). -/
def State.committed (s : State) : State :=
  { s with
    det := { s.det with busy := false }
    trigFlag := s.trigFlag || s.det.acc
    resp := if s.det.acc then 1 else 0
    env := { s.env with trace := s.env.trace ++ if s.det.acc then [.trigEvt] else [] } }

/-- `DET.COMMIT` of an evaluation that no publication overtook (R223). -/
theorem exec_detCommit_current {s : State} (hrun : s.halted = false) (hbusy : s.det.busy = true)
    (hgen : s.acq.gen = s.det.gen) : exec .detCommit s = .next s.committed := by
  rw [detCommitGuardsTheRace.2 s hrun]
  cases hacc : s.det.acc with
  | false => simp [State.committed, hbusy, hacc]
  | true => simp [State.committed, hbusy, hgen, hacc]

/-- The operations of `DET.EVAL` (R224). -/
theorem pseudoDetEval_instr (b : Build) : (pseudoDetEval b).map BusOp.instr =
    .detBegin :: (List.replicate b.nsw .detWin ++ [.detCommit]) := by
  have hbegin : (encode .detBegin).instr = .detBegin := by decide
  have hwin : (encode .detWin).instr = .detWin := by decide
  have hcommit : (encode .detCommit).instr = .detCommit := by decide
  simp only [pseudoDetEval, List.map_cons, List.map_append, List.map_replicate, List.map_nil, hbegin,
    hwin, hcommit]

/-- Settles O18: the run through `DET.BEGIN`, the sub-windows and `DET.COMMIT`. -/
theorem evaluationIsOrOfSubWindows : Obligations.EvaluationIsOrOfSubWindows := by
  intro s hb hrun hready hidle hhf x fires any t
  obtain ⟨-, -, ⟨-, -, hnsw⟩, -⟩ := Build.bounds hb
  obtain ⟨resp, vec, cnt, hwins⟩ :=
    runOps_detWin hb hrun hhf le_rfl 1 s.det.matchVec s.det.matchCnt
  change _ = s.inEvaluation s.build.nsw any resp vec cnt at hwins
  have hcommit : exec .detCommit (s.inEvaluation s.build.nsw any resp vec cnt) =
      .next (s.inEvaluation s.build.nsw any resp vec cnt).committed :=
    exec_detCommit_current hrun rfl rfl
  have ht : t = (s.inEvaluation s.build.nsw any resp vec cnt).committed := by
    show runOps _ s = _
    rw [pseudoDetEval_instr, runOps_cons _ (exec_detBegin_ready hrun hready hidle), runOps_append,
      hwins, runOps_cons _ hcommit, runOps_nil]
  rw [ht]
  refine ⟨rfl, rfl, rfl, rfl, rfl, toNat_ofNat8 hnsw, rfl, rfl, rfl, rfl, rfl, rfl, ?config⟩
  case config => simp [sameConfig, State.committed, State.inEvaluation]

/-! ## The reference power function (R232) -/

/-- There is a windowed sample per sample and table entry. -/
theorem windowed_length (x : List Half) (hann : List Int) :
    (windowed x hann).length = min x.length hann.length := by
  induction x generalizing hann with
  | nil => simp [windowed]
  | cons v vs ih =>
    cases hann with
    | nil => simp [windowed]
    | cons g gs => simp [windowed, ih]

/-- A windowed sample is the rescaled product, and nothing lies beyond the tables. -/
theorem windowed_getD (x : List Half) (hann : List Int) (n : Nat) :
    (windowed x hann).getD n 0 = (x.getD n 0).toInt * hann.getD n 0 / 2 ^ 15 := by
  induction x generalizing hann n with
  | nil => simp [windowed]
  | cons v vs ih =>
    cases hann with
    | nil => simp [windowed]
    | cons g gs =>
      cases n with
      | zero => rfl
      | succ n => simpa [windowed] using ih gs n

/-- The recursion of the model is the sum over the samples. -/
theorem binSum_eq_sum (w : Nat) (table : List Int) (k n : Nat) (xs : List Int) :
    binSum w table k n xs =
      ((List.range xs.length).map fun i => xs.getD i 0 * table.getD (k * (n + i) % w) 0).sum := by
  induction xs generalizing n with
  | nil => rfl
  | cons x xs ih =>
    simp [binSum, ih, List.range_succ_eq_map, Function.comp_def, Nat.add_assoc, Nat.add_comm 1]

/-- Every entry of the table is a Q15 number (R233). -/
def Q15Table (t : List Int) : Prop := ∀ n, |t.getD n 0| ≤ 2 ^ 15

/-- What a legal build asks of a table makes it one of Q15 numbers. -/
theorem q15Table_of_all {t : List Int} (h : ∀ v ∈ t, -32768 ≤ v ∧ v ≤ 32767) : Q15Table t := by
  intro n
  by_cases hn : n < t.length
  · obtain ⟨hlo, hhi⟩ := h t[n] (List.getElem_mem hn)
    rw [List.getD_eq_getElem _ _ hn, abs_le]
    omega
  · rw [List.getD_eq_default _ _ (Nat.le_of_not_lt hn)]
    decide

/-- The tables of a legal build's reference function are of Q15 numbers, `HANN` with `W` entries
(R8, R232). -/
theorem referenceTables_of_wf {b : Build} (hb : b.wf = true) {hann cos sin : List Int}
    (hp : b.power = .reference hann cos sin) :
    hann.length = b.w ∧ Q15Table hann ∧ Q15Table cos ∧ Q15Table sin := by
  have hpower : b.powerOk = true := by
    obtain ⟨-, hpower⟩ := Bool.and_eq_true_iff.1 hb
    exact hpower
  simp only [Build.powerOk, hp, List.all_cons, List.all_nil, Bool.and_true, Bool.and_eq_true,
    beq_iff_eq, List.all_eq_true, decide_eq_true_iff] at hpower
  obtain ⟨⟨hlen, hhann⟩, ⟨-, hcos⟩, -, hsin⟩ := hpower
  exact ⟨hlen, q15Table_of_all hhann, q15Table_of_all hcos, q15Table_of_all hsin⟩

/-- A legal `W` is a power of two with at most 256 buckets, so at most 512 (R8). -/
theorem windowLength_le_of_wf {b : Build} (hb : b.wf = true) : b.w ≤ 2 ^ 9 := by
  obtain ⟨-, ⟨-, -, hnb⟩, -⟩ := Build.bounds hb
  have hpow : 2 ^ Nat.log2 b.w = b.w := by
    simp only [Build.wf, Build.windowOk, Bool.and_eq_true, beq_iff_eq] at hb
    obtain ⟨⟨⟨⟨⟨⟨⟨-, ⟨⟨hpow, -⟩, -⟩, -⟩, -⟩, -⟩, -⟩, -⟩, -⟩, -⟩ := hb
    exact hpow
  have hlt : 2 ^ Nat.log2 b.w < 2 ^ 10 := by
    rw [hpow]
    unfold Build.nb at hnb
    omega
  rw [← hpow]
  exact Nat.pow_le_pow_right (by decide)
    (Nat.le_of_lt_succ ((Nat.pow_lt_pow_iff_right (by decide)).1 hlt))

/-- A table's entry is taken with a factor up to `2^15`. -/
theorem Q15Table.abs_mul_le {t : List Int} (ht : Q15Table t) {v : Int} (hv : |v| ≤ 2 ^ 15) (n : Nat) :
    |v * t.getD n 0| ≤ 2 ^ 30 := by
  rw [abs_mul]
  exact (mul_le_mul hv (ht n) (abs_nonneg _) (by decide)).trans_eq (by decide)

/-- The rescaling by 15 bits, which rounds down, keeps a bound. -/
theorem abs_ediv_le {v bound : Int} (h : |v| ≤ bound * 2 ^ 15) : |v / 2 ^ 15| ≤ bound := by
  rw [abs_le] at h ⊢
  omega

/-- A sum of `w` terms is at most `w` times their bound. -/
theorem abs_sum_range_le {f : Nat → Int} {bound : Int} (h : ∀ n, |f n| ≤ bound) (w : Nat) :
    |((List.range w).map f).sum| ≤ w * bound := by
  induction w with
  | zero => simp
  | succ w ih =>
    rw [List.range_succ, List.map_append, List.sum_append, List.map_singleton, List.sum_singleton,
      Nat.cast_succ, add_one_mul]
    exact (abs_add_le _ _).trans (add_le_add ih (h w))

/-- A rescaled sum of R232 is at most `W * 2^15`. -/
theorem abs_rescaled_sum_le {xw : Nat → Int} {table : List Int} (hxw : ∀ n, |xw n| ≤ 2 ^ 15)
    (ht : Q15Table table) (w k : Nat) :
    |((List.range w).map fun n => xw n * table.getD (k * n % w) 0).sum / 2 ^ 15| ≤
      (w : Int) * 2 ^ 15 := by
  refine abs_ediv_le ((abs_sum_range_le (fun n => ht.abs_mul_le (hxw n) _) w).trans_eq ?_)
  rw [mul_assoc]
  rfl

/-- A windowed sample is at most `2^15` (R232). -/
theorem abs_windowed_le (x : Half) {hann : List Int} (ht : Q15Table hann) (n : Nat) :
    |x.toInt * hann.getD n 0 / 2 ^ 15| ≤ 2 ^ 15 := by
  have hx : |x.toInt| ≤ 2 ^ 15 := by
    have hlo := BitVec.le_toInt x
    have hhi := BitVec.toInt_lt (x := x)
    rw [abs_le]
    omega
  exact abs_ediv_le ((ht.abs_mul_le hx n).trans_eq (by decide))

/-- The sum of a bin over the windowed samples, as R232 writes it. -/
theorem binSum_windowed {x : List Half} {hann : List Int} {w : Nat} (hx : x.length = w)
    (hhann : hann.length = w) (table : List Int) (k : Nat) :
    binSum w table k 0 (windowed x hann) = ((List.range w).map fun n =>
      (x.getD n 0).toInt * hann.getD n 0 / 2 ^ 15 * table.getD (k * n % w) 0).sum := by
  simp only [binSum_eq_sum, windowed_length, windowed_getD, hx, hhann, min_self, Nat.zero_add]

/-- The power of two rescaled sums is at most `W^2 * 2^31` (R232). -/
theorem sum_of_squares_le {re im : Int} {w : Nat} (hre : |re| ≤ w * 2 ^ 15) (him : |im| ≤ w * 2 ^ 15) :
    re * re + im * im ≤ (w : Int) ^ 2 * 2 ^ 31 := by
  have hre2 : re ^ 2 ≤ ((w : Int) * 2 ^ 15) ^ 2 := sq_le_sq.2 (hre.trans (le_abs_self _))
  have him2 : im ^ 2 ≤ ((w : Int) * 2 ^ 15) ^ 2 := sq_le_sq.2 (him.trans (le_abs_self _))
  linarith

/-- A number below `2^64` is kept by 64 bits. -/
theorem toNat_ofInt64 {v : Int} (h0 : 0 ≤ v) (h : v < 2 ^ 64) :
    ((BitVec.ofInt 64 v).toNat : Int) = v := by
  rw [BitVec.toNat_ofInt]
  omega

/-- Settles O22: the bounds of R232, from the samples over the sums to the squares. -/
theorem referencePowerIsExact : Obligations.ReferencePowerIsExact := by
  intro b hann cos sin x k hb hp hx xw re im
  obtain ⟨hlen, hhann, hcos, hsin⟩ := referenceTables_of_wf hb hp
  have hpower : bucketPower b x k = .ofInt 64 (re * re + im * im) := by
    simp only [bucketPower, hp, referencePower, binSum_windowed hx hlen]
    rfl
  have hxw (n : Nat) : |xw n| ≤ 2 ^ 15 := abs_windowed_le _ hhann n
  have hre : |re| ≤ b.w * 2 ^ 15 := abs_rescaled_sum_le hxw hcos b.w k
  have him : |im| ≤ b.w * 2 ^ 15 := abs_rescaled_sum_le hxw hsin b.w k
  have hle : re * re + im * im ≤ (b.w : Int) ^ 2 * 2 ^ 31 := sum_of_squares_le hre him
  have hfits : b.w ^ 2 * 2 ^ 31 ≤ 2 ^ 49 :=
    (Nat.mul_le_mul_right _ (Nat.pow_le_pow_left (windowLength_le_of_wf hb) 2)).trans_eq (by decide)
  have hexact : ((bucketPower b x k).toNat : Int) = re * re + im * im := by
    rw [hpower]
    refine toNat_ofInt64 (add_nonneg (mul_self_nonneg re) (mul_self_nonneg im)) ?_
    have hfitsInt : (b.w : Int) ^ 2 * 2 ^ 31 ≤ 2 ^ 49 := by exact_mod_cast hfits
    exact (hle.trans hfitsInt).trans_lt (by decide)
  refine ⟨hexact, ?_, hfits⟩
  rw [← hexact] at hle
  exact_mod_cast hle

end Sys2Proof.Machine

/-!
PROOFS. The FIFO and the tokens a procedure of the ring pushes (O27): `Push` and `Pop` as operations on a
queue, and a run of pushes as one update of the state.
-/

namespace Sys2Proof.Machine

/-! ## The FIFO as a queue (R267, R268, R269) -/

/-- Two places of a cyclic buffer differ when they are less than a turn apart. -/
theorem add_mod_ne {m k c : Nat} (a : Nat) (hlt : k < c) (hturn : c < k + m) :
    (a + k) % m ≠ (a + c) % m := by
  intro h
  have hmod : k ≡ c [MOD m] := Nat.ModEq.add_left_cancel' a h
  have hdvd := (Nat.modEq_iff_dvd' hlt.le).1 hmod
  have := Nat.le_of_dvd (by omega) hdvd
  omega

/-- A FIFO address or count is stored as it is (R8, R38). -/
theorem toNat_ofNat32 {n : Nat} (h : n < 2 ^ 32) : (BitVec.ofNat 32 n).toNat = n := by
  rw [BitVec.toNat_ofNat, Nat.mod_eq_of_lt h]

/-- `FIFO_TAIL` is a place of the FIFO (R38). -/
theorem RingUnit.tail_lt {b : Build} {r : RingUnit} (h : r.fifoInv b) : r.tail.toNat < b.fc := by
  obtain ⟨-, hhead, htail⟩ := h
  rw [htail]
  exact Nat.mod_lt _ (by omega)

/-- A token depends on the FIFO's elements and its head alone (R267). -/
theorem fifoToken_congr {s t : State} (hbuild : t.build = s.build)
    (hfifo : t.mem.fifo = s.mem.fifo) (hhead : t.ring.head = s.ring.head) :
    fifoToken t = fifoToken s := by
  funext k
  rw [fifoToken, fifoToken, hbuild, hfifo, hhead]

/-- The FIFO's contents depend on its elements, its head and its count alone (R267). -/
theorem fifoTokens_congr {s t : State} (hbuild : t.build = s.build)
    (hfifo : t.mem.fifo = s.mem.fifo) (hhead : t.ring.head = s.ring.head)
    (hcount : t.ring.count = s.ring.count) : fifoTokens t = fifoTokens s := by
  rw [fifoTokens, fifoTokens, fifoToken_congr hbuild hfifo hhead, hcount]

/-- There are `FIFO_COUNT` tokens in the FIFO (R38). -/
@[simp] theorem fifoTokens_length (s : State) : (fifoTokens s).length = s.ring.count.toNat := by
  simp [fifoTokens]

/-- `Pop` counts one token less (R269). -/
theorem toNat_pop_count (s : State) : (pop s).ring.count.toNat = s.ring.count.toNat - 1 := by
  have := s.ring.count.isLt
  exact toNat_ofNat32 (by omega)

section
variable {s : State} (hb : s.build.wf = true) (h : s.ring.fifoInv s.build)
include hb h

/-- `Push` keeps the cursors (R268, R286 (2)). -/
theorem push_fifoInv (t : Word) : (push t s).ring.fifoInv s.build := by
  obtain ⟨-, -, -, -, -, ⟨-, hfc⟩, -⟩ := Build.bounds hb
  obtain ⟨hcount, hhead, htail⟩ := h
  by_cases hfull : s.ring.count.toNat = s.build.fc
  · rw [push_full t hfull]
    exact ⟨hcount, hhead, htail⟩
  · have htailLt := Nat.mod_lt (s.ring.tail.toNat + 1) (by omega : s.build.fc > 0)
    rw [push_room t hfull]
    refine ⟨?_, hhead, ?_⟩
    · show (BitVec.ofNat 32 _).toNat ≤ _
      rw [toNat_ofNat32 (by omega)]
      omega
    · show (BitVec.ofNat 32 _).toNat = (_ + (BitVec.ofNat 32 _).toNat) % _
      rw [toNat_ofNat32 (by omega), toNat_ofNat32 (by omega), htail, Nat.mod_add_mod, Nat.add_assoc]

/-- `Pop` of a token keeps the cursors (R269, R286 (2)). -/
theorem pop_fifoInv (hpos : 0 < s.ring.count.toNat) : (pop s).ring.fifoInv s.build := by
  obtain ⟨-, -, -, -, -, ⟨-, hfc⟩, -⟩ := Build.bounds hb
  obtain ⟨hcount, hhead, htail⟩ := h
  have hheadLt := Nat.mod_lt (s.ring.head.toNat + 1) (by omega : s.build.fc > 0)
  refine ⟨?_, ?_, ?_⟩
  · show (BitVec.ofNat 32 _).toNat ≤ _
    rw [toNat_ofNat32 (by omega)]
    omega
  · show (BitVec.ofNat 32 _).toNat < _
    rwa [toNat_ofNat32 (by omega)]
  · show s.ring.tail.toNat = ((BitVec.ofNat 32 _).toNat + (BitVec.ofNat 32 _).toNat) % _
    rw [toNat_ofNat32 (by omega), toNat_ofNat32 (by omega), htail, Nat.mod_add_mod]
    congr 1
    omega

/-- `Push` with room puts the token at the end of the queue (R268). -/
theorem fifoTokens_push (t : Word) (hroom : s.ring.count.toNat < s.build.fc) :
    fifoTokens (push t s) = fifoTokens s ++ [some t] := by
  obtain ⟨-, -, -, -, -, ⟨-, hfc⟩, -⟩ := Build.bounds hb
  obtain ⟨-, -, htail⟩ := h
  rw [push_room t hroom.ne]
  simp only [fifoTokens, toNat_ofNat32 (show s.ring.count.toNat + 1 < 2 ^ 32 by omega),
    List.range_succ, List.map_append, List.map_singleton]
  congr 1
  · refine List.map_congr_left fun k hk => ?_
    have hk := List.mem_range.1 hk
    simp only [fifoToken]
    rw [Memory.read32_write32_other _ _ (htail ▸ add_mod_ne _ hk (by omega))]
  · simp only [fifoToken, ← htail, Memory.read32_write32_same]

/-- `Pop` moves every token one place forward (R269). -/
theorem fifoToken_pop (k : Nat) : fifoToken (pop s) k = fifoToken s (k + 1) := by
  obtain ⟨-, -, -, -, -, ⟨-, hfc⟩, -⟩ := Build.bounds hb
  obtain ⟨-, hhead, -⟩ := h
  have hheadLt := Nat.mod_lt (s.ring.head.toNat + 1) (by omega : s.build.fc > 0)
  have hpopped : (pop s).ring.head.toNat = (s.ring.head.toNat + 1) % s.build.fc :=
    toNat_ofNat32 (by omega)
  rw [fifoToken, fifoToken, hpopped]
  show s.mem.fifo.read32 (((s.ring.head.toNat + 1) % s.build.fc + k) % s.build.fc) = _
  rw [Nat.mod_add_mod, Nat.add_assoc, Nat.add_comm 1 k]

/-- `Pop` takes the first token of the queue (R269). -/
theorem fifoTokens_pop (hpos : 0 < s.ring.count.toNat) :
    fifoTokens s = fifoToken s 0 :: fifoTokens (pop s) := by
  obtain ⟨n, hn⟩ := Nat.exists_eq_add_of_lt hpos
  rw [fifoTokens, fifoTokens, toNat_pop_count, hn, Nat.zero_add, Nat.add_sub_cancel,
    List.range_succ_eq_map, List.map_cons, List.map_map]
  exact congrArg _ (List.map_congr_left fun k _ => (fifoToken_pop hb h k).symm)

end

/-- Settles O27: the places of the tokens are less than a turn apart, and only that of the tail is
written. -/
theorem fifoIsABoundedQueue : Obligations.FifoIsABoundedQueue := by
  intro s t hb h
  have hsucc (v : Word) : BitVec.ofNat 32 (v.toNat + 1) = v + 1 := by
    apply BitVec.eq_of_toNat_eq
    simp
  have hpred {v : Word} (hv : 0 < v.toNat) : BitVec.ofNat 32 (v.toNat - 1) = v - 1 := by
    bv_omega
  refine ⟨push_full t, fun hroom => ⟨fifoTokens_push hb h t hroom, ?_⟩,
    fun hpos => ⟨fifoTokens_pop hb h hpos, ?_⟩⟩
  · rw [push_room t hroom.ne]
    exact ⟨_, fun a ha => Memory.readByte_write32_other _ _ ha, by rw [hsucc]⟩
  · rw [pop, hpred hpos]

/-! ## A run of pushes (R268) -/

/-- The tokens `ts` pushed one after the other. -/
def pushAll (ts : List Word) (s : State) : State := ts.foldl (fun u t => push t u) s

@[simp] theorem pushAll_nil (s : State) : pushAll [] s = s := rfl

@[simp] theorem pushAll_cons (t : Word) (ts : List Word) (s : State) :
    pushAll (t :: ts) s = pushAll ts (push t s) := rfl

theorem pushAll_append (ts us : List Word) (s : State) :
    pushAll (ts ++ us) s = pushAll us (pushAll ts s) := List.foldl_append

/-- The free elements of the FIFO after `n` pushes are free elements before them (R268). -/
theorem State.fifoPushedOnly_trans {s t : State} {n m : Nat} {fifo : Memory}
    (hbuild : t.build = s.build) (htail : t.ring.tail.toNat = (s.ring.tail.toNat + n) % s.build.fc)
    (hfirst : s.fifoPushedOnly n t.mem.fifo) (hnext : t.fifoPushedOnly m fifo) :
    s.fifoPushedOnly (n + m) fifo := by
  intro a ha
  rw [hnext a fun d hd => ?_]
  · exact hfirst a fun d hd => ha d (by omega)
  · rw [hbuild, htail, Nat.mod_add_mod, Nat.add_assoc]
    exact ha (n + d) (by omega)

/-- `t` is `s` with tokens `ts` pushed on a FIFO with room for them (R268). -/
structure Pushed (s : State) (ts : List Word) (t : State) : Prop where
  tokens : fifoTokens t = fifoTokens s ++ ts.map some
  bytes : s.fifoPushedOnly ts.length t.mem.fifo
  state : t = { s with
    mem := { s.mem with fifo := t.mem.fifo }
    ring := { s.ring with
      tail := tailAfter s ts.length, count := .ofNat 32 (s.ring.count.toNat + ts.length) } }

section
variable {s : State} (hb : s.build.wf = true) (h : s.ring.fifoInv s.build)
include hb h

/-- `FIFO_TAIL` after `n` pushes, as a number (R268). -/
theorem toNat_tailAfter (n : Nat) :
    (tailAfter s n).toNat = (s.ring.tail.toNat + n) % s.build.fc := by
  obtain ⟨-, -, -, -, -, ⟨-, hfc⟩, -⟩ := Build.bounds hb
  obtain ⟨-, hhead, -⟩ := h
  have := Nat.mod_lt (s.ring.tail.toNat + n) (by omega : s.build.fc > 0)
  exact toNat_ofNat32 (by omega)

/-- No push moves the tail nowhere. -/
theorem tailAfter_zero : tailAfter s 0 = s.ring.tail := by
  apply BitVec.eq_of_toNat_eq
  rw [toNat_tailAfter hb h, Nat.add_zero, Nat.mod_eq_of_lt (RingUnit.tail_lt h)]

/-- With nothing pushed the state is as it was. -/
theorem Pushed.nil : Pushed s [] s where
  tokens := by simp
  bytes := s.fifoPushedOnly_refl 0
  state := by simp [tailAfter_zero hb h]

/-- A push with room. -/
theorem pushed_push (t : Word) (hroom : s.ring.count.toNat < s.build.fc) :
    Pushed s [t] (push t s) where
  tokens := fifoTokens_push hb h t hroom
  bytes := State.fifoPushedOnly_push t hroom.ne (RingUnit.tail_lt h)
  state := by rw [push_room t hroom.ne]; rfl

/-- A run of pushes with room for all of them. -/
theorem pushed_pushAll (ts : List Word) (hroom : s.ring.count.toNat + ts.length ≤ s.build.fc) :
    Pushed s ts (pushAll ts s) := by
  induction ts generalizing s with
  | nil => exact .nil hb h
  | cons t ts ih =>
    obtain ⟨-, -, -, -, -, ⟨-, hfc⟩, -⟩ := Build.bounds hb
    rw [List.length_cons] at hroom
    have hone := pushed_push hb h t (by omega)
    have hbuild : (push t s).build = s.build := by rw [hone.state]
    have hcount : (push t s).ring.count.toNat = s.ring.count.toNat + 1 := by
      rw [hone.state]
      exact toNat_ofNat32 (n := s.ring.count.toNat + 1) (by omega)
    have htail : (push t s).ring.tail.toNat = (s.ring.tail.toNat + 1) % s.build.fc := by
      rw [hone.state]
      exact toNat_tailAfter hb h 1
    have hrest := ih (hbuild ▸ hb) (hbuild ▸ push_fifoInv hb h t) (by rw [hbuild]; omega)
    refine ⟨?tokens, ?bytes, ?state⟩
    case tokens => simp [hrest.tokens, hone.tokens]
    case bytes =>
      rw [List.length_cons, Nat.add_comm]
      exact State.fifoPushedOnly_trans hbuild htail hone.bytes hrest.bytes
    case state =>
      have hlen : s.ring.count.toNat + 1 + ts.length = s.ring.count.toNat + (ts.length + 1) := by omega
      rw [pushAll_cons, hrest.state, tailAfter, hbuild, htail, Nat.mod_add_mod, hcount, hlen,
        hone.state, Nat.add_assoc, Nat.add_comm 1]
      rfl

end

end Sys2Proof.Machine

/-!
PROOFS. The ring's procedures, operation by operation: `RING.RESET` (O23), `RING.RECDONE` (O24),
`OnTrigger` and its backfill (O28, O29), `OnSlotFull` (O30), `RingAppend` (O31).
-/

namespace Sys2Proof.Machine

/-! ## What `Push` leaves alone (R268) -/

section
variable (t : Word) (s : State)

@[simp] theorem push_build : (push t s).build = s.build := by rw [push_frame]
@[simp] theorem push_trigFlag : (push t s).trigFlag = s.trigFlag := by rw [push_frame]
@[simp] theorem push_slot : (push t s).mem.slot = s.mem.slot := by rw [push_frame]
@[simp] theorem push_lifetime : (push t s).fault.lifetime = s.fault.lifetime := by rw [push_frame]
@[simp] theorem push_mode : (push t s).ring.mode = s.ring.mode := by rw [push_frame]
@[simp] theorem push_fill : (push t s).ring.fill = s.ring.fill := by rw [push_frame]
@[simp] theorem push_wpos : (push t s).ring.wpos = s.ring.wpos := by rw [push_frame]
@[simp] theorem push_head : (push t s).ring.head = s.ring.head := by rw [push_frame]
@[simp] theorem push_isTriggered : (push t s).ring.isTriggered = s.ring.isTriggered := by
  rw [push_frame]
@[simp] theorem push_trigIndex : (push t s).ring.trigIndex = s.ring.trigIndex := by rw [push_frame]
@[simp] theorem push_finalIndex : (push t s).ring.finalIndex = s.ring.finalIndex := by
  rw [push_frame]
@[simp] theorem push_lastEnq : (push t s).ring.lastEnq = s.ring.lastEnq := by rw [push_frame]
@[simp] theorem push_gatedReading : (push t s).ring.gatedReading = s.ring.gatedReading := by
  rw [push_frame]
@[simp] theorem push_recDone : (push t s).ring.recDone = s.ring.recDone := by rw [push_frame]

end

/-! ## `RING.RESET` and `RING.RECDONE` (R266, R281) -/

/-- The ring of a session just started, before a batch's `START` is pushed (R266). -/
def State.cleared (s : State) (mode : Mode) : State :=
  { s with
    trigFlag := false
    ring :=
      { s.ring with
        mode := mode, fill := 0, wpos := 0, head := 0, tail := 0, count := 0
        isTriggered := false, trigIndex := 0, finalIndex := 0, lastEnq := 0xFFFFFFFF
        gatedReading := false, recDone := false, rdActive := false, gnToken := 0xFFFFFFFF } }

/-- A session starts with the ring cleared and, in gated mode, `START` pushed (R266). -/
theorem ringResetRule_cleared (mode : Mode) (s : State) :
    ringResetRule mode s =
      (if mode = .gated then push startToken (s.cleared mode) else s.cleared mode).setResp 0 := rfl

/-- The FIFO of a session just started is empty (R266). -/
theorem State.cleared_fifoInv {s : State} (hb : s.build.wf = true) (mode : Mode) :
    (s.cleared mode).ring.fifoInv s.build := by
  obtain ⟨-, -, -, -, -, ⟨hfc, -⟩, -⟩ := Build.bounds hb
  refine ⟨Nat.zero_le _, ?_, (Nat.zero_mod _).symm⟩
  show 0 < s.build.fc
  omega

/-- Settles O23: the empty FIFO has room for `START`, which goes to its first element. -/
theorem ringResetStartsSession : Obligations.RingResetStartsSession := by
  refine ⟨⟨rfl, rfl, rfl⟩, fun s mode hb hrun => ?_⟩
  obtain ⟨-, -, -, -, -, ⟨hfc, -⟩, -⟩ := Build.bounds hb
  rw [exec_command (.ringReset mode) hrun nofun nofun, perform, ringResetRule_cleared]
  by_cases hgated : mode = .gated
  · subst hgated
    have hroom : (s.cleared .gated).ring.count.toNat ≠ s.build.fc := by
      show 0 ≠ s.build.fc
      omega
    have htail : ((s.cleared .gated).ring.tail.toNat + 1) % (s.cleared .gated).build.fc = 1 :=
      Nat.mod_eq_of_lt (show 1 < s.build.fc by omega)
    rw [if_pos rfl, push_room startToken hroom, htail]
    exact ⟨s.mem.fifo.write32 0 startToken, nofun, fun _ =>
      ⟨Memory.read32_write32_same .., fun a ha => Memory.readByte_write32_other _ _ (by omega)⟩, rfl⟩
  · rw [if_neg hgated]
    refine ⟨s.mem.fifo, fun _ => rfl, fun h => absurd h hgated, ?_⟩
    rw [if_neg hgated]
    rfl

/-- Settles O24, by whether the gate is closed. -/
theorem recdoneSignalsClosedGate : Obligations.RecdoneSignalsClosedGate := by
  refine ⟨rfl, fun s hrun => ?_⟩
  rw [exec_command .ringRecdone hrun nofun nofun, perform, ringRecdoneRule, gateClosed]
  cases hgate : s.ring.mode == .gated && s.ring.gatedReading with
  | true => simp_all [State.setResp]
  | false => simp_all [State.setResp]

/-! ## `RingAppend` (R270) -/

/-- Whether the gate is closed, as a proposition (R263). -/
theorem gateClosed_iff {s : State} :
    gateClosed s = true ↔ s.ring.mode = .gated ∧ s.ring.gatedReading = true := by
  simp [gateClosed]

/-- The gate open again, the consumer's signal taken (R270, R276). -/
def State.opened (s : State) : State :=
  { s with ring := { s.ring with recDone := false, gatedReading := false } }

/-- A gate reopens and `START` is pushed (R270, R276). -/
theorem reopenGate_eq (s : State) : reopenGate s = push startToken s.opened := rfl

/-- Settles O31: the definitions of the three procedures, the cursor as a word. -/
theorem ringAppendTakesFlagAndSamples : Obligations.RingAppendTakesFlagAndSamples := by
  intro s x xs
  have hgate : gateClosed s = (decide (s.ring.mode = .gated) && s.ring.gatedReading) := by
    rw [Bool.eq_iff_iff, gateClosed_iff, Bool.and_eq_true, decide_eq_true_eq]
  have hsucc : BitVec.ofNat 32 (s.ring.wpos.toNat + 1) = s.ring.wpos + 1 := by
    apply BitVec.eq_of_toNat_eq
    simp
  refine ⟨?call, rfl, ?sample⟩
  case call => rw [ringAppend, hgate]; rfl
  case sample => rw [appendSamples, hgate, appendSample, storeSample_eq, slotOf_nat, hsucc]

/-! ## The backfill (R272, R273) -/

/-- `LAST_ENQ <- v` (R272, R274). -/
def setLastEnq (v : Word) (s : State) : State := { s with ring := { s.ring with lastEnq := v } }

/-- The slot tokens `j .. j + n - 1`, as they are pushed (R265). -/
def slotsFrom (j n : Nat) : List Word := (List.range' j n).map slotToken

@[simp] theorem slotsFrom_length (j n : Nat) : (slotsFrom j n).length = n := by simp [slotsFrom]

theorem slotsFrom_succ (j n : Nat) : slotsFrom j (n + 1) = slotToken j :: slotsFrom (j + 1) n := rfl

/-- The slot tokens in the FIFO are those pushed. -/
theorem slotRun_eq (j n : Nat) : slotRun j n = (slotsFrom j n).map some := by
  simp only [slotRun, slotsFrom, List.range'_eq_map_range, List.map_map]
  rfl

theorem slotRun_add (j n m : Nat) : slotRun j (n + m) = slotRun j n ++ slotRun (j + n) m := by
  simp only [slotRun_eq, slotsFrom, ← List.range'_append_1, List.map_append]

/-- A slot token is pushed and recorded (R272, R274). -/
theorem enqueueSlot_eq_setLastEnq (j : Nat) (s : State) :
    enqueueSlot j s = setLastEnq (slotToken j) (push (slotToken j) s) := rfl

/-- `Push` does not look at `LAST_ENQ` (R268). -/
theorem push_setLastEnq (t v : Word) (s : State) :
    push t (setLastEnq v s) = setLastEnq v (push t s) := by
  by_cases hfull : s.ring.count.toNat = s.build.fc
  · rw [push_full t hfull, push_full t (s := setLastEnq v s) hfull]
    rfl
  · rw [push_room t hfull, push_room t (s := setLastEnq v s) hfull]
    rfl

theorem pushAll_setLastEnq (ts : List Word) (v : Word) (s : State) :
    pushAll ts (setLastEnq v s) = setLastEnq v (pushAll ts s) := by
  induction ts generalizing s with
  | nil => rfl
  | cons t ts ih => rw [pushAll_cons, push_setLastEnq, ih, pushAll_cons]

/-- Pushes write the FIFO, its tail and count, and `FIFO_OVF` (R268). -/
theorem pushAll_frame (ts : List Word) (s : State) :
    pushAll ts s = { s with
      fault := { s.fault with fifoOvf := (pushAll ts s).fault.fifoOvf }
      mem := { s.mem with fifo := (pushAll ts s).mem.fifo }
      ring := { s.ring with
        tail := (pushAll ts s).ring.tail, count := (pushAll ts s).ring.count } } := by
  induction ts generalizing s with
  | nil => rfl
  | cons t ts ih => rw [pushAll_cons, ih, push_frame]

theorem pushAll_lastEnq (ts : List Word) (s : State) :
    (pushAll ts s).ring.lastEnq = s.ring.lastEnq := by rw [pushAll_frame]

/-- The backfill loop pushes its slots and records the last of them (R272). -/
theorem backfill_eq (n j : Nat) (s : State) :
    backfill n j s =
      setLastEnq (if n = 0 then s.ring.lastEnq else slotToken (j + n - 1))
        (pushAll (slotsFrom j n) s) := by
  induction n generalizing j s with
  | zero => rfl
  | succ n ih =>
    rw [backfill, ih, enqueueSlot_eq_setLastEnq, pushAll_setLastEnq, slotsFrom_succ, pushAll_cons]
    rcases Nat.eq_zero_or_pos n with rfl | hn
    · rfl
    · rw [if_neg hn.ne', if_neg n.succ_ne_zero, show j + 1 + n - 1 = j + (n + 1) - 1 by omega]
      rfl

/-- The tokens of a first trigger: `START` in triggered mode and the backfilled slots (R272). -/
def triggerTokens (s : State) : List Word :=
  (if s.ring.mode = .triggered then [startToken] else []) ++
    slotsFrom (backfillFirst s) (s.ring.fill.toNat - backfillFirst s)

/-- A first trigger pushes its tokens and opens the sequence (R272). -/
theorem firstTrigger_eq (s : State) :
    firstTrigger s = { pushAll (triggerTokens s) s with
      ring := { (pushAll (triggerTokens s) s).ring with
        isTriggered := true
        trigIndex := s.ring.fill.setWidth 32
        finalIndex := .ofNat 32 (newFinal s)
        lastEnq := if backfillFirst s < s.ring.fill.toNat then slotToken (s.ring.fill.toNat - 1)
          else s.ring.lastEnq } } := by
  have hstart : (if s.ring.mode = .triggered then push startToken s else s) =
      pushAll (if s.ring.mode = .triggered then [startToken] else []) s := by
    split <;> rfl
  have hlast : (if s.ring.fill.toNat - backfillFirst s = 0 then s.ring.lastEnq
        else slotToken (backfillFirst s + (s.ring.fill.toNat - backfillFirst s) - 1)) =
      if backfillFirst s < s.ring.fill.toNat then slotToken (s.ring.fill.toNat - 1)
        else s.ring.lastEnq := by
    by_cases hfirst : backfillFirst s < s.ring.fill.toNat
    · rw [if_neg (by omega), if_pos hfirst, Nat.add_sub_cancel' hfirst.le]
    · rw [if_pos (by omega), if_neg hfirst]
  simp only [firstTrigger, hstart, backfill_eq, pushAll_lastEnq, hlast, triggerTokens,
    pushAll_append]
  rfl

/-- Settles O28: a first trigger's pushes have room, a retrigger pushes nothing. -/
theorem triggerBackfillsOrExtends : Obligations.TriggerBackfillsOrExtends := by
  intro s hb h k first starts tokens
  have htrig : s.ring.fill.setWidth 32 = BitVec.ofNat 32 k := by
    apply BitVec.eq_of_toNat_eq
    simp [k]
  have htokens : tokens = (triggerTokens s).map some := by
    simp only [tokens, starts, triggerTokens, List.map_append, ← slotRun_eq]
    congr 1
    split <;> rfl
  have hlen : tokens.length = (triggerTokens s).length := by rw [htokens, List.length_map]
  refine ⟨fun hopen => ?_, fun hidle hroom => ?_⟩
  · rw [onTrigger, if_pos hopen, retrigger, htrig]
    rfl
  · obtain ⟨hall, hbytes, hstate⟩ := pushed_pushAll hb h (triggerTokens s) (hlen ▸ hroom)
    have heq : onTrigger s = firstTrigger s := if_neg (by simp [hidle])
    rw [heq, firstTrigger_eq, hlen]
    refine ⟨?_, _, hbytes, ?_⟩
    · rw [htokens, ← hall]
      exact fifoTokens_congr rfl rfl rfl rfl
    · rw [htrig, hstate]
      rfl

/-- Settles O29: the first slot of the backfill is at or above each of the four bounds. -/
theorem backfillIsRetained : Obligations.BackfillIsRetained := by
  intro s j hb hhost hfirst hj
  obtain ⟨-, -, hdelta, -⟩ := hhost
  obtain ⟨-, -, -, ⟨hn, -⟩, -⟩ := Build.bounds hb
  have hbounds : (s.ring.fill.toNat : Int) - s.ring.pretrigSlots.toNat ≤ j ∧
      (s.ring.fill.toNat : Int) - s.build.n + s.ring.bufferDelta.toNat + 1 ≤ j ∧
      s.ring.lastEnq.toInt + 1 ≤ j := by
    simp only [backfillFirst] at hfirst
    omega
  obtain ⟨hpretrig, hretained, hlast⟩ := hbounds
  refine ⟨by omega, by omega, by omega, ?_, ?_⟩
  · simp only [stale, decide_eq_false_iff_not]
    omega
  · rw [slotOf_nat, slotOf_nat]
    simpa using add_mod_ne (m := s.build.n) 0 hj (by omega)

/-! ## `OnSlotFull` (R274, R276) -/

/-- The end of a sequence, and in gated mode of the batch (R274, R276). -/
def finishSequence (s : State) : State :=
  if s.ring.mode = .gated then closeGate (endSequence s) else endSequence s

/-- The slot completed is enqueued: in continuous mode always, else while triggered (R274). -/
def enqueues (s : State) : Bool := decide (s.ring.mode = .continuous) || s.ring.isTriggered

/-- The fill counter has advanced and the slot completed has been enqueued, if it is to be (R274). -/
def slotCounted (s : State) : State :=
  if enqueues s then enqueueSlot s.ring.fill.toNat (advanceFill s) else advanceFill s

/-- The slot completed ends the sequence, `count` tokens being in the FIFO: it reaches the final index,
or the batch is full (R274, R276). -/
def endsAt (s : State) (count : Nat) : Bool :=
  decide (s.ring.mode ≠ .continuous) && s.ring.isTriggered &&
      decide (s.ring.finalIndex.toNat ≤ s.ring.fill.toNat) ||
    decide (s.ring.mode = .gated) && !s.ring.gatedReading && decide (s.build.n + 1 ≤ count)

section
variable (s : State)

/-- The fill counter's advance leaves the other registers, the FIFO and `FIFO_OVF` alone (R274). -/
theorem advanceFill_frame :
    advanceFill s = { s with
      fault := { s.fault with lifetime := (advanceFill s).fault.lifetime }
      ring := { s.ring with wpos := 0, fill := (advanceFill s).ring.fill } } := by
  by_cases hlast : s.ring.fill.toNat < 2 ^ 31 - 1
  · rw [advanceFill_next hlast]
  · rw [advanceFill_last hlast]

@[simp] theorem advanceFill_build : (advanceFill s).build = s.build := by rw [advanceFill_frame]
@[simp] theorem advanceFill_fifo : (advanceFill s).mem = s.mem := by rw [advanceFill_frame]
@[simp] theorem advanceFill_mode : (advanceFill s).ring.mode = s.ring.mode := by
  rw [advanceFill_frame]
@[simp] theorem advanceFill_wpos : (advanceFill s).ring.wpos = 0 := by rw [advanceFill_frame]
@[simp] theorem advanceFill_count : (advanceFill s).ring.count = s.ring.count := by
  rw [advanceFill_frame]
@[simp] theorem advanceFill_isTriggered :
    (advanceFill s).ring.isTriggered = s.ring.isTriggered := by rw [advanceFill_frame]
@[simp] theorem advanceFill_finalIndex :
    (advanceFill s).ring.finalIndex = s.ring.finalIndex := by rw [advanceFill_frame]
@[simp] theorem advanceFill_gatedReading :
    (advanceFill s).ring.gatedReading = s.ring.gatedReading := by rw [advanceFill_frame]
@[simp] theorem advanceFill_recDone : (advanceFill s).ring.recDone = s.ring.recDone := by
  rw [advanceFill_frame]

/-- The end of a sequence pushes `END` and moves the two flags (R274). -/
theorem finishSequence_eq :
    finishSequence s = { push endToken s with
      ring := { (push endToken s).ring with
        isTriggered := false
        gatedReading := s.ring.gatedReading || decide (s.ring.mode = .gated) } } := by
  by_cases hgated : s.ring.mode = .gated
  · simp [finishSequence, hgated, closeGate, endSequence_eq]
  · simp [finishSequence, hgated, endSequence_eq]

/-- In gated mode a batch ended by the trigger's window is not ended again (R276). -/
theorem closeFullBatch_finishSequence : closeFullBatch (finishSequence s) = finishSequence s := by
  refine if_neg fun ⟨hmode, hopen, _⟩ => ?_
  simp_all [finishSequence_eq]

/-- The end of a full batch is the end of its sequence (R274). -/
theorem closeFullBatch_eq :
    closeFullBatch s = if s.ring.mode = .gated ∧ s.ring.gatedReading = false ∧
        s.build.n + 1 ≤ s.ring.count.toNat then finishSequence s else s := by
  unfold closeFullBatch finishSequence
  split
  next hfull => rw [if_pos hfull.1]
  next => rfl

/-- The triggered part of `OnSlotFull`: the slot is enqueued, and ends its sequence when it reaches the
final index (R274). -/
theorem slotWhileTriggered_eq (c : Nat) :
    slotWhileTriggered c s = if s.ring.isTriggered then
        if s.ring.finalIndex.toNat ≤ c then finishSequence (enqueueSlot c s) else enqueueSlot c s
      else s := by
  simp [slotWhileTriggered, finishSequence, enqueueSlot_eq, endSequence_eq]

/-- `OnSlotFull`: the slot is counted and enqueued, and then the sequence may end (R274, R276). -/
theorem onSlotFull_eq :
    onSlotFull s = if endsAt s (slotCounted s).ring.count.toNat then finishSequence (slotCounted s)
      else slotCounted s := by
  by_cases hcont : s.ring.mode = .continuous
  · simp [onSlotFull, endsAt, slotCounted, enqueues, hcont]
  · have hslot : onSlotFull s =
        closeFullBatch (slotWhileTriggered s.ring.fill.toNat (advanceFill s)) := if_neg hcont
    rw [hslot, slotWhileTriggered_eq]
    by_cases htrig : s.ring.isTriggered = true
    · by_cases hfinal : s.ring.finalIndex.toNat ≤ s.ring.fill.toNat
      · simp [hcont, htrig, hfinal, endsAt, slotCounted, enqueues, closeFullBatch_finishSequence]
      · simp [hcont, htrig, hfinal, endsAt, slotCounted, enqueues, closeFullBatch_eq,
          enqueueSlot_eq, and_assoc]
    · simp [hcont, htrig, endsAt, slotCounted, enqueues, closeFullBatch_eq, and_assoc]

/-- The tokens of a completed slot `c`, enqueued or not, ending its sequence or not (R274). -/
def slotTokens (c : Nat) (enqueued ended : Bool) : List Word :=
  (if enqueued then [slotToken c] else []) ++ (if ended then [endToken] else [])

theorem slotTokens_length_le (c : Nat) (enqueued ended : Bool) :
    (slotTokens c enqueued ended).length ≤ 2 := by
  cases enqueued <;> cases ended <;> simp [slotTokens]

/-- A slot enqueued or not and a sequence ended or not are their pushes and the three registers (R274). -/
theorem slotOutcome_pushAll (c : Nat) (enqueued ended : Bool) :
    (if ended then finishSequence (if enqueued then enqueueSlot c s else s)
      else if enqueued then enqueueSlot c s else s) =
      { pushAll (slotTokens c enqueued ended) s with
        ring := { (pushAll (slotTokens c enqueued ended) s).ring with
          lastEnq := if enqueued then slotToken c else s.ring.lastEnq
          isTriggered := s.ring.isTriggered && !ended
          gatedReading := s.ring.gatedReading || (decide (s.ring.mode = .gated) && ended) } } := by
  cases enqueued <;> cases ended <;>
    simp only [slotTokens, Bool.false_eq_true, if_false, if_true, finishSequence_eq,
      enqueueSlot_eq_setLastEnq, push_setLastEnq, Bool.not_false, Bool.not_true, Bool.and_true,
      Bool.and_false, Bool.or_false, List.append_nil, List.nil_append, List.singleton_append,
      pushAll_nil, pushAll_cons]
  case false.true => rw [← push_lastEnq endToken s]
  case true.false =>
    rw [← push_isTriggered (slotToken c) s, ← push_gatedReading (slotToken c) s]
    rfl
  case true.true =>
    rw [← push_gatedReading (slotToken c) s, ← push_mode (slotToken c) s]
    rfl

/-- `OnSlotFull` pushes its tokens and moves its registers (R274, R276). -/
theorem onSlotFull_pushAll {ended : Bool}
    (hended : endsAt s (slotCounted s).ring.count.toNat = ended) :
    onSlotFull s =
      { pushAll (slotTokens s.ring.fill.toNat (enqueues s) ended) (advanceFill s) with
        ring :=
          { (pushAll (slotTokens s.ring.fill.toNat (enqueues s) ended) (advanceFill s)).ring with
            lastEnq := if enqueues s then slotToken s.ring.fill.toNat else s.ring.lastEnq
            isTriggered := s.ring.isTriggered && !ended
            gatedReading := s.ring.gatedReading || (decide (s.ring.mode = .gated) && ended) } } := by
  have h := slotOutcome_pushAll (advanceFill s) s.ring.fill.toNat (enqueues s) ended
  rw [advanceFill_mode, advanceFill_isTriggered, advanceFill_gatedReading,
    show (advanceFill s).ring.lastEnq = s.ring.lastEnq by rw [advanceFill_frame]] at h
  rw [onSlotFull_eq, hended, slotCounted, h]

end

/-- After `OnSlotFull` the slot cursor is 0 and the fill counter has advanced or stays (R274). -/
theorem onSlotFull_wpos_fill (s : State) :
    (onSlotFull s).ring.wpos = 0 ∧ (onSlotFull s).ring.fill = (advanceFill s).ring.fill := by
  rw [onSlotFull_pushAll s rfl, pushAll_frame]
  exact ⟨advanceFill_wpos s, rfl⟩

/-- At the last value of the fill counter `LIFETIME` is raised and the counter stays (R277). -/
theorem onSlotFull_last {s : State} (h : ¬ s.ring.fill.toNat < 2 ^ 31 - 1) :
    (onSlotFull s).fault.lifetime = true ∧ (onSlotFull s).ring.fill = s.ring.fill := by
  rw [onSlotFull_pushAll s rfl, pushAll_frame, advanceFill_last h]
  exact ⟨rfl, rfl⟩

/-- A push with room counts its token (R268). -/
theorem toNat_push_count {s : State} (hb : s.build.wf = true) (t : Word)
    (hroom : s.ring.count.toNat < s.build.fc) :
    (push t s).ring.count.toNat = s.ring.count.toNat + 1 := by
  obtain ⟨-, -, -, -, -, ⟨-, hfc⟩, -⟩ := Build.bounds hb
  rw [push_room t hroom.ne]
  exact toNat_ofNat32 (by omega)

/-- The slot completed counts as a token if it is enqueued (R274). -/
theorem toNat_slotCounted_count {s : State} (hb : s.build.wf = true)
    (hroom : s.ring.count.toNat < s.build.fc) :
    (slotCounted s).ring.count.toNat = s.ring.count.toNat + (enqueues s).toNat := by
  have hpush := toNat_push_count (s := advanceFill s) (by rwa [advanceFill_build])
    (slotToken s.ring.fill.toNat) (by rwa [advanceFill_count, advanceFill_build])
  rw [advanceFill_count] at hpush
  unfold slotCounted
  cases enqueues s
  · exact congrArg BitVec.toNat (advanceFill_count s)
  · exact hpush

/-- `OnSlotFull` with room for two tokens (R274, R276). -/
theorem onSlotFull_room {s : State} (hb : s.build.wf = true) (h : s.ring.fifoInv s.build)
    (hroom : s.ring.count.toNat + 2 ≤ s.build.fc) {ended : Bool}
    (hended : endsAt s (s.ring.count.toNat + (enqueues s).toNat) = ended) :
    let tokens := slotTokens s.ring.fill.toNat (enqueues s) ended
    fifoTokens (onSlotFull s) = fifoTokens s ++ tokens.map some ∧
      ∃ fifo, s.fifoPushedOnly tokens.length fifo ∧ onSlotFull s = { s with
        fault := { s.fault with lifetime := (advanceFill s).fault.lifetime }
        mem := { s.mem with fifo := fifo }
        ring := { s.ring with
          wpos := 0
          fill := (advanceFill s).ring.fill
          tail := tailAfter s tokens.length
          count := .ofNat 32 (s.ring.count.toNat + tokens.length)
          lastEnq := if enqueues s then slotToken s.ring.fill.toNat else s.ring.lastEnq
          isTriggered := s.ring.isTriggered && !ended
          gatedReading := s.ring.gatedReading || (decide (s.ring.mode = .gated) && ended) } } := by
  intro tokens
  have hlen : tokens.length ≤ 2 := slotTokens_length_le s.ring.fill.toNat (enqueues s) ended
  have hcounted := toNat_slotCounted_count hb (show s.ring.count.toNat < s.build.fc by omega)
  have hinv : (advanceFill s).ring.fifoInv (advanceFill s).build := by
    rw [advanceFill_frame]
    exact h
  have hbefore : fifoTokens (advanceFill s) = fifoTokens s := by
    rw [advanceFill_frame]
    rfl
  have hplaces : (advanceFill s).fifoPushedOnly = s.fifoPushedOnly := by
    rw [advanceFill_frame]
    rfl
  obtain ⟨hall, hbytes, hstate⟩ := pushed_pushAll (by rwa [advanceFill_build]) hinv tokens
    (by rw [advanceFill_count, advanceFill_build]; omega)
  rw [onSlotFull_pushAll s (hcounted ▸ hended)]
  refine ⟨hbefore ▸ hall, (pushAll tokens (advanceFill s)).mem.fifo, hplaces ▸ hbytes, ?_⟩
  rw [hstate, advanceFill_frame]
  rfl

/-- Settles O30: at the last value the fault is raised and stays; before it the pushes have room. -/
theorem slotFullRotates : Obligations.SlotFullRotates := by
  intro s hb h c
  obtain ⟨hwpos, -⟩ := onSlotFull_wpos_fill s
  refine ⟨fun hlast => ?_, ?_⟩
  · obtain ⟨hfault, hfill⟩ := onSlotFull_last (s := s) (by omega)
    exact ⟨hfault, hfill, hwpos⟩
  intro hc hroom pushed complete full ended tokens
  have htokens : tokens = (slotTokens c pushed ended).map some := by
    simp only [tokens, slotTokens, List.map_append]
    congr 1 <;> split <;> rfl
  obtain ⟨hall, fifo, hbytes, hstate⟩ := onSlotFull_room hb h hroom (ended := ended) rfl
  rw [htokens, List.length_map]
  refine ⟨hall, fifo, hbytes, ?_⟩
  rw [hstate, advanceFill_next hc]
  rfl

end Sys2Proof.Machine

/-!
PROOFS. The consumer's side of the ring: how `RING.GETNEXT` drains the FIFO and what it answers (O25),
and that a slot it yields is retained (O26).
-/

namespace Sys2Proof.Machine

/-! ## The loop of `RING.GETNEXT` (R280) -/

/-- `v` differs from `u` in `RESP`, `RD_ACTIVE`, `GN_TOKEN` and the surroundings alone: what the
consumer writes besides its pops (R260, R280). -/
def ReaderOnly (u v : State) : Prop :=
  v = { u with
    resp := v.resp
    env := v.env
    ring := { u.ring with rdActive := v.ring.rdActive, gnToken := v.ring.gnToken } }

/-- The token at the head is the first of the FIFO (R267, R280). -/
theorem headToken_of_written {s : State} (h : s.ring.fifoInv s.build) {t : Word}
    (ht : fifoToken s 0 = some t) : headToken s = (t, s.env.draws) := by
  obtain ⟨-, hhead, -⟩ := h
  rw [fifoToken, Nat.add_zero, Nat.mod_eq_of_lt hhead] at ht
  exact Memory.fetch32_written ht _

/-- What holds whatever the consumer records, and of the FIFO popped, holds where its loop ends: it ends
without a token, at `END`, or with a slot that is neither stale nor future (R280 to R283). -/
theorem getNextLoop_cases {P : State → Prop} (hreader : ∀ u v, ReaderOnly u v → P u → P v)
    (hpop : ∀ u, 0 < u.ring.count.toNat → P u → P (pop u)) (n : Nat) {s : State} (hs : P s) :
    ∃ u, P u ∧ (getNextLoop n s = u.setResp 0 ∨
      0 < u.ring.count.toNat ∧ (getNextLoop n s = (pop u).setResp closeResp ∨
        ∃ t, getNextLoop n s = yieldSlot t u ∧ (u.ring.fifoInv u.build → ∀ v, fifoToken u 0 = some v → v = t) ∧
          t ≠ endToken ∧ t ≠ startToken ∧ stale u t.toInt = false ∧ future u t.toInt = false)) := by
  induction n generalizing s with
  | zero => exact ⟨s, hs, .inl rfl⟩
  | succ n ih =>
    unfold getNextLoop
    by_cases hempty : s.ring.count.toNat = 0
    · rw [if_pos hempty]
      exact ⟨s, hs, .inl rfl⟩
    · have hpos : 0 < s.ring.count.toNat := Nat.pos_of_ne_zero hempty
      have hdrawn : P (s.setDraws (headToken s).2) := hreader s _ rfl hs
      have hreset : P (setRdActive false (s.setDraws (headToken s).2)) := hreader _ _ rfl hdrawn
      have hhead (h : s.ring.fifoInv s.build) (v : Word) (hv : fifoToken s 0 = some v) :
          v = (headToken s).1 := by rw [headToken_of_written h hv]
      rw [if_neg hempty]
      simp only
      split
      next => exact ⟨_, hreset, .inr ⟨hpos, .inl rfl⟩⟩
      next hend =>
        split
        next => exact ih (hpop _ hpos hreset)
        next hstart =>
          split
          next => exact ih (hpop _ hpos hdrawn)
          next hstale =>
            split
            next => exact ih (hpop _ hpos hdrawn)
            next hfuture =>
              split
              next => exact ⟨_, hdrawn, .inl rfl⟩
              next =>
                exact ⟨_, hdrawn, .inr ⟨hpos, .inr ⟨_, rfl, hhead, hend, hstart,
                  Bool.eq_false_iff.2 hstale, Bool.eq_false_iff.2 hfuture⟩⟩⟩

/-- What holds whatever the consumer records, and of the FIFO popped, holds after `RING.GETNEXT`. -/
theorem ringGetnextRule_induct {P : State → Prop} (hreader : ∀ u v, ReaderOnly u v → P u → P v)
    (hpop : ∀ u, 0 < u.ring.count.toNat → P u → P (pop u)) {s : State} (hs : P s) :
    P (ringGetnextRule s) := by
  unfold ringGetnextRule
  split
  · exact hreader s _ rfl hs
  · obtain ⟨u, hu, hend | ⟨hpos, hend | ⟨t, hend, -⟩⟩⟩ := getNextLoop_cases hreader hpop
      s.ring.count.toNat hs
    · exact hend ▸ hreader u _ rfl hu
    · exact hend ▸ hreader _ _ rfl (hpop u hpos hu)
    · exact hend ▸ hreader (pop (setRdActive true u)) _ rfl
        (hpop (setRdActive true u) hpos (hreader u _ rfl hu))

/-! ## A slot yielded is retained (R282, R283) -/

/-- `RESP` of a yield: `VALID`, the physical slot index, and no other flag (R132). -/
theorem slotResp_fields {j : Nat} (h : j < 2 ^ 16) :
    (slotResp j).getLsbD 31 = true ∧ (slotResp j).getLsbD 30 = false ∧
      (slotResp j).toNat % 2 ^ 16 = j := by
  have hval : (slotResp j).toNat = 2 ^ 31 + j := toNat_ofNat32 (by omega)
  refine ⟨?_, ?_, by omega⟩
  · rw [BitVec.getLsbD, hval, Nat.testBit_eq_decide_div_mod_eq, decide_eq_true_eq]
    omega
  · rw [BitVec.getLsbD, hval, Nat.testBit_eq_decide_div_mod_eq, decide_eq_false_iff_not]
    omega

/-- `Tokens` is a matter of the fault bits and the ring's registers and FIFO (R286 (3), (4)). -/
theorem State.Tokens.congr {s t : State} (h : s.Tokens) (hfault : t.fault = s.fault)
    (hbuild : t.build = s.build) (hfifo : t.mem.fifo = s.mem.fifo)
    (hmode : t.ring.mode = s.ring.mode) (hfill : t.ring.fill = s.ring.fill)
    (hhead : t.ring.head = s.ring.head) (hcount : t.ring.count = s.ring.count)
    (hlast : t.ring.lastEnq = s.ring.lastEnq) : t.Tokens := by
  unfold State.Tokens State.halted at h ⊢
  rwa [hfault, hmode, hfill, hcount, hlast, fifoToken_congr hbuild hfifo hhead]

/-- `Pop` of a token keeps what is said of the others (R269, R286). -/
theorem pop_tokens {s : State} (hb : s.build.wf = true) (h : s.ring.fifoInv s.build)
    (htok : s.Tokens) : (pop s).Tokens := by
  intro hrun
  obtain ⟨hlast, hkind, hrise⟩ := htok hrun
  have hcount := toNat_pop_count s
  refine ⟨hlast, fun k hk => ?_, fun j k t u hjk hk hj hu => ?_⟩
  · rw [fifoToken_pop hb h]
    exact hkind (k + 1) (by omega)
  · rw [fifoToken_pop hb h] at hj hu
    exact hrise (j + 1) (k + 1) t u (by omega) (by omega) hj hu

/-- What a consumer's loop keeps of the session of `s` (R260, R286). -/
structure SameSession (s u : State) : Prop where
  build : u.build = s.build
  fault : u.fault = s.fault
  fill : u.ring.fill = s.ring.fill
  lastEnq : u.ring.lastEnq = s.ring.lastEnq
  tokens : s.ring.fifoInv s.build → s.Tokens → u.ring.fifoInv u.build ∧ u.Tokens

theorem SameSession.reader {s u v : State} (huv : ReaderOnly u v) (h : SameSession s u) :
    SameSession s v := by
  obtain ⟨hbuild, hfault, hfill, hlast, htokens⟩ := h
  rw [huv]
  refine ⟨hbuild, hfault, hfill, hlast, fun hinv htok => ?_⟩
  obtain ⟨huinv, hutok⟩ := htokens hinv htok
  exact ⟨huinv, hutok.congr rfl rfl rfl rfl rfl rfl rfl rfl⟩

theorem SameSession.pop {s u : State} (hb : s.build.wf = true) (hpos : 0 < u.ring.count.toNat)
    (h : SameSession s u) : SameSession s (pop u) := by
  obtain ⟨hbuild, hfault, hfill, hlast, htokens⟩ := h
  refine ⟨hbuild, hfault, hfill, hlast, fun hinv htok => ?_⟩
  obtain ⟨huinv, hutok⟩ := htokens hinv htok
  have hub : u.build.wf = true := hbuild ▸ hb
  exact ⟨pop_fifoInv hub huinv hpos, pop_tokens hub huinv hutok⟩

/-- A token of the FIFO that is no sentinel is a slot of this session (R265, R286). -/
theorem SameSession.head_bounds {s u : State} (h : SameSession s u) (hrun : s.halted = false)
    (hinv : s.ring.fifoInv s.build) (htok : s.Tokens) (hpos : 0 < u.ring.count.toNat) {t : Word}
    (hhead : u.ring.fifoInv u.build → ∀ v, fifoToken u 0 = some v → v = t) (hend : t ≠ endToken)
    (hstart : t ≠ startToken) : 0 ≤ t.toInt ∧ t.toInt ≤ s.ring.lastEnq.toInt := by
  obtain ⟨-, hfault, -, hlast, htokens⟩ := h
  obtain ⟨huinv, hutok⟩ := htokens hinv htok
  obtain ⟨-, hkind, -⟩ := hutok (by rwa [State.halted, hfault])
  obtain ⟨v, hv, ⟨hsentinel, -⟩ | ⟨hslot, -, hle⟩⟩ := hkind 0 hpos
  all_goals obtain rfl := hhead huinv v hv
  · exact absurd hsentinel (not_or.2 ⟨hstart, hend⟩)
  · exact ⟨hslot, hlast ▸ hle⟩

/-- Settles O26: the guards of the loop bound the slot it yields, and it is a token of the FIFO. -/
theorem yieldedSlotIsRetained : Obligations.YieldedSlotIsRetained := by
  intro s hb hrun
  obtain ⟨-, -, -, ⟨hn, hn'⟩, -⟩ := Build.bounds hb
  refine ⟨_, exec_command .ringGetnext hrun nofun nofun, ?_⟩
  rw [perform, ringGetnextRule]
  split
  · exact ⟨fun h => absurd h (by simp), fun _ => .inl rfl⟩
  obtain ⟨u, hu, hanswer | ⟨hpos, hanswer | ⟨t, hanswer, hhead, hend, hstart, hstale, hfuture⟩⟩⟩ :=
    getNextLoop_cases (P := SameSession s) (fun u v huv hu => hu.reader huv)
      (fun u hpos hu => hu.pop hb hpos) s.ring.count.toNat
      (s := s) ⟨rfl, rfl, rfl, rfl, fun h htok => ⟨h, htok⟩⟩
  · rw [hanswer]
    exact ⟨fun h => absurd h (by simp), fun _ => .inl rfl⟩
  · rw [hanswer]
    exact ⟨fun h => absurd h (by simp), fun _ => .inr rfl⟩
  · have hslot : (slotOf u.build t.toInt : Int) = t.toInt % s.build.n := by
      rw [slotOf, hu.build, Int.toNat_of_nonneg (Int.emod_nonneg _ (by omega))]
    have hlt := Int.emod_lt_of_pos t.toInt (show (0 : Int) < s.build.n by omega)
    obtain ⟨hvalid, hclose, hindex⟩ := slotResp_fields (j := slotOf u.build t.toInt) (by omega)
    simp only [stale, future, decide_eq_false_iff_not, hu.fill, hu.build] at hstale hfuture
    rw [hanswer]
    refine ⟨fun _ => ⟨?_, ?_, rfl, ?_, hclose, fun hinv htok => ?_⟩,
      fun h => absurd hvalid (Bool.eq_false_iff.1 h)⟩
    · show (s.ring.fill.toNat : Int) - s.build.n < t.toInt
      omega
    · show t.toInt < s.ring.fill.toNat
      omega
    · show (((slotResp (slotOf u.build t.toInt)).toNat : Int) % 2 ^ 16 : Int) = t.toInt % s.build.n
      rw [← hslot]
      exact_mod_cast hindex
    · exact hu.head_bounds hrun hinv htok hpos hhead hend hstart

/-! ## What `RING.GETNEXT` skips and answers (R280) -/

/-- A token that is skipped: `START`, stale or future (R280). -/
def skipped (s : State) (t : Word) : Prop :=
  t = startToken ∨ (t ≠ endToken ∧
    (t.toInt < (s.ring.fill.toNat : Int) - s.build.n + 1 ∨ (s.ring.fill.toNat : Int) ≤ t.toInt))

/-- The `k`-th token of a written FIFO. -/
def tokenAt (s : State) (k : Nat) : Word := (fifoToken s k).getD 0

/-- `s` with `m` tokens drained: `START` clears `RD_ACTIVE` (R280). -/
def State.drained (s : State) (m : Nat) : State :=
  { s with
    ring := { s.ring with
      head := .ofNat 32 ((s.ring.head.toNat + m) % s.build.fc)
      count := .ofNat 32 (s.ring.count.toNat - m)
      rdActive := s.ring.rdActive && (List.range m).all (fun k => tokenAt s k != startToken) } }

/-- What the loop does once `n` tokens are drained and the next is not skipped (R280). -/
def State.answered (s : State) (n : Nat) : State :=
  if n = s.ring.count.toNat then (s.drained n).setResp 0
  else if tokenAt s n = endToken then (pop (setRdActive false (s.drained n))).setResp closeResp
  else if deferred (s.drained n) (tokenAt s n).toInt then (s.drained n).setResp 0
  else yieldSlot (tokenAt s n) (s.drained n)

theorem State.drained_zero {s : State} (h : s.ring.fifoInv s.build) : s.drained 0 = s := by
  obtain ⟨-, hhead, -⟩ := h
  simp [State.drained, Nat.mod_eq_of_lt hhead]

/-- `RD_ACTIVE` after one token more (R280). -/
theorem State.drained_succ_rdActive (s : State) (m : Nat) :
    (s.drained (m + 1)).ring.rdActive =
      ((s.drained m).ring.rdActive && tokenAt s m != startToken) := by
  simp [State.drained, List.range_succ, Bool.and_assoc]

section
variable {s : State} (hb : s.build.wf = true) (h : s.ring.fifoInv s.build)
include hb h

/-- The cursors of a drained FIFO, as numbers. -/
theorem State.toNat_drained (m : Nat) :
    (s.drained m).ring.head.toNat = (s.ring.head.toNat + m) % s.build.fc ∧
      (s.drained m).ring.count.toNat = s.ring.count.toNat - m := by
  obtain ⟨-, -, -, -, -, ⟨-, hfc⟩, -⟩ := Build.bounds hb
  obtain ⟨hcount, hhead, -⟩ := h
  have := Nat.mod_lt (s.ring.head.toNat + m) (by omega : s.build.fc > 0)
  exact ⟨toNat_ofNat32 (by omega), toNat_ofNat32 (by omega)⟩

/-- One token more drained: the rest is one pop, whatever becomes of `RD_ACTIVE` (R280). -/
theorem State.pop_drained (m : Nat) (active : Bool) :
    pop (setRdActive active (s.drained m)) = setRdActive active (s.drained (m + 1)) := by
  obtain ⟨hhead, hcount⟩ := State.toNat_drained hb h m
  have hnext : ((s.drained m).ring.head.toNat + 1) % s.build.fc =
      (s.ring.head.toNat + (m + 1)) % s.build.fc := by
    rw [hhead, Nat.mod_add_mod, Nat.add_assoc]
  have hleft : (s.drained m).ring.count.toNat - 1 = s.ring.count.toNat - (m + 1) := by omega
  show { s.drained m with ring := { (setRdActive active (s.drained m)).ring with
    head := .ofNat 32 (((s.drained m).ring.head.toNat + 1) % s.build.fc)
    count := .ofNat 32 ((s.drained m).ring.count.toNat - 1) } } = _
  rw [hnext, hleft]
  rfl

/-- A `START` is drained by a pop that clears `RD_ACTIVE` (R280). -/
theorem State.pop_drained_start {m : Nat} (hm : tokenAt s m = startToken) :
    pop (setRdActive false (s.drained m)) = s.drained (m + 1) := by
  have hidle : (s.drained (m + 1)).ring.rdActive = false := by
    rw [State.drained_succ_rdActive, hm]
    simp
  rw [State.pop_drained hb h, ← hidle]
  rfl

/-- Any other token is drained by a pop alone (R280). -/
theorem State.pop_drained_slot {m : Nat} (hm : tokenAt s m ≠ startToken) :
    pop (s.drained m) = s.drained (m + 1) := by
  have hkept : (s.drained (m + 1)).ring.rdActive = (s.drained m).ring.rdActive := by
    rw [State.drained_succ_rdActive, bne_iff_ne.2 hm, Bool.and_true]
  refine (State.pop_drained hb h m (s.drained m).ring.rdActive).trans ?_
  rw [← hkept]
  rfl

/-- The head of a drained FIFO is the next token, and reading it draws nothing (R280). -/
theorem State.headToken_drained (hw : s.FifoWritten) {m : Nat} (hm : m < s.ring.count.toNat) :
    headToken (s.drained m) = (tokenAt s m, s.env.draws) := by
  obtain ⟨t, ht⟩ := Option.isSome_iff_exists.1 (hw m hm)
  obtain ⟨hhead, -⟩ := State.toNat_drained hb h m
  rw [tokenAt, ht, headToken, hhead]
  exact Memory.fetch32_written ht _

/-- The loop drains tokens while they are skipped, and then answers (R280). -/
theorem getNextLoop_drained (hw : s.FifoWritten) (r : Nat) {m : Nat}
    (hm : m + r = s.ring.count.toNat) (hskip : ∀ k, k < m → skipped s (tokenAt s k)) :
    ∃ n, n ≤ s.ring.count.toNat ∧ (∀ k, k < n → skipped s (tokenAt s k)) ∧
      (n < s.ring.count.toNat → ¬ skipped s (tokenAt s n)) ∧
      getNextLoop r (s.drained m) = s.answered n := by
  induction r generalizing m with
  | zero =>
    refine ⟨m, by omega, hskip, fun _ => by omega, ?_⟩
    rw [State.answered, if_pos (by omega)]
    rfl
  | succ r ih =>
    have hmlt : m < s.ring.count.toNat := by omega
    obtain ⟨-, hcount⟩ := State.toNat_drained hb h m
    have hnext (hs : skipped s (tokenAt s m)) (k : Nat) (hk : k < m + 1) :
        skipped s (tokenAt s k) := by
      rcases Nat.lt_succ_iff_lt_or_eq.1 hk with hk | rfl
      · exact hskip k hk
      · exact hs
    have hdrawn : (s.drained m).setDraws s.env.draws = s.drained m := rfl
    have hstale : stale (s.drained m) (tokenAt s m).toInt = true ↔
        (tokenAt s m).toInt < (s.ring.fill.toNat : Int) - s.build.n + 1 := decide_eq_true_iff
    have hfuture : future (s.drained m) (tokenAt s m).toInt = true ↔
        (s.ring.fill.toNat : Int) ≤ (tokenAt s m).toInt := decide_eq_true_iff
    unfold getNextLoop
    rw [if_neg (by omega), State.headToken_drained hb h hw hmlt]
    simp only [hdrawn]
    by_cases hend : tokenAt s m = endToken
    · refine ⟨m, by omega, hskip, fun _ hs => ?_, ?_⟩
      · rcases hs with hs | ⟨hs, -⟩
        · exact absurd (hend.symm.trans hs) (by decide)
        · exact hs hend
      · rw [State.answered, if_neg hmlt.ne, if_pos hend, if_pos hend]
    by_cases hstart : tokenAt s m = startToken
    · rw [if_neg hend, if_pos hstart, State.pop_drained_start hb h hstart]
      exact ih (by omega) (hnext (.inl hstart))
    by_cases hold : (tokenAt s m).toInt < (s.ring.fill.toNat : Int) - s.build.n + 1
    · rw [if_neg hend, if_neg hstart, if_pos (hstale.2 hold), State.pop_drained_slot hb h hstart]
      exact ih (by omega) (hnext (.inr ⟨hend, .inl hold⟩))
    by_cases hnew : (s.ring.fill.toNat : Int) ≤ (tokenAt s m).toInt
    · rw [if_neg hend, if_neg hstart, if_neg (hold ∘ hstale.1), if_pos (hfuture.2 hnew),
        State.pop_drained_slot hb h hstart]
      exact ih (by omega) (hnext (.inr ⟨hend, .inr hnew⟩))
    · refine ⟨m, by omega, hskip, fun _ hs => ?_, ?_⟩
      · rcases hs with hs | ⟨-, hs | hs⟩
        · exact hstart hs
        · exact hold hs
        · exact hnew hs
      · rw [if_neg hend, if_neg hstart, if_neg (hold ∘ hstale.1), if_neg (hnew ∘ hfuture.1),
          State.answered, if_neg hmlt.ne, if_neg hend]

end

/-- Settles O25, by the loop from the FIFO as it stands. -/
theorem getnextDrainsTheFifo : Obligations.GetnextDrainsTheFifo := by
  refine ⟨rfl, fun s hb hrun h hw => ?_⟩
  rw [exec_command .ringGetnext hrun nofun nofun, perform, ringGetnextRule]
  refine ⟨fun hgated hopen => by rw [if_pos ⟨hgated, hopen⟩]; rfl, fun hopen => ?_⟩
  obtain ⟨n, hn, hskip, hstop, hloop⟩ := getNextLoop_drained hb h hw s.ring.count.toNat
    (m := 0) (Nat.zero_add _) (fun k hk => absurd hk (Nat.not_lt_zero k))
  rw [State.drained_zero h] at hloop
  refine ⟨n, hn, hskip, hstop, congrArg Host.Outcome.next ?_⟩
  rw [if_neg (by rintro ⟨hgated, hclosed⟩; simp_all), hloop, State.answered]
  by_cases hall : n = s.ring.count.toNat
  · rw [if_pos hall, if_pos hall]
    rfl
  rw [if_neg hall, if_neg hall]
  by_cases hend : tokenAt s n = endToken
  · rw [if_pos hend, State.pop_drained hb h]
    exact (if_pos hend).symm
  rw [if_neg hend]
  refine Eq.trans ?_ (if_neg hend).symm
  have hdeferred : deferred (s.drained n) (tokenAt s n).toInt = true ↔ s.ring.mode ≠ .gated ∧
      (s.drained n).ring.rdActive = false ∧
      (s.ring.fill.toNat : Int) - (tokenAt s n).toInt < s.ring.maxReadLead.toNat := by
    simp only [deferred, Bool.and_eq_true, bne_iff_ne, Bool.not_eq_true', decide_eq_true_eq,
      and_assoc]
    rfl
  by_cases hwait : deferred (s.drained n) (tokenAt s n).toInt = true
  · rw [if_pos hwait]
    exact (if_pos (hdeferred.1 hwait)).symm
  · rw [if_neg hwait, yieldSlot, State.pop_drained hb h]
    exact (if_neg (hwait ∘ hdeferred.2)).symm

end Sys2Proof.Machine

/-!
PROOFS. The invariant of the machine (O36): every operation keeps the registers in their ranges and the
memories in canonical form, the producer's procedures one by one.
-/

namespace Sys2Proof.Machine

/-! ## The ring's invariant along the producer's procedures (R38, R80, R286) -/

/-- The ring's flags agree with its mode and with each other (R272, R274, R286 (6)). -/
def RingUnit.flagsInv (r : RingUnit) : Prop :=
  (r.gatedReading = true → r.mode = .gated) ∧ (r.recDone = true → r.gatedReading = true) ∧
    (r.isTriggered = true → r.mode ≠ .continuous ∧ r.gatedReading = false)

/-- The invariant without the slot cursor, which passes its range between a Sample and `OnSlotFull`; the
memories are in canonical form if `canonical` says that it is asked for. -/
def State.CursorInv (s : State) (canonical : Prop) : Prop :=
  s.build.wf = true ∧ (canonical → s.mem.inv s.build) ∧ s.ring.fifoInv s.build ∧ s.ring.flagsInv

/-- The part of the invariant that the producer can touch. -/
def State.RingInv (s : State) (canonical : Prop) : Prop :=
  s.CursorInv canonical ∧ s.ring.wpos.toNat < s.build.e

theorem State.Inv.ringInv {s : State} (h : s.Inv) : s.RingInv True := by
  obtain ⟨hb, hmem, -, -, hwpos, hfifo, hflags⟩ := h
  exact ⟨⟨hb, fun _ => hmem, hfifo, hflags⟩, hwpos⟩

/-- What is left to prove of the invariant where the gain and the detector are as before. -/
theorem State.Inv.of_ringInv {s t : State} (h : s.Inv) (hbuild : t.build = s.build)
    (hgain : t.gain = s.gain) (hdet : t.det = s.det) (hring : t.RingInv True) : t.Inv := by
  obtain ⟨-, -, hg, hd, -⟩ := h
  obtain ⟨⟨hb, hmem, hfifo, hflags⟩, hwpos⟩ := hring
  refine ⟨hb, hmem trivial, ?_, ?_, hwpos, hfifo, hflags⟩
  · rwa [hbuild, hgain]
  · rwa [hbuild, hdet]

section
variable {canonical : Prop}

/-- With the gate open in `GATED_READING` too (R286 (6)). -/
theorem RingUnit.flagsInv.reading_of_open {s : State} (h : s.ring.flagsInv)
    (hopen : gateClosed s = false) : s.ring.gatedReading = false := by
  obtain ⟨hgated, -⟩ := h
  by_contra hclosed
  have hclosed : s.ring.gatedReading = true := by simpa using hclosed
  exact Bool.eq_false_iff.1 hopen (gateClosed_iff.2 ⟨hgated hclosed, hclosed⟩)

/-- A FIFO element written is in the FIFO (R80). -/
theorem push_cursorInv {s : State} (h : s.CursorInv canonical) (t : Word) : (push t s).CursorInv canonical := by
  obtain ⟨hb, hmem, hfifo, hflags⟩ := h
  refine ⟨by rwa [push_build], ?_, push_build t s ▸ push_fifoInv hb hfifo t, ?_⟩
  · intro hasked
    obtain ⟨hraw, hhf, hslot, hwf, hwithin⟩ := hmem hasked
    by_cases hfull : s.ring.count.toNat = s.build.fc
    · rw [push_full t hfull]
      exact ⟨hraw, hhf, hslot, hwf, hwithin⟩
    · rw [push_room t hfull]
      exact ⟨hraw, hhf, hslot, Memory.wf_write32 hwf _ _,
        Memory.within_write32 hwithin (RingUnit.tail_lt hfifo) _⟩
  · rw [RingUnit.flagsInv, push_mode, push_gatedReading, push_recDone, push_isTriggered]
    exact hflags

theorem pushAll_cursorInv {s : State} (h : s.CursorInv canonical) (ts : List Word) :
    (pushAll ts s).CursorInv canonical := by
  induction ts generalizing s with
  | nil => exact h
  | cons t ts ih => exact ih (push_cursorInv h t)

/-- A trigger outside continuous mode and with the gate open (R272). -/
theorem onTrigger_ringInv {s : State} (h : s.RingInv canonical) (hmode : s.ring.mode ≠ .continuous)
    (hopen : gateClosed s = false) : (onTrigger s).RingInv canonical := by
  obtain ⟨hinv, hwpos⟩ := h
  have hreading : s.ring.gatedReading = false := by
    obtain ⟨-, -, -, hflags⟩ := hinv
    exact hflags.reading_of_open hopen
  unfold onTrigger
  split
  · exact ⟨hinv, hwpos⟩
  · obtain ⟨hb, hmem, hfifo, hgated, hrec, -⟩ := pushAll_cursorInv hinv (triggerTokens s)
    rw [firstTrigger_eq, pushAll_frame]
    rw [pushAll_frame] at hb hmem hfifo hgated hrec
    exact ⟨⟨hb, hmem, hfifo, hgated, hrec, fun _ => ⟨hmode, hreading⟩⟩, hwpos⟩

/-- `OnSlotFull` brings the slot cursor back to 0 (R274). -/
theorem onSlotFull_ringInv {s : State} (h : s.CursorInv canonical) : (onSlotFull s).RingInv canonical := by
  obtain ⟨hb, hmem, hfifo, hflags⟩ := h
  obtain ⟨hgated, hrec, htrig⟩ := hflags
  obtain ⟨-, -, -, -, ⟨he, -⟩, -⟩ := Build.bounds hb
  have hadvanced : (advanceFill s).CursorInv canonical := by
    rw [advanceFill_frame]
    exact ⟨hb, hmem, hfifo, hgated, hrec, htrig⟩
  obtain ⟨ended, hended⟩ : ∃ ended, endsAt s (slotCounted s).ring.count.toNat = ended := ⟨_, rfl⟩
  obtain ⟨hb', hmem', hfifo', -⟩ :=
    pushAll_cursorInv hadvanced (slotTokens s.ring.fill.toNat (enqueues s) ended)
  rw [onSlotFull_pushAll s hended]
  rw [pushAll_frame, advanceFill_frame] at hb' hmem' hfifo' ⊢
  refine ⟨⟨hb', hmem', hfifo', ?_, ?_, ?_⟩, he⟩
  · show (s.ring.gatedReading || (decide (s.ring.mode = .gated) && ended)) = true → _
    rw [Bool.or_eq_true, Bool.and_eq_true, decide_eq_true_eq]
    exact fun h => h.elim hgated fun h => h.1
  · exact fun h => Bool.or_eq_true_iff.2 (.inl (hrec h))
  · show (s.ring.isTriggered && !ended) = true → _ ∧
      (s.ring.gatedReading || (decide (s.ring.mode = .gated) && ended)) = false
    rw [Bool.and_eq_true, Bool.not_eq_true']
    rintro ⟨hopen, rfl⟩
    obtain ⟨hmode, hreading⟩ := htrig hopen
    exact ⟨hmode, by rw [hreading, Bool.and_false, Bool.or_false]⟩

/-- A Sample is stored in a populated slot (R80, R270). -/
theorem storeSample_cursorInv {s : State} (h : s.RingInv canonical) (x : Half) :
    (storeSample x s).CursorInv canonical ∧ (storeSample x s).ring.wpos.toNat = s.ring.wpos.toNat + 1 := by
  obtain ⟨⟨hb, hmem, hinv, hflags⟩, hwpos⟩ := h
  obtain ⟨-, -, -, ⟨hn, -⟩, ⟨-, hslots⟩, -⟩ := Build.bounds hb
  have hplace : s.ring.fill.toNat % s.build.n * s.build.e + s.ring.wpos.toNat <
      s.build.n * s.build.e := by
    have hslot := Nat.mod_lt s.ring.fill.toNat (by omega : s.build.n > 0)
    calc _ < (s.ring.fill.toNat % s.build.n + 1) * s.build.e := by rw [Nat.succ_mul]; omega
      _ ≤ _ := Nat.mul_le_mul_right _ hslot
  have he : s.build.e ≤ s.build.n * s.build.e := Nat.le_mul_of_pos_left _ (by omega)
  rw [storeSample_eq, slotOf_nat]
  refine ⟨⟨hb, fun hasked => ?_, hinv, hflags⟩, toNat_ofNat32 ?_⟩
  · obtain ⟨hraw, hhf, ⟨hwf, hwithin⟩, hfifo⟩ := hmem hasked
    exact ⟨hraw, hhf, ⟨Memory.wf_write16 hwf _ _, Memory.within_write16 hwithin hplace _⟩, hfifo⟩
  · rw [Nat.mul_assoc] at hslots
    omega

theorem appendSample_ringInv {s : State} (h : s.RingInv canonical) (x : Half) : (appendSample x s).RingInv canonical := by
  obtain ⟨hstored, hwpos⟩ := storeSample_cursorInv h x
  obtain ⟨-, hlt⟩ := h
  unfold appendSample
  simp only
  split
  · exact onSlotFull_ringInv hstored
  next hmore =>
    have hmore : (storeSample x s).ring.wpos.toNat ≠ s.build.e := hmore
    exact ⟨hstored, show (storeSample x s).ring.wpos.toNat < s.build.e by omega⟩

theorem appendSamples_ringInv {s : State} (h : s.RingInv canonical) (xs : List Half) :
    (appendSamples xs s).RingInv canonical := by
  induction xs generalizing s with
  | nil => exact h
  | cons x xs ih =>
    unfold appendSamples
    split
    · exact h
    · exact ih (appendSample_ringInv h x)

/-- A gate reopened leaves no trigger state (R274, R276). -/
theorem reopenGate_ringInv {s : State} (h : s.RingInv canonical) : (reopenGate s).RingInv canonical := by
  obtain ⟨⟨hb, hmem, hfifo, -, -, htrig⟩, hwpos⟩ := h
  have hopened : s.opened.CursorInv canonical :=
    ⟨hb, hmem, hfifo, nofun, nofun, fun h => ⟨(htrig h).1, rfl⟩⟩
  rw [reopenGate_eq]
  refine ⟨push_cursorInv hopened startToken, ?_⟩
  rwa [push_wpos, push_build]

/-- `RingAppend` keeps the ring's invariant (R270). -/
theorem ringAppend_ringInv {s : State} (h : s.RingInv canonical) (xs : List Half) :
    (ringAppend xs s).RingInv canonical := by
  have htaken : State.RingInv (canonical := canonical) { s with trigFlag := false } := h
  unfold ringAppend
  simp only
  by_cases hgate : gateClosed s = true
  · rw [if_pos hgate]
    split
    · exact appendSamples_ringInv (reopenGate_ringInv htaken) xs
    · exact htaken
  · rw [if_neg hgate]
    split
    next htrigger =>
      exact appendSamples_ringInv
        (onTrigger_ringInv htaken htrigger.2 (Bool.eq_false_iff.2 hgate)) xs
    next => exact appendSamples_ringInv htaken xs

end

/-- An address of `RAW` names a populated element (R80, R83). -/
theorem lt_of_targetOf_raw {b : Build} {addr : Word} {i : Nat}
    (h : targetOf b addr = some (.raw i)) : i < 2 * b.h := by
  rw [targetOf, spaceOf_of_targetOf_raw h] at h
  obtain ⟨j, hj, heq⟩ := Option.map_eq_some_iff.1 h
  obtain rfl := Target.raw.inj heq
  unfold elementAt at hj
  split at hj
  next hin => exact Option.some.inj hj ▸ hin.2
  next => exact nomatch hj

/-! ## The invariant along every operation (R34, R35, R171, R286) -/

section
variable {s : State} (h : s.Inv)
include h

/-- A range of the table is stored as it is (R31, R171). -/
theorem State.Inv.withRange {r : Nat} (hr : r < s.build.nr) (resp : Word) (dis : Bool) (env : Env) :
    State.Inv { s with
      resp := resp, gain := { s.gain with range := .ofNat 8 r, dis := dis }, env := env } := by
  obtain ⟨hb, hmem, -, hdet, hring⟩ := h
  obtain ⟨-, -, -, -, -, -, -, hnr⟩ := Build.bounds hb
  refine ⟨hb, hmem, ?_, hdet, hring⟩
  show (BitVec.ofNat 8 r).toNat < s.build.nr
  rwa [toNat_ofNat8 (by omega)]

/-- The commands that may move the gain stay in the table (R171 to R175). -/
theorem State.Inv.perform_setsGain {j : Instr} (hj : setsGain j = true) : (perform j s).Inv := by
  obtain ⟨hb, -, hgain, -⟩ := id h
  obtain ⟨-, -, -, -, -, -, hnr, -⟩ := Build.bounds hb
  have hhi : rangeHi s < s.build.nr := clampRange_lt s 255 hnr
  have hrange : s.gain.range.toNat < s.build.nr := hgain
  cases j with
  | gainSet range dis =>
    rw [perform, gainSetRule, selectRange_eq]
    exact h.withRange (clampRange_lt s range.toNat hnr) _ _ _
  | gainSetdb db dis =>
    have hnearest := (nearestRange_nearest s db).lt
    rw [perform, gainSetdbRule, selectRange_eq]
    exact h.withRange (by omega) _ _ _
  | gainUp =>
    rw [perform, gainUpRule, gainEmit_setRange_eq]
    split
    · exact h.withRange (by omega) _ _ _
    · exact h
  | gainDown =>
    rw [perform, gainDownRule, gainEmit_setRange_eq]
    split
    · exact h.withRange (by omega) _ _ _
    · exact h
  | _ => exact nomatch hj

/-- `WIN` counts up to `NSW`, and the match result is of `NB` buckets (R32, R34, R35, R222). -/
theorem State.Inv.detWinRule : (detWinRule s).Inv := by
  obtain ⟨hb, hmem, hgain, ⟨hthr, hwin, -, -⟩, hring⟩ := id h
  obtain ⟨-, ⟨-, -, hnb⟩, ⟨-, -, hnsw⟩, -⟩ := Build.bounds hb
  unfold Machine.detWinRule
  split
  · exact h
  next hopen =>
    obtain ⟨-, hmore⟩ := not_or.1 hopen
    simp only
    generalize bucketPower s.build (subWindow s).1 = p
    generalize hms : matchBits (s.setDraws (subWindow s).2) p = ms
    have hlen : ms.length = s.build.nb := by rw [← hms, matchBits_length, State.setDraws_build]
    have hcount := (List.count_le_length (a := true) (l := ms)).trans_eq hlen
    have hvec := packBits_lt ms
    rw [hlen] at hvec
    refine ⟨hb, hmem, hgain, ⟨hthr, ?_, ?_, ?_⟩, hring⟩
    · show (BitVec.ofNat 8 (s.det.win.toNat + 1)).toNat ≤ s.build.nsw
      rw [toNat_ofNat8 (by omega)]
      omega
    · show (BitVec.ofNat 256 (packBits (matchBits (s.setDraws (subWindow s).2) p))).toNat < _
      rw [hms, BitVec.toNat_ofNat]
      exact (Nat.mod_le _ _).trans_lt hvec
    · show (BitVec.ofNat 16 ((matchBits (s.setDraws (subWindow s).2) p).count true)).toNat ≤ _
      rw [hms, BitVec.toNat_ofNat]
      exact (Nat.mod_le _ _).trans hcount

/-- A hand-over of any samples (R196). -/
theorem State.Inv.handOver (xs : List Half) : (handOver xs s).Inv := by
  unfold Machine.handOver
  split
  · exact h
  · have hring := ringAppend_ringOnly xs s
    obtain ⟨hbuild, -, -, -, -, hgain, hdet, -⟩ := hring.fields
    exact h.of_ringInv hbuild hgain hdet (ringAppend_ringInv h.ringInv xs)
  · exact h

/-- A publication writes `H` Samples to `HF` (R80, R191). -/
theorem State.Inv.hfReadyRule (half : BitVec 1) (offset : Half) (shift : BitVec 4) :
    (hfReadyRule half offset shift s).Inv := by
  obtain ⟨hb, ⟨hraw, ⟨hwf, hwithin⟩, hslot, hfifo⟩, hrest⟩ := h
  have hlen : ((scaleAll offset shift s (rawHalf half s).1).map (narrow s.build.narrow)).length =
      s.build.h := by simp [scaleAll, rawHalf]
  rw [hfReadyRule_publication half offset shift rfl rfl rfl]
  refine State.Inv.handOver (s := s.afterPublication _ _ _) ⟨hb, ⟨hraw, ⟨?_, ?_⟩, hslot, hfifo⟩, hrest⟩ _
  · exact Memory.wf_writeRun hwf _ _
  · exact Memory.within_writeRun hwithin _ _ (by rw [hlen, Nat.zero_add])

/-- A session starts with an empty FIFO, `START` apart (R266). -/
theorem State.Inv.ringResetRule (mode : Mode) : (ringResetRule mode s).Inv := by
  obtain ⟨⟨hb, hmem, -⟩, -⟩ := h.ringInv
  obtain ⟨-, -, -, -, ⟨he, -⟩, -⟩ := Build.bounds hb
  have hcleared : (s.cleared mode).CursorInv True :=
    ⟨hb, hmem, State.cleared_fifoInv hb mode, nofun, nofun, nofun⟩
  rw [ringResetRule_cleared]
  split
  · obtain ⟨hbuild, -, -, -, -, hgain, hdet, -⟩ :=
      (push_ringOnly startToken (s.cleared mode)).fields
    refine h.of_ringInv hbuild hgain hdet ⟨push_cursorInv hcleared startToken, ?_⟩
    rw [State.setResp_ring, State.setResp_build, push_wpos, push_build]
    exact he
  · exact h.of_ringInv rfl rfl rfl ⟨hcleared, he⟩

/-- The consumer's pops keep the FIFO's cursors (R269, R280). -/
theorem State.Inv.ringGetnextRule : (ringGetnextRule s).Inv := by
  refine ringGetnextRule_induct (P := State.Inv) (fun u v huv hu => ?_) (fun u hpos hu => ?_) h
  · rw [huv]
    exact hu
  · obtain ⟨hb, hmem, hgain, hdet, hwpos, hfifo, hflags⟩ := hu
    exact ⟨hb, hmem, hgain, hdet, hwpos, pop_fifoInv hb hfifo hpos, hflags⟩

/-- Every command of a running core (R154). -/
theorem State.Inv.perform (j : Instr) : (perform j s).Inv := by
  by_cases hgain : setsGain j = true
  · exact h.perform_setsGain hgain
  obtain ⟨hb, hmem, hg, ⟨hthr, hwin, hvec, hcnt⟩, hring⟩ := id h
  cases j with
  | sysReset => exact State.resetOf_inv s.env hb
  | hfReady half offset shift => exact h.hfReadyRule half offset shift
  | detBegin =>
    simp only [Machine.perform, detBeginRule]
    split
    · exact h
    · split
      · exact ⟨hb, hmem, hg, ⟨hthr, Nat.zero_le _, hvec, hcnt⟩, hring⟩
      · exact h
  | detWin => exact h.detWinRule
  | detCommit =>
    simp only [Machine.perform, detCommitRule]
    split
    · exact h
    · split
      · split <;> exact h
      · exact h
  | ringReset mode => exact h.ringResetRule mode
  | ringGetnext => exact h.ringGetnextRule
  | ringRecdone =>
    obtain ⟨hwpos, hfifo, hgated, -, htrig⟩ := hring
    simp only [Machine.perform, ringRecdoneRule]
    split
    next hclosed =>
      obtain ⟨-, hreading⟩ := gateClosed_iff.1 hclosed
      exact ⟨hb, hmem, hg, ⟨hthr, hwin, hvec, hcnt⟩, hwpos, hfifo, hgated, fun _ => hreading, htrig⟩
    next => exact h
  | gainSet | gainSetdb | gainUp | gainDown => exact absurd rfl hgain
  | _ => exact h

/-- A configuration register's store changes no range and no table's length (R40 to R45). -/
theorem State.Inv.csrStore (v : Word) (r : Csr) : (csrStore v s r).Inv := by
  obtain ⟨hb, hmem, hg, ⟨hthr, hdet⟩, hring⟩ := id h
  have hset (k : Nat) (t : Threshold) : (setThr s k t).Inv :=
    ⟨hb, hmem, hg, ⟨(List.length_set ..).trans hthr, hdet⟩, hring⟩
  cases r with
  | thrLo k | thrHi k | thrCtl k => exact hset k _
  | _ => exact h

theorem State.Inv.cmdWrite (w : Word) : (cmdWrite w s).Inv := by
  unfold Machine.cmdWrite
  split
  · exact h
  · split
    · exact h.perform _
    · exact h

theorem State.Inv.writeCsr (r : Csr) (data : Word) : (writeCsr r data s).Inv := by
  unfold Machine.writeCsr
  split
  · exact h.cmdWrite data
  · split <;> exact h
  · split
    · exact h
    · exact h.csrStore data r
  · exact h

/-- A bus write reaches a populated element of `RAW`, a register or nothing (R80, R151). -/
theorem State.Inv.busWrRule (addr data : Word) : (busWrRule addr data s).Inv := by
  unfold Machine.busWrRule
  split
  case h_1 r _ => exact h.writeCsr r data
  case h_2 i htarget =>
    obtain ⟨hb, ⟨⟨hwf, hwithin⟩, hmem⟩, hrest⟩ := h
    rw [show 4 * s.build.h = 2 * (2 * s.build.h) by omega] at hwithin
    have hraw := Memory.within_write16 hwithin (lt_of_targetOf_raw htarget) (data.setWidth 16)
    rw [show 2 * (2 * s.build.h) = 4 * s.build.h by omega] at hraw
    exact ⟨hb, ⟨⟨Memory.wf_write16 hwf _ _, hraw⟩, hmem⟩, hrest⟩
  all_goals exact h

theorem State.Inv.busRdRule (addr : Word) : (busRdRule addr s).Inv := by
  unfold Machine.busRdRule
  split <;> exact h

/-- Every operation (R150, R151, R154). -/
theorem State.Inv.exec {i : Instr} {t : State} (hexec : exec i s = .next t) : t.Inv := by
  by_cases hreset : i = .sysReset
  · subst hreset
    obtain rfl := Host.Outcome.next.inj hexec
    exact h.perform .sysReset
  by_cases hcommand : isCommand i = true
  · rw [exec_eq_command hcommand hreset] at hexec
    obtain rfl := Host.Outcome.next.inj hexec
    unfold command
    split
    · exact h
    · exact h.perform i
  cases i with
  | busRd addr =>
    obtain rfl := Host.Outcome.next.inj hexec
    exact h.busRdRule addr
  | busWr addr data =>
    obtain rfl := Host.Outcome.next.inj hexec
    exact h.busWrRule addr data
  | _ => exact absurd rfl hcommand

end

/-- Settles O36: taking an offer writes no register of the core, a reset state has the invariant and
every operation keeps it. -/
theorem stepKeepsInvariant : Obligations.StepKeepsInvariant := by
  intro s t h hstep
  rcases step_next_cases hstep with rfl | ⟨turns, rfl⟩ | ⟨a, op, rest, turns, hexec⟩
  · exact h
  · obtain ⟨hb, -⟩ := h
    exact State.resetOf_inv _ hb
  · exact State.Inv.exec (s := s.granted a rest turns) h hexec

end Sys2Proof.Machine

/-!
PROOFS. What a step can do to the ring, and two invariants along it: a gated batch fits in the FIFO
(O35), and the last completed slot of an open sequence is enqueued (O40).
-/

namespace Sys2Proof.Machine

/-! ## What a step can do to the ring (R91, R260) -/

/-- Of the ring and the faults `t` differs from `s` in the configuration registers alone (R45, R260). -/
structure RingKept (s t : State) : Prop where
  build : t.build = s.build
  fault : t.fault = s.fault
  fifo : t.mem.fifo = s.mem.fifo
  ring : t.ring = { s.ring with
    pretrigSlots := t.ring.pretrigSlots, minSlots := t.ring.minSlots
    bufferDelta := t.ring.bufferDelta, maxReadLead := t.ring.maxReadLead }

theorem RingKept.refl (s : State) : RingKept s s := ⟨rfl, rfl, rfl, rfl⟩

/-- What `RingKept` says of the invariant of the ring. -/
theorem RingKept.inv {s t : State} (hk : RingKept s t) (h : s.ring.inv s.build) :
    t.ring.inv t.build := by
  rw [hk.build, hk.ring]
  exact h

/-- Those of the ring's commands that have a rule of their own for it, and the resets (R266 to R281). -/
def movesRing : Instr → Bool
  | .sysReset => true
  | .hfReady _ _ _ => true
  | .ringReset _ => true
  | .ringGetnext => true
  | .ringRecdone => true
  | _ => false

/-- Every other command leaves the ring alone (R260). -/
theorem perform_ringKept {j : Instr} (hj : movesRing j = false) (s : State) :
    RingKept s (perform j s) := by
  by_cases hgain : setsGain j = true
  · obtain ⟨resp, range, dis, env, heq⟩ := perform_setsGain_eq hgain s
    rw [heq]
    exact ⟨rfl, rfl, rfl, rfl⟩
  cases j with
  | sysReset | hfReady | ringReset | ringGetnext | ringRecdone => exact nomatch hj
  | gainSet | gainSetdb | gainUp | gainDown => exact absurd rfl hgain
  | detBegin =>
    simp only [perform, detBeginRule]
    split
    · exact ⟨rfl, rfl, rfl, rfl⟩
    · split <;> exact ⟨rfl, rfl, rfl, rfl⟩
  | detWin =>
    simp only [perform, detWinRule]
    split <;> exact ⟨rfl, rfl, rfl, rfl⟩
  | detCommit =>
    simp only [perform, detCommitRule]
    split
    · exact ⟨rfl, rfl, rfl, rfl⟩
    · split
      · split <;> exact ⟨rfl, rfl, rfl, rfl⟩
      · exact ⟨rfl, rfl, rfl, rfl⟩
  | _ => exact ⟨rfl, rfl, rfl, rfl⟩

/-- What the operation `i` can make of the ring of `s`: one case per rule that writes it (R260). -/
inductive RingEffect (i : Instr) (s : State) : State → Prop
  | kept {t : State} (hk : RingKept s t) : RingEffect i s t
  /-- A publication while `RING` is registered (R196). -/
  | append (xs : List Half) {u : State} (hrun : s.halted = false) (hk : RingKept s u) :
      RingEffect i s ((ringAppend xs u).setResp 0)
  | session (mode : Mode) (hrun : s.halted = false) : RingEffect i s (ringResetRule mode s)
  | getnext (hrun : s.halted = false) : RingEffect i s (ringGetnextRule s)
  | recdone (hrun : s.halted = false) (hi : carried i = .ringRecdone) :
      RingEffect i s (ringRecdoneRule s)
  | reset : RingEffect i s s.resetCore

/-- A command of a running core (R154). -/
theorem perform_ringEffect {i : Instr} {s : State} (hrun : s.halted = false) :
    RingEffect i s (perform (carried i) s) := by
  by_cases hmoves : movesRing (carried i) = false
  · exact .kept (perform_ringKept hmoves s)
  cases hi : carried i with
  | hfReady half offset shift =>
    obtain ⟨xs, ovl, env, heq⟩ := hfReadyRule_eq half offset shift s
    have hk : RingKept s (s.afterPublication xs ovl env) := ⟨rfl, rfl, rfl, rfl⟩
    rw [perform, heq]
    by_cases hproc : s.acq.proc = .ring
    · rw [handOver_of_ring xs (s := s.afterPublication xs ovl env) hproc]
      exact .append xs hrun hk
    · obtain ⟨es, hand⟩ := handOver_of_ne_ring xs (s := s.afterPublication xs ovl env) hproc
      rw [hand]
      exact .kept ⟨rfl, rfl, rfl, rfl⟩
  | ringReset mode => exact .session mode hrun
  | ringGetnext => exact .getnext hrun
  | ringRecdone => exact .recdone hrun hi
  | sysReset => exact .reset
  | _ => exact absurd (by rw [hi]; rfl) hmoves

/-- Every way an operation can end (R150, R151, R154). -/
theorem Effect.ringEffect {i : Instr} {s t : State} (h : Effect i s t) : RingEffect i s t := by
  cases h with
  | command _ _ hrun => exact perform_ringEffect hrun
  | store off width data r _ _ _ =>
    rw [csrStore_frame]
    exact .kept ⟨rfl, rfl, rfl, rfl⟩
  | _ => exact .kept ⟨rfl, rfl, rfl, rfl⟩

/-- What a transaction carries is what it decodes to (R120). -/
theorem carried_instr (op : BusOp) : carried op.instr = op.instr := by
  cases op with
  | rd addr => rfl
  | wr addr data =>
    by_cases haddr : addr = cmdAddr
    · cases hd : decodeCommand data with
      | error e => simp [BusOp.instr, decode, haddr, hd, carried]
      | ok i =>
        have hdecode : decode (.wr addr data) = .ok i := (if_pos haddr).trans hd
        rw [BusOp.instr_of_decode hdecode, carried_of_isCommand (isCommand_of_decode hd)]
    · have hdecode : decode (.wr addr data) = .ok (.busWr addr data) := if_neg haddr
      rw [BusOp.instr_of_decode hdecode]
      exact BusOp.instr_of_decode hdecode

/-- What a step takes from the offers is in the surroundings alone (R95). -/
theorem nextWork_env (s : State) :
    (∀ u, nextWork s = .hardReset u → u = { s with env := u.env }) ∧
      ∀ op u, nextWork s = .operation op u → u = { s with env := u.env } := by
  unfold nextWork
  split
  · exact ⟨fun _ h => (nomatch h), fun _ _ h => (nomatch h)⟩
  · refine ⟨fun u h => ?_, fun _ _ h => (nomatch h)⟩
    obtain rfl := Work.hardReset.inj h
    rfl
  · split
    · exact ⟨fun _ h => (nomatch h), fun _ _ h => (nomatch h)⟩
    · refine ⟨fun _ h => (nomatch h), fun op u h => ?_⟩
      obtain ⟨-, rfl⟩ := Work.operation.inj h
      rfl

/-- What a step can do: it takes an offer, and then one operation or a reset may write the ring (R95,
R260). -/
theorem step_ringEffect {s t : State} (h : step s = .next t) :
    ∃ i env, RingEffect i { s with env := env } t ∧ (carried i = .ringRecdone →
      ∃ op u, nextWork s = .operation op u ∧ op.instr = .ringRecdone) := by
  obtain ⟨hpin, hoffer⟩ := nextWork_env s
  cases hwork : nextWork s with
  | idle =>
    simp only [step, hwork] at h
    obtain rfl := Host.Outcome.next.inj h
    exact ⟨.nop, s.env, .kept (.refl s), nofun⟩
  | hardReset u =>
    simp only [step, hwork] at h
    obtain rfl := Host.Outcome.next.inj h
    exact ⟨.nop, u.env, hpin u hwork ▸ .reset, nofun⟩
  | operation op u =>
    simp only [step, hwork] at h
    refine ⟨op.instr, u.env, hoffer op u hwork ▸ ?_,
      fun hi => ⟨op, u, rfl, carried_instr op ▸ hi⟩⟩
    by_cases hreset : op.instr = .sysReset
    · rw [hreset] at h
      obtain rfl := Host.Outcome.next.inj h
      exact .reset
    · obtain ⟨v, hexec, heffect⟩ := exec_effect (i := op.instr) (s := u)
        ((carried_instr op).trans_ne hreset)
      obtain rfl := Host.Outcome.next.inj (hexec.symm.trans h)
      exact heffect.ringEffect

/-! ## A gated batch fits in the FIFO (R263, R267, R276, R281) -/

theorem RingKept.batch {s t : State} (hk : RingKept s t) (h : s.Batch) : t.Batch := by
  unfold State.Batch
  rw [hk.build, hk.ring]
  exact h

/-- `RING.RESET` in full (R266). -/
theorem ringResetRule_state {s : State} (hb : s.build.wf = true) (hrun : s.halted = false)
    (mode : Mode) : ∃ fifo, (mode ≠ .gated → fifo = s.mem.fifo) ∧
      (mode = .gated → fifo.read32 0 = some startToken) ∧
      ringResetRule mode s = { s with
        mem := { s.mem with fifo := fifo }
        trigFlag := false
        ring := { (s.cleared mode).ring with
          tail := if mode = .gated then 1 else 0, count := if mode = .gated then 1 else 0 }
        resp := 0 } := by
  obtain ⟨-, hall⟩ := ringResetStartsSession
  obtain ⟨fifo, hnone, hone, hexec⟩ := hall s mode hb hrun
  rw [exec_command (.ringReset mode) hrun nofun nofun] at hexec
  exact ⟨fifo, hnone, fun h => (hone h).1, Host.Outcome.next.inj hexec⟩

/-- A batch of gated mode that has just been started holds `START` alone (R266). -/
theorem ringResetRule_batch {s : State} (hb : s.build.wf = true) (hrun : s.halted = false)
    (mode : Mode) : (ringResetRule mode s).Batch := by
  obtain ⟨-, -, -, ⟨hn, -⟩, -⟩ := Build.bounds hb
  obtain ⟨fifo, -, -, hstate⟩ := ringResetRule_state hb hrun mode
  rw [hstate]
  intro hgated
  obtain rfl : mode = .gated := hgated
  exact ⟨show 1 ≤ s.build.n by omega, fun _ => le_rfl⟩

/-- The bounds of a batch with the gate open. -/
theorem State.Batch.of_open {s : State} (hopen : s.ring.gatedReading = false)
    (hcount : s.ring.count.toNat ≤ s.build.n)
    (hidle : s.ring.isTriggered = false → s.ring.count.toNat ≤ 1) : s.Batch := by
  intro _
  rw [hopen]
  exact ⟨hcount, hidle⟩

/-- The bounds of a batch with the gate closed. -/
theorem State.Batch.of_closed {s : State} (hclosed : s.ring.gatedReading = true)
    (hcount : s.ring.count.toNat ≤ s.build.n + 2)
    (hrec : s.ring.recDone = true → s.ring.count = 0) : s.Batch := by
  intro _
  rw [hclosed]
  exact ⟨hcount, hrec⟩

/-- The ring in gated mode, its batch within the FIFO (R263, R286). -/
structure State.GatedBatch (s : State) : Prop where
  inv : s.RingInv False
  mode : s.ring.mode = .gated
  batch : s.Batch

section
variable {s : State}

/-- The ring's part of the invariant of a legal build, the memories apart. -/
theorem RingUnit.inv.ringInv (h : s.ring.inv s.build) (hb : s.build.wf = true) :
    s.RingInv False := by
  obtain ⟨hwpos, hfifo, hflags⟩ := h
  exact ⟨⟨hb, False.elim, hfifo, hflags⟩, hwpos⟩

/-- With the gate open at most `N` tokens are in the FIFO (R276). -/
theorem State.GatedBatch.count_of_open (h : s.GatedBatch) (hopen : gateClosed s = false) :
    s.ring.gatedReading = false ∧ s.ring.recDone = false ∧
      s.ring.count.toNat ≤ s.build.n ∧ (s.ring.isTriggered = false → s.ring.count.toNat ≤ 1) := by
  obtain ⟨⟨⟨-, -, -, hflags⟩, -⟩, hmode, hbatch⟩ := h
  have hreading := hflags.reading_of_open hopen
  obtain ⟨-, hrec, -⟩ := hflags
  have hcount := hbatch hmode
  rw [hreading] at hcount hrec
  exact ⟨hreading, by simpa using hrec, hcount⟩

/-- The backfill of a first trigger leaves the batch at most `N` tokens (R273). -/
theorem onTrigger_gatedBatch (h : s.GatedBatch) (hopen : gateClosed s = false) :
    (onTrigger s).GatedBatch ∧ (onTrigger s).fault.fifoOvf = s.fault.fifoOvf := by
  obtain ⟨hreading, hrec, hcount, hidle⟩ := h.count_of_open hopen
  obtain ⟨hinv, hmode, hbatch⟩ := h
  have hkept := onTrigger_ringInv hinv (by rw [hmode]; decide) hopen
  unfold onTrigger at hkept ⊢
  split
  next htrig =>
    rw [if_pos htrig] at hkept
    exact ⟨⟨hkept, hmode, .of_open hreading hcount hidle⟩, rfl⟩
  next htrig =>
    rw [if_neg htrig] at hkept
    have hidle := hidle (by simpa using htrig)
    obtain ⟨⟨hb, hmem, hfifo, hflags⟩, hwpos⟩ := hinv
    obtain ⟨-, -, -, ⟨hn, -⟩, -, ⟨hfc, hfc'⟩, -⟩ := Build.bounds hb
    have hlen : (triggerTokens s).length ≤ s.build.n - 1 := by
      have hfirst : (s.ring.fill.toNat : Int) - s.build.n + s.ring.bufferDelta.toNat + 1 ≤
          backfillFirst s := by
        simp only [backfillFirst]
        omega
      rw [triggerTokens, if_neg (by rw [hmode]; decide), List.nil_append, slotsFrom_length]
      omega
    obtain ⟨-, -, hstate⟩ := pushed_pushAll hb hfifo (triggerTokens s) (by omega)
    rw [firstTrigger_eq, hstate] at hkept ⊢
    refine ⟨⟨hkept, hmode, .of_open hreading ?_ nofun⟩, rfl⟩
    show (BitVec.ofNat 32 (s.ring.count.toNat + (triggerTokens s).length)).toNat ≤ s.build.n
    rw [toNat_ofNat32 (by omega)]
    omega

/-- The slot completed and the `END` of a full batch are at most two tokens more (R274, R276). -/
theorem onSlotFull_gatedBatch (hcursor : s.CursorInv False) (hmode : s.ring.mode = .gated)
    (hreading : s.ring.gatedReading = false) (hrec : s.ring.recDone = false)
    (hcount : s.ring.count.toNat ≤ s.build.n)
    (hidle : s.ring.isTriggered = false → s.ring.count.toNat ≤ 1) :
    (onSlotFull s).GatedBatch ∧ (onSlotFull s).fault.fifoOvf = s.fault.fifoOvf := by
  have hkept := onSlotFull_ringInv hcursor
  obtain ⟨hb, -, hfifo, -⟩ := hcursor
  obtain ⟨-, -, -, ⟨hn, -⟩, -, ⟨hfc, hfc'⟩, -⟩ := Build.bounds hb
  have henq : enqueues s = s.ring.isTriggered := by simp [enqueues, hmode]
  obtain ⟨ended, hended⟩ : ∃ e, endsAt s (s.ring.count.toNat + (enqueues s).toNat) = e := ⟨_, rfl⟩
  obtain ⟨-, fifo, -, hstate⟩ := onSlotFull_room hb hfifo (by omega) hended
  have hlen := slotTokens_length_le s.ring.fill.toNat (enqueues s) ended
  have hafter : (onSlotFull s).ring.count.toNat =
      s.ring.count.toNat + (slotTokens s.ring.fill.toNat (enqueues s) ended).length := by
    rw [hstate]
    exact toNat_ofNat32 (by omega)
  have hbuild : (onSlotFull s).build = s.build := by rw [hstate]
  refine ⟨⟨hkept, by rw [hstate]; exact hmode, ?_⟩, by rw [hstate]⟩
  cases hcase : ended with
  | true =>
    refine .of_closed (by rw [hstate]; simp [hmode, hcase]) (by rw [hafter, hbuild]; omega) ?_
    rw [hstate]
    exact fun h => nomatch hrec.symm.trans h
  | false =>
    have hroom : ¬ s.build.n + 1 ≤ s.ring.count.toNat + (enqueues s).toNat := by
      rw [hcase, endsAt, Bool.or_eq_false_iff] at hended
      simpa [hmode, hreading] using hended.2
    have hone : (slotTokens s.ring.fill.toNat (enqueues s) ended).length = (enqueues s).toNat := by
      rw [hcase]
      cases enqueues s <;> rfl
    have htrig : (onSlotFull s).ring.isTriggered = s.ring.isTriggered := by
      rw [hstate]
      simp [hcase]
    refine .of_open (by rw [hstate]; simp [hreading, hcase]) (by rw [hafter, hbuild]; omega) ?_
    rw [htrig, hafter, hone, henq]
    intro hno
    rw [hno]
    exact hidle hno

/-- A Sample in the open slot, and `OnSlotFull` when it is full (R270). -/
theorem appendSample_gatedBatch (h : s.GatedBatch) (hopen : gateClosed s = false) (x : Half) :
    (appendSample x s).GatedBatch ∧ (appendSample x s).fault.fifoOvf = s.fault.fifoOvf := by
  obtain ⟨hreading, hrec, hcount, hidle⟩ := h.count_of_open hopen
  obtain ⟨hinv, hmode, hbatch⟩ := h
  have hkept := appendSample_ringInv hinv x
  obtain ⟨hstored, -⟩ := storeSample_cursorInv hinv x
  unfold appendSample at hkept ⊢
  simp only at hkept ⊢
  split
  · exact onSlotFull_gatedBatch hstored hmode hreading hrec hcount hidle
  · rw [if_neg ‹_›] at hkept
    exact ⟨⟨hkept, hmode, hbatch⟩, rfl⟩

theorem appendSamples_gatedBatch (h : s.GatedBatch) (xs : List Half) :
    (appendSamples xs s).GatedBatch ∧ (appendSamples xs s).fault.fifoOvf = s.fault.fifoOvf := by
  induction xs generalizing s with
  | nil => exact ⟨h, rfl⟩
  | cons x xs ih =>
    cases hgate : gateClosed s with
    | true =>
      rw [appendSamples_closed _ hgate]
      exact ⟨h, rfl⟩
    | false =>
      rw [appendSamples_cons_open _ _ hgate]
      obtain ⟨hone, hovf⟩ := appendSample_gatedBatch h hgate x
      obtain ⟨hrest, hovfs⟩ := ih hone
      exact ⟨hrest, hovfs.trans hovf⟩

end

/-- A gate reopened starts a batch with `START` alone, the last one drained (R276, R281). -/
theorem reopenGate_gatedBatch {s : State} (h : s.GatedBatch) (hclosed : gateClosed s = true)
    (hrec : s.ring.recDone = true) :
    (reopenGate s).GatedBatch ∧ (reopenGate s).fault.fifoOvf = s.fault.fifoOvf := by
  obtain ⟨hinv, hmode, hbatch⟩ := h
  have hkept := reopenGate_ringInv hinv
  obtain ⟨-, hreading⟩ := gateClosed_iff.1 hclosed
  obtain ⟨⟨hb, -⟩, -⟩ := hinv
  obtain ⟨-, -, -, ⟨hn, -⟩, -, ⟨hfc, -⟩, -⟩ := Build.bounds hb
  have hdrained : s.ring.count = 0 := by
    have hbounds := hbatch hmode
    rw [hreading] at hbounds
    exact hbounds.2 hrec
  have hone : (BitVec.ofNat 32 (s.ring.count.toNat + 1)).toNat = 1 := by
    rw [hdrained]
    rfl
  have hroom : s.opened.ring.count.toNat ≠ s.opened.build.fc := by
    show s.ring.count.toNat ≠ s.build.fc
    rw [hdrained]
    exact (show 0 ≠ s.build.fc by omega)
  rw [reopenGate_eq, push_room startToken hroom] at hkept ⊢
  exact ⟨⟨hkept, hmode,
    .of_open rfl (hone.trans_le (show 1 ≤ s.build.n by omega)) fun _ => hone.le⟩, rfl⟩

/-- `RingAppend` of any samples keeps the batch and raises no `FIFO_OVF` (R276, R281). -/
theorem ringAppend_gatedBatch {s : State} (h : s.GatedBatch) (xs : List Half) :
    (ringAppend xs s).GatedBatch ∧ (ringAppend xs s).fault.fifoOvf = s.fault.fifoOvf := by
  have htaken : State.GatedBatch { s with trigFlag := false } := by
    obtain ⟨hinv, hmode, hbatch⟩ := h
    exact ⟨hinv, hmode, hbatch⟩
  unfold ringAppend
  simp only
  by_cases hgate : gateClosed s = true
  · rw [if_pos hgate]
    split
    next hrec =>
      obtain ⟨hopened, hovf⟩ := reopenGate_gatedBatch htaken hgate hrec
      obtain ⟨hfilled, hovfs⟩ := appendSamples_gatedBatch hopened xs
      exact ⟨hfilled, hovfs.trans hovf⟩
    next => exact ⟨htaken, rfl⟩
  · rw [if_neg hgate]
    split
    · obtain ⟨htrig, hovf⟩ := onTrigger_gatedBatch htaken (Bool.eq_false_iff.2 hgate)
      obtain ⟨hfilled, hovfs⟩ := appendSamples_gatedBatch htrig xs
      exact ⟨hfilled, hovfs.trans hovf⟩
    · exact appendSamples_gatedBatch htaken xs

/-- The consumer's pops only shrink a batch (R280). -/
theorem ringGetnextRule_batch {s : State} (h : s.Batch) : (ringGetnextRule s).Batch := by
  refine ringGetnextRule_induct (P := State.Batch) (fun u v huv hu => ?_) (fun u hpos hu => ?_) h
  · rw [huv]
    exact hu
  · intro hmode
    have hbounds := hu hmode
    have hcount := toNat_pop_count u
    show if u.ring.gatedReading then _ else _
    split
    next hreading =>
      rw [hreading] at hbounds
      obtain ⟨hle, hrec⟩ := hbounds
      exact ⟨by rw [hcount]; exact (Nat.sub_le _ _).trans hle,
        fun hdone => absurd hpos (by rw [hrec hdone]; decide)⟩
    next hreading =>
      rw [if_neg hreading] at hbounds
      obtain ⟨hle, hidle⟩ := hbounds
      exact ⟨by rw [hcount]; exact (Nat.sub_le _ _).trans hle,
        fun hno => by rw [hcount]; exact (Nat.sub_le _ _).trans (hidle hno)⟩

/-- What an operation makes of a batch, `RING.RECDONE` signalling only a drained one (R281). -/
theorem RingEffect.batch {i : Instr} {s t : State} (hinv : s.Inv) (h : s.Batch)
    (hdrained : carried i = .ringRecdone → gateClosed s = true → s.ring.count = 0)
    (he : RingEffect i s t) :
    t.Batch ∧ (s.ring.mode = .gated → t.fault.fifoOvf = true → s.fault.fifoOvf = true) := by
  obtain ⟨hb, -⟩ := id hinv
  cases he with
  | kept hk => exact ⟨hk.batch h, fun _ => by rw [hk.fault]; exact id⟩
  | @append xs u hrun hk =>
    obtain ⟨-, -, -, -, hring⟩ := hinv
    have hmode : u.ring.mode = s.ring.mode := by rw [hk.ring]
    obtain ⟨hkeeps, -⟩ := (ringAppend_producerOnly xs u).fields
    by_cases hgated : s.ring.mode = .gated
    · have hbatch : u.GatedBatch :=
        ⟨RingUnit.inv.ringInv (hk.inv hring) (hk.build ▸ hb), hmode.trans hgated, hk.batch h⟩
      obtain ⟨⟨-, -, hafter⟩, hovf⟩ := ringAppend_gatedBatch hbatch xs
      exact ⟨hafter, fun _ hset => hk.fault ▸ hovf ▸ hset⟩
    · exact ⟨fun hafter => absurd (hmode.symm.trans (hkeeps.symm.trans hafter)) hgated,
        fun hmode => absurd hmode hgated⟩
  | session mode hrun =>
    refine ⟨ringResetRule_batch hb hrun mode, fun _ => ?_⟩
    obtain ⟨fifo, -, -, hstate⟩ := ringResetRule_state hb hrun mode
    rw [hstate]
    exact id
  | getnext hrun =>
    refine ⟨ringGetnextRule_batch h, fun _ => ?_⟩
    obtain ⟨resp, draws, head, count, rdActive, gnToken, hstate⟩ := ringGetnextRule_eq s
    rw [hstate]
    exact id
  | recdone hrun hi =>
    unfold ringRecdoneRule
    split
    next hclosed =>
      obtain ⟨-, hreading⟩ := gateClosed_iff.1 hclosed
      have hzero := hdrained hi hclosed
      refine ⟨.of_closed hreading ?_ fun _ => hzero, fun _ => id⟩
      show s.ring.count.toNat ≤ _
      rw [hzero]
      exact Nat.zero_le _
    next => exact ⟨h, fun _ => id⟩
  | reset => exact ⟨nofun, nofun⟩

/-- Settles O35: a batch starts with `START` alone, every producer's procedure keeps it, and a step
performs one operation. -/
theorem gatedBatchFits : Obligations.GatedBatchFits := by
  refine ⟨fun s t hb hrun hexec => ?_, fun s xs hb hinv hmode hbatch => ?_,
    fun s t hinv hbatch hdrains hstep => ?_⟩
  · rw [exec_command (.ringReset .gated) hrun nofun nofun] at hexec
    obtain rfl := Host.Outcome.next.inj hexec
    refine ⟨?_, ringResetRule_batch hb hrun .gated⟩
    obtain ⟨fifo, -, -, hstate⟩ := ringResetRule_state hb hrun .gated
    rw [perform, hstate]
    rfl
  · obtain ⟨⟨-, hmode', hbatch'⟩, hovf⟩ :=
      ringAppend_gatedBatch ⟨RingUnit.inv.ringInv hinv hb, hmode, hbatch⟩ xs
    exact ⟨hovf, hmode', hbatch'⟩
  · obtain ⟨i, env, he, hrec⟩ := step_ringEffect hstep
    refine he.batch (s := { s with env := env }) hinv hbatch fun hi hclosed => ?_
    obtain ⟨op, u, hwork, hop⟩ := hrec hi
    exact hdrains op u hwork hop hclosed

end Sys2Proof.Machine

/-!
PROOFS. The invariants of the pushed tokens along every step: an open sequence has its last completed slot
enqueued (O40), and the stream of tokens pushed since `RING.RESET` (O39).
-/

namespace Sys2Proof.Machine

/-! ## Halting is for good within an operation (R322) -/

/-- Where the producer leaves no fault there was none before (R27, R321). -/
theorem ProducerOnly.running {s t : State} (h : ProducerOnly s t) (hrun : t.halted = false) :
    s.halted = false := by
  simp only [State.halted, Bool.or_eq_false_iff] at hrun ⊢
  obtain ⟨hovf, hlife⟩ := hrun
  refine ⟨Bool.eq_false_iff.2 fun hset => ?_, Bool.eq_false_iff.2 fun hset => ?_⟩
  · exact nomatch hovf.symm.trans (h.fifoOvf hset)
  · exact nomatch hlife.symm.trans (h.lifetime hset)

/-- A push that raises no fault had room (R268). -/
theorem room_of_running {t : Word} {s : State} (hrun : (push t s).halted = false) :
    s.ring.count.toNat ≠ s.build.fc := by
  intro hfull
  rw [push_full t hfull] at hrun
  exact nomatch hrun

/-- A slot completed without a fault was not the last the fill counter can name (R277). -/
theorem fill_lt_of_running {s : State} (hrun : (onSlotFull s).halted = false) :
    s.ring.fill.toNat < 2 ^ 31 - 1 := by
  by_contra hlast
  obtain ⟨hlife, -⟩ := onSlotFull_last hlast
  rw [State.halted, hlife, Bool.or_true] at hrun
  exact nomatch hrun

/-- A slot's token is read as the slot's index (R265). -/
theorem toInt_slotToken {j : Nat} (h : j < 2 ^ 31) : (slotToken j).toInt = j := by
  have hnat : (slotToken j).toNat = j := toNat_ofNat32 (by omega)
  rw [BitVec.toInt_eq_toNat_of_lt (by omega), hnat]

/-- Before the last slot the fill counter counts up by one (R274, R277). -/
theorem toNat_advanceFill {s : State} (h : s.ring.fill.toNat < 2 ^ 31 - 1) :
    (advanceFill s).ring.fill.toNat = s.ring.fill.toNat + 1 := by
  rw [advanceFill_next h]
  show (BitVec.ofNat 31 _).toNat = _
  rw [BitVec.toNat_ofNat, Nat.mod_eq_of_lt (by omega)]

/-! ## The last completed slot of an open sequence (R286 (7)) -/

theorem RingKept.openSequence {s t : State} (hk : RingKept s t) (h : s.Open) : t.Open := by
  unfold State.Open State.halted
  rw [hk.fault, hk.ring]
  exact h

/-- A trigger marks the slot being filled (R272). -/
theorem onTrigger_open (s : State) : (onTrigger s).Open := by
  intro _ _
  right
  have htrig : (s.ring.fill.setWidth 32).toNat = s.ring.fill.toNat := by
    have := s.ring.fill.isLt
    rw [BitVec.toNat_setWidth, Nat.mod_eq_of_lt (by omega)]
  unfold onTrigger
  split
  · exact htrig
  · rw [firstTrigger_eq, pushAll_frame]
    exact htrig

/-- A slot completed while triggered is enqueued (R274). -/
theorem onSlotFull_open (s : State) : (onSlotFull s).Open := by
  intro hrun htrig
  left
  have hfill := fill_lt_of_running hrun
  obtain ⟨-, hnext⟩ := onSlotFull_wpos_fill s
  obtain ⟨ended, hended⟩ : ∃ ended, endsAt s (slotCounted s).ring.count.toNat = ended := ⟨_, rfl⟩
  rw [hnext, toNat_advanceFill hfill]
  rw [onSlotFull_pushAll s hended] at htrig ⊢
  have hopen : s.ring.isTriggered = true := (Bool.and_eq_true_iff.1 htrig).1
  have henq : enqueues s = true := by simp [enqueues, hopen]
  show (if enqueues s then slotToken s.ring.fill.toNat else s.ring.lastEnq).toInt = _
  rw [if_pos henq, toInt_slotToken (by omega)]
  omega

theorem appendSamples_open {s : State} (h : s.Open) (xs : List Half) : (appendSamples xs s).Open := by
  induction xs generalizing s with
  | nil => exact h
  | cons x xs ih =>
    unfold appendSamples appendSample
    simp only
    split
    · exact h
    · split
      · exact ih (onSlotFull_open _)
      · exact ih h

theorem reopenGate_open {s : State} (h : s.Open) : (reopenGate s).Open := by
  intro hrun htrig
  rw [reopenGate_eq] at hrun htrig ⊢
  rw [push_isTriggered] at htrig
  rw [push_lastEnq, push_fill, push_trigIndex]
  exact h ((push_producerOnly startToken s.opened).running hrun) htrig

theorem ringAppend_open {s : State} (h : s.Open) (xs : List Half) : (ringAppend xs s).Open := by
  have htaken : State.Open { s with trigFlag := false } := h
  unfold ringAppend
  simp only
  split
  · split
    · exact appendSamples_open (reopenGate_open htaken) xs
    · exact htaken
  · split
    · exact appendSamples_open (onTrigger_open _) xs
    · exact appendSamples_open htaken xs

/-- The consumer writes nothing of an open sequence (R260). -/
theorem ringGetnextRule_open {s : State} (h : s.Open) : (ringGetnextRule s).Open := by
  obtain ⟨resp, draws, head, count, rdActive, gnToken, hstate⟩ := ringGetnextRule_eq s
  rw [hstate]
  exact h

theorem RingEffect.openSequence {i : Instr} {s t : State} (hb : s.build.wf = true) (h : s.Open)
    (he : RingEffect i s t) : t.Open := by
  cases he with
  | kept hk => exact hk.openSequence h
  | append xs hrun hk => exact ringAppend_open (hk.openSequence h) xs
  | session mode hrun =>
    obtain ⟨fifo, -, -, hstate⟩ := ringResetRule_state hb hrun mode
    rw [hstate]
    exact fun _ htrig => nomatch htrig
  | getnext hrun => exact ringGetnextRule_open h
  | recdone hrun hi =>
    unfold ringRecdoneRule
    split <;> exact h
  | reset => exact fun _ htrig => nomatch htrig

/-- Settles O40: a trigger marks the slot being filled, and a slot completed while triggered is
enqueued. -/
theorem stepKeepsOpenSequence : Obligations.StepKeepsOpenSequence := by
  intro s t hinv h hstep
  obtain ⟨hb, -⟩ := hinv
  obtain ⟨i, env, he, -⟩ := step_ringEffect hstep
  exact he.openSequence (s := { s with env := env }) hb h

end Sys2Proof.Machine

/-!
PROOFS. What the producer pushes, move by move (O39): while no fault is raised a call of `RingAppend` is a
chain of moves, each of which pushes at most one token; the stream of the tokens pushed and what is said
of those in the FIFO are kept by every move.
-/

namespace Sys2Proof.Machine

/-! ## The moves of the producer (R268 to R276) -/

/-- The trigger state is entered (R272). -/
def State.triggered (s : State) : State := { s with ring := { s.ring with isTriggered := true } }

/-- A sequence is opened: in triggered mode `START` is pushed (R272). -/
def openSequence (s : State) : State :=
  if s.ring.mode = .triggered then push startToken s.triggered else s.triggered

/-- One move of the producer that raises no fault. -/
inductive ProducerMove : State → State → Prop
  | store (x : Half) (s : State) : ProducerMove s (storeSample x s)
  | fill {s : State} (hfill : s.ring.fill.toNat < 2 ^ 31 - 1) : ProducerMove s (advanceFill s)
  /-- A completed slot, later than all enqueued before, in a sequence (R272, R274). -/
  | enqueue {s : State} (j : Nat) (hroom : s.ring.count.toNat ≠ s.build.fc)
      (hin : s.ring.inSequence = true) (hlast : s.ring.lastEnq.toInt < j)
      (hj : j < s.ring.fill.toNat) : ProducerMove s (enqueueSlot j s)
  /-- `END` of the sequence (R274). -/
  | finish {s : State} (hroom : s.ring.count.toNat ≠ s.build.fc) (hin : s.ring.inSequence = true)
      (hmode : s.ring.mode ≠ .continuous) : ProducerMove s (finishSequence s)
  /-- A first trigger (R272). -/
  | trigger {s : State} (hroom : s.ring.mode = .triggered → s.ring.count.toNat ≠ s.build.fc)
      (hmode : s.ring.mode ≠ .continuous) (hidle : s.ring.isTriggered = false) :
      ProducerMove s (openSequence s)
  /-- The gate reopens (R276). -/
  | reopen {s : State} (hroom : s.ring.count.toNat ≠ s.build.fc) (hclosed : gateClosed s = true) :
      ProducerMove s (reopenGate s)
  /-- The flag is taken, or the trigger's indexes are set (R270, R272). -/
  | mark (s : State) (flag : Bool) (trig final : Word) : ProducerMove s { s with
      trigFlag := flag, ring := { s.ring with trigIndex := trig, finalIndex := final } }

/-- A chain of moves. -/
abbrev ProducerMoves : State → State → Prop := Relation.ReflTransGen ProducerMove

/-- `LAST_ENQ` is -1 or a completed slot (R39). -/
def State.Behind (s : State) : Prop :=
  -1 ≤ s.ring.lastEnq.toInt ∧ s.ring.lastEnq.toInt < s.ring.fill.toNat

/-- In a sequence: continuous mode, the trigger state, or gated mode with the gate open (R286 (5)). -/
theorem RingUnit.inSequence_iff {r : RingUnit} : r.inSequence = true ↔ r.mode = .continuous ∨
    (r.mode = .triggered ∧ r.isTriggered = true) ∨ (r.mode = .gated ∧ r.gatedReading = false) := by
  cases hmode : r.mode <;> simp [RingUnit.inSequence, hmode]

/-- A slot is enqueued in a sequence only (R274). -/
theorem inSequence_of_enqueues {s : State} (h : s.ring.flagsInv) (henq : enqueues s = true) :
    s.ring.inSequence = true := by
  obtain ⟨-, -, htrig⟩ := h
  rw [RingUnit.inSequence_iff]
  rcases Bool.or_eq_true_iff.1 henq with hcont | hopen
  · exact .inl (of_decide_eq_true hcont)
  · obtain ⟨hmode, hreading⟩ := htrig hopen
    cases hm : s.ring.mode with
    | continuous => exact .inl rfl
    | triggered => exact .inr (.inl ⟨rfl, hopen⟩)
    | gated => exact .inr (.inr ⟨rfl, hreading⟩)

/-- A slot ends a sequence only (R274, R276). -/
theorem inSequence_of_endsAt {s : State} (h : s.ring.flagsInv) {count : Nat}
    (hend : endsAt s count = true) : s.ring.mode ≠ .continuous ∧ s.ring.inSequence = true := by
  rcases Bool.or_eq_true_iff.1 hend with hfinal | hfull
  · simp only [Bool.and_eq_true, decide_eq_true_eq] at hfinal
    obtain ⟨⟨hmode, hopen⟩, -⟩ := hfinal
    exact ⟨hmode, inSequence_of_enqueues h (by simp [enqueues, hopen])⟩
  · simp only [Bool.and_eq_true, decide_eq_true_eq, Bool.not_eq_true'] at hfull
    obtain ⟨⟨hgated, hreading⟩, -⟩ := hfull
    exact ⟨by rw [hgated]; decide, RingUnit.inSequence_iff.2 (.inr (.inr ⟨hgated, hreading⟩))⟩

/-- A slot enqueued moves `LAST_ENQ` and leaves its sequence open (R272, R274). -/
theorem enqueueSlot_fields (j : Nat) (s : State) :
    (enqueueSlot j s).ring.lastEnq = slotToken j ∧ (enqueueSlot j s).ring.fill = s.ring.fill ∧
      (enqueueSlot j s).ring.mode = s.ring.mode ∧
      (enqueueSlot j s).ring.inSequence = s.ring.inSequence := by
  refine ⟨rfl, push_fill _ s, push_mode _ s, ?_⟩
  rw [enqueueSlot_eq_setLastEnq, push_frame]
  rfl

/-- A backfill is a chain of enqueued slots (R272). -/
theorem backfill_moves {n j : Nat} {s : State} (hrun : (backfill n j s).halted = false)
    (hin : s.ring.inSequence = true) (hlast : s.ring.lastEnq.toInt < j)
    (hfill : j + n ≤ s.ring.fill.toNat) : ProducerMoves s (backfill n j s) := by
  induction n generalizing j s with
  | zero => exact .refl
  | succ n ih =>
    have hroom := room_of_running (t := slotToken j)
      ((backfill_producerOnly n (j + 1) (enqueueSlot j s)).running hrun)
    have hlt := s.ring.fill.isLt
    obtain ⟨hlast', hfill', -, hin'⟩ := enqueueSlot_fields j s
    refine .head (.enqueue j hroom hin hlast (by omega)) (ih hrun (hin'.trans hin) ?_ ?_)
    · rw [hlast', toInt_slotToken (by omega)]
      omega
    · rw [hfill']
      omega

/-- `Push` does not look at the trigger state (R268). -/
theorem push_triggered (t : Word) (s : State) : push t s.triggered = (push t s).triggered := by
  by_cases hfull : s.ring.count.toNat = s.build.fc
  · rw [push_full t hfull, push_full t (s := s.triggered) hfull]
    rfl
  · rw [push_room t hfull, push_room t (s := s.triggered) hfull]
    rfl

theorem backfill_triggered (n j : Nat) (s : State) :
    backfill n j s.triggered = (backfill n j s).triggered := by
  induction n generalizing j s with
  | zero => rfl
  | succ n ih =>
    have hone : enqueueSlot j s.triggered = (enqueueSlot j s).triggered := by
      rw [enqueueSlot_eq_setLastEnq, push_triggered]
      rfl
    rw [backfill, hone, ih]
    rfl

/-- A first trigger opens a sequence, backfills it and sets the trigger's indexes (R272). -/
theorem firstTrigger_eq_backfill (s : State) :
    firstTrigger s =
      let t := backfill (s.ring.fill.toNat - backfillFirst s) (backfillFirst s) (openSequence s)
      { t with ring := { t.ring with
          trigIndex := s.ring.fill.setWidth 32, finalIndex := .ofNat 32 (newFinal s) } } := by
  have hopen : openSequence s =
      (if s.ring.mode = .triggered then push startToken s else s).triggered := by
    unfold openSequence
    split
    · exact push_triggered startToken s
    · rfl
  rw [hopen, backfill_triggered]
  rfl

/-- What opening a sequence leaves and sets (R272). -/
theorem openSequence_fields (s : State) :
    (openSequence s).ring.lastEnq = s.ring.lastEnq ∧ (openSequence s).ring.fill = s.ring.fill ∧
      (openSequence s).ring.mode = s.ring.mode ∧ (openSequence s).ring.isTriggered = true ∧
      (openSequence s).ring.gatedReading = s.ring.gatedReading := by
  unfold openSequence
  split
  · rw [push_lastEnq, push_fill, push_mode, push_isTriggered, push_gatedReading]
    exact ⟨rfl, rfl, rfl, rfl, rfl⟩
  · exact ⟨rfl, rfl, rfl, rfl, rfl⟩

/-- A trigger outside continuous mode is a chain of moves (R272). -/
theorem onTrigger_moves {s : State} (hflags : s.ring.flagsInv) (hbehind : s.Behind)
    (hmode : s.ring.mode ≠ .continuous) (hopen : gateClosed s = false)
    (hrun : (onTrigger s).halted = false) : ProducerMoves s (onTrigger s) := by
  unfold onTrigger at hrun ⊢
  split at hrun
  · rw [if_pos ‹_›]
    exact .single (.mark s s.trigFlag _ _)
  next hidle =>
    rw [if_neg hidle]
    rw [firstTrigger_eq_backfill] at hrun ⊢
    obtain ⟨hlast, hfill, hsame, htrig, hreading⟩ := openSequence_fields s
    obtain ⟨-, hlt⟩ := hbehind
    have hin : (openSequence s).ring.inSequence = true := by
      rw [RingUnit.inSequence_iff, hsame, htrig, hreading, hflags.reading_of_open hopen]
      cases hm : s.ring.mode with
      | continuous => exact absurd hm hmode
      | triggered => exact .inr (.inl ⟨rfl, rfl⟩)
      | gated => exact .inr (.inr ⟨rfl, rfl⟩)
    have hfirst : s.ring.lastEnq.toInt < backfillFirst s := by
      simp only [backfillFirst]
      omega
    have hrun' : (backfill (s.ring.fill.toNat - backfillFirst s) (backfillFirst s)
      (openSequence s)).halted = false := hrun
    refine .head (.trigger (fun hm => ?_) hmode (by simpa using hidle)) (.tail ?_ (.mark _ _ _ _))
    · have hstarted := (backfill_producerOnly _ _ (openSequence s)).running hrun'
      unfold openSequence at hstarted
      rw [if_pos hm] at hstarted
      exact room_of_running (s := s.triggered) hstarted
    · by_cases hsome : backfillFirst s ≤ s.ring.fill.toNat
      · exact backfill_moves hrun' hin (hlast ▸ hfirst) (by rw [hfill]; omega)
      · rw [show s.ring.fill.toNat - backfillFirst s = 0 by omega]
        exact .refl

/-- A slot counted leaves its sequence as it is (R274). -/
theorem slotCounted_fields (s : State) : (slotCounted s).ring.mode = s.ring.mode ∧
    (slotCounted s).ring.inSequence = s.ring.inSequence := by
  have hin : (advanceFill s).ring.inSequence = s.ring.inSequence := by
    rw [advanceFill_frame]
    rfl
  obtain ⟨-, -, hmode', hin'⟩ := enqueueSlot_fields s.ring.fill.toNat (advanceFill s)
  unfold slotCounted
  split
  · exact ⟨hmode'.trans (advanceFill_mode s), hin'.trans hin⟩
  · exact ⟨advanceFill_mode s, hin⟩

/-- A completed slot is a chain of moves (R274, R276). -/
theorem onSlotFull_moves {s : State} (hflags : s.ring.flagsInv) (hbehind : s.Behind)
    (hrun : (onSlotFull s).halted = false) : ProducerMoves s (onSlotFull s) := by
  have hfill := fill_lt_of_running hrun
  obtain ⟨-, hlt⟩ := hbehind
  have hnext := toNat_advanceFill hfill
  have hin : (advanceFill s).ring.inSequence = s.ring.inSequence := by
    rw [advanceFill_frame]
    rfl
  obtain ⟨hsameMode, hsame⟩ := slotCounted_fields s
  have hcounted (hrun : (slotCounted s).halted = false) : ProducerMoves s (slotCounted s) := by
    unfold slotCounted at hrun ⊢
    split at hrun
    next henq =>
      rw [if_pos henq]
      refine .tail (.single (.fill hfill)) (.enqueue _ (room_of_running hrun) ?_ ?_ ?_)
      · rw [hin]
        exact inSequence_of_enqueues hflags henq
      · rw [advanceFill_frame]
        exact hlt
      · omega
    next henq =>
      rw [if_neg henq]
      exact .single (.fill hfill)
  rw [onSlotFull_eq] at hrun ⊢
  split at hrun
  next hend =>
    rw [if_pos hend]
    obtain ⟨hmode, hin'⟩ := inSequence_of_endsAt hflags hend
    have hpushed : (push endToken (slotCounted s)).halted = false := by
      rw [finishSequence_eq] at hrun
      exact hrun
    refine .tail (hcounted ((push_producerOnly endToken (slotCounted s)).running hpushed))
      (.finish (room_of_running hpushed) ?_ ?_)
    · rwa [hsame]
    · rwa [hsameMode]
  next hend =>
    rw [if_neg hend]
    exact hcounted hrun

/-- What the end of a sequence sets and leaves (R274). -/
theorem finishSequence_fields (s : State) :
    (finishSequence s).ring.lastEnq = s.ring.lastEnq ∧ (finishSequence s).ring.fill = s.ring.fill ∧
      (finishSequence s).ring.mode = s.ring.mode ∧
      (s.ring.mode ≠ .continuous → (finishSequence s).ring.inSequence = false) := by
  rw [finishSequence_eq]
  refine ⟨push_lastEnq _ s, push_fill _ s, push_mode _ s, fun hmode => ?_⟩
  rw [Bool.eq_false_iff, Ne, RingUnit.inSequence_iff]
  simp only [push_mode, hmode, Bool.or_eq_false_iff, decide_eq_false_iff_not, false_or]
  rintro (⟨-, htrig⟩ | ⟨hgated, -, hnot⟩)
  · exact nomatch htrig
  · exact hnot hgated

/-- Every move keeps `LAST_ENQ` behind the fill counter (R39). -/
theorem ProducerMove.behind {s t : State} (hm : ProducerMove s t) (h : s.Behind) : t.Behind := by
  obtain ⟨hneg, hlt⟩ := h
  cases hm with
  | store x => exact ⟨hneg, hlt⟩
  | fill hfill =>
    have hnext := toNat_advanceFill hfill
    refine ⟨?_, ?_⟩
    · rw [advanceFill_frame]
      exact hneg
    · rw [hnext, advanceFill_frame]
      show s.ring.lastEnq.toInt < _
      omega
  | enqueue j hroom hin hlast hj =>
    have hfill := s.ring.fill.isLt
    obtain ⟨hlast', hfill', -⟩ := enqueueSlot_fields j s
    unfold State.Behind
    rw [hlast', hfill', toInt_slotToken (by omega)]
    omega
  | finish hroom hin hmode =>
    obtain ⟨hlast', hfill', -⟩ := finishSequence_fields s
    rw [State.Behind, hlast', hfill']
    exact ⟨hneg, hlt⟩
  | trigger hroom hmode hidle =>
    obtain ⟨hlast', hfill', -⟩ := openSequence_fields s
    rw [State.Behind, hlast', hfill']
    exact ⟨hneg, hlt⟩
  | reopen hroom hclosed =>
    rw [State.Behind, reopenGate_eq, push_lastEnq, push_fill]
    exact ⟨hneg, hlt⟩
  | mark flag trig final => exact ⟨hneg, hlt⟩

theorem ProducerMoves.behind {s t : State} (hm : ProducerMoves s t) (h : s.Behind) : t.Behind := by
  induction hm with
  | refl => exact h
  | tail _ hlast ih => exact hlast.behind ih

/-- A Sample let in is a chain of moves (R270). -/
theorem appendSample_moves {s : State} (hflags : s.ring.flagsInv) (hbehind : s.Behind) (x : Half)
    (hrun : (appendSample x s).halted = false) : ProducerMoves s (appendSample x s) := by
  refine .head (.store x s) ?_
  unfold appendSample at hrun ⊢
  simp only at hrun ⊢
  split at hrun
  · rw [if_pos ‹_›]
    exact onSlotFull_moves hflags hbehind hrun
  · rw [if_neg ‹_›]

theorem appendSamples_moves {s : State} (h : s.RingInv False) (hbehind : s.Behind) {xs : List Half}
    (hrun : (appendSamples xs s).halted = false) : ProducerMoves s (appendSamples xs s) := by
  induction xs generalizing s with
  | nil => exact .refl
  | cons x xs ih =>
    cases hgate : gateClosed s with
    | true =>
      rw [appendSamples_closed _ hgate]
    | false =>
      rw [appendSamples_cons_open _ _ hgate] at hrun ⊢
      obtain ⟨⟨-, -, -, hflags⟩, -⟩ := id h
      have hone := appendSample_moves hflags hbehind x
        ((appendSamples_producerOnly xs (appendSample x s)).running hrun)
      exact hone.trans (ih (appendSample_ringInv h x) (hone.behind hbehind) hrun)

/-- A call of `RingAppend` that ends without a fault is a chain of moves (R270, R276). -/
theorem ringAppend_moves {s : State} (h : s.RingInv False) (hbehind : s.Behind) {xs : List Half}
    (hrun : (ringAppend xs s).halted = false) : ProducerMoves s (ringAppend xs s) := by
  have htake : ProducerMove s { s with trigFlag := false } :=
    .mark s false s.ring.trigIndex s.ring.finalIndex
  have htaken : State.RingInv { s with trigFlag := false } False := h
  have hbehind' := htake.behind hbehind
  obtain ⟨⟨-, -, -, hflags⟩, -⟩ := id h
  refine .head htake ?_
  unfold ringAppend at hrun ⊢
  simp only at hrun ⊢
  by_cases hgate : gateClosed s = true
  · rw [if_pos hgate] at hrun ⊢
    split at hrun
    next hrec =>
      rw [if_pos hrec]
      have hmove : ProducerMove { s with trigFlag := false } (reopenGate { s with trigFlag := false }) :=
        .reopen (room_of_running (s := State.opened { s with trigFlag := false })
          ((appendSamples_producerOnly xs _).running hrun)) hgate
      exact .head hmove
        (appendSamples_moves (reopenGate_ringInv htaken) (hmove.behind hbehind') hrun)
    next hrec =>
      rw [if_neg hrec]
  · rw [if_neg hgate] at hrun ⊢
    split at hrun
    next htrigger =>
      obtain ⟨hflag, hmode⟩ := htrigger
      rw [if_pos ⟨hflag, hmode⟩]
      have hopen := Bool.eq_false_iff.2 hgate
      have hmoves := onTrigger_moves (s := { s with trigFlag := false }) hflags hbehind' hmode hopen
        ((appendSamples_producerOnly xs _).running hrun)
      exact hmoves.trans (appendSamples_moves (onTrigger_ringInv htaken hmode hopen)
        (hmoves.behind hbehind') hrun)
    next htrigger =>
      rw [if_neg htrigger]
      exact appendSamples_moves htaken hbehind' hrun

end Sys2Proof.Machine

/-!
PROOFS. The stream of pushed tokens and the tokens in the FIFO along every step (O39).
-/

namespace Sys2Proof.Machine

/-! ## The stream of pushed tokens (R265, R286 (3) to (5)) -/

/-- Of rising slots each is at most the last (R286 (4)). -/
theorem le_last_of_rising {slots : List Nat} (hrise : slots.Pairwise (· < ·)) :
    ∀ k ∈ slots, (k : Int) ≤ (slots.getLast?.map Int.ofNat).getD (-1) := by
  intro k hk
  have hne : slots ≠ [] := List.ne_nil_of_mem hk
  have hle : k ≤ slots.getLast hne := (hrise.imp Nat.le_of_lt).rel_getLast hk
  rw [List.getLast?_eq_some_getLast hne]
  exact Int.ofNat_le.2 hle

/-- What is pushed of a sequence in progress depends on the mode and on its being in progress. -/
theorem RingUnit.unfinished_congr {r q : RingUnit} (hmode : q.mode = r.mode)
    (hin : q.inSequence = r.inSequence) (slots : List Nat) :
    q.unfinished slots = r.unfinished slots := by
  rw [RingUnit.unfinished, RingUnit.unfinished, hmode, hin]

/-- A sequence in progress outside continuous mode (R286 (5)). -/
theorem RingUnit.unfinished_of_inSequence {r : RingUnit} (hin : r.inSequence = true)
    (hmode : r.mode ≠ .continuous) (slots : List Nat) :
    r.unfinished slots = startToken :: slots.map slotToken := by
  rw [RingUnit.unfinished, if_pos hin, if_neg hmode, List.singleton_append]

/-- A slot more of the sequence in progress (R286 (5)). -/
theorem RingUnit.unfinished_concat {r : RingUnit} (hin : r.inSequence = true) (slots : List Nat)
    (j : Nat) : r.unfinished (slots ++ [j]) = r.unfinished slots ++ [slotToken j] := by
  simp [RingUnit.unfinished, hin]

/-- The FIFO still holds the latest of the stream after one token more (R268). -/
theorem suffix_map_concat {l : List (Option Word)} {pushed : List Word} (t : Word)
    (h : l <:+ pushed.map some) : l ++ [some t] <:+ (pushed ++ [t]).map some := by
  obtain ⟨before, hbefore⟩ := h
  exact ⟨before, by rw [List.map_append, ← hbefore, List.append_assoc]; rfl⟩

section
variable {s t : State} {pushed : List Word} (h : s.Stream pushed)
include h

/-- Without a push: the counter may advance and tokens may be popped (R269, R274). -/
theorem State.Stream.kept (hrun : t.halted = false → s.halted = false)
    (hmode : t.ring.mode = s.ring.mode) (hin : t.ring.inSequence = s.ring.inSequence)
    (hlast : t.ring.lastEnq = s.ring.lastEnq) (hfill : s.ring.fill.toNat ≤ t.ring.fill.toNat)
    (hfifo : fifoTokens t <:+ fifoTokens s) : t.Stream pushed := by
  intro hr
  obtain ⟨ended, current, hpushed, hcont, hidle, hrise, hbelow, henq, hlatest⟩ := h (hrun hr)
  refine ⟨ended, current, ?_, ?_, ?_, hrise, fun j hj => (hbelow j hj).trans_le hfill, ?_,
    hfifo.trans hlatest⟩
  · rw [hpushed, RingUnit.unfinished_congr hmode hin]
  · rwa [hmode]
  · rwa [hin]
  · rwa [hlast]

/-- A slot later than those before is pushed (R272, R274). -/
theorem State.Stream.enqueue {j : Nat} (hrun : t.halted = false → s.halted = false)
    (hmode : t.ring.mode = s.ring.mode) (hin : t.ring.inSequence = s.ring.inSequence)
    (hopen : s.ring.inSequence = true) (hlast : t.ring.lastEnq.toInt = j)
    (hlater : s.ring.lastEnq.toInt < j) (hj : j < s.ring.fill.toNat)
    (hfill : t.ring.fill = s.ring.fill)
    (hfifo : fifoTokens t = fifoTokens s ++ [some (slotToken j)]) :
    t.Stream (pushed ++ [slotToken j]) := by
  intro hr
  obtain ⟨ended, current, hpushed, hcont, hidle, hrise, hbelow, henq, hlatest⟩ := h (hrun hr)
  have hlt (k : Nat) (hk : k ∈ ended.flatten ++ current) : k < j := by
    have hle := le_last_of_rising hrise k hk
    omega
  have hslots : ended.flatten ++ (current ++ [j]) = (ended.flatten ++ current) ++ [j] :=
    (List.append_assoc ..).symm
  refine ⟨ended, current ++ [j], ?_, ?_, ?_, ?_, ?_, ?_, ?_⟩
  · rw [hpushed, RingUnit.unfinished_congr hmode hin, RingUnit.unfinished_concat hopen,
      List.append_assoc]
  · rwa [hmode]
  · rw [hin, hopen]
    exact nofun
  · rw [hslots]
    exact List.pairwise_append.2 ⟨hrise, List.pairwise_singleton .., fun k hk _ hj =>
      List.mem_singleton.1 hj ▸ hlt k hk⟩
  · intro k hk
    rw [hslots, List.mem_append, List.mem_singleton] at hk
    rw [hfill]
    exact hk.elim (hbelow k) (fun hk => hk ▸ hj)
  · rw [hslots, List.getLast?_concat]
    exact hlast
  · rw [hfifo]
    exact suffix_map_concat _ hlatest

/-- `END` is pushed (R274). -/
theorem State.Stream.finish (hrun : t.halted = false → s.halted = false)
    (hmode : t.ring.mode = s.ring.mode) (hnot : s.ring.mode ≠ .continuous)
    (hopen : s.ring.inSequence = true) (hclosed : t.ring.inSequence = false)
    (hlast : t.ring.lastEnq = s.ring.lastEnq) (hfill : t.ring.fill = s.ring.fill)
    (hfifo : fifoTokens t = fifoTokens s ++ [some endToken]) :
    t.Stream (pushed ++ [endToken]) := by
  intro hr
  obtain ⟨ended, current, hpushed, hcont, hidle, hrise, hbelow, henq, hlatest⟩ := h (hrun hr)
  have hslots : (ended ++ [current]).flatten ++ [] = ended.flatten ++ current := by simp
  refine ⟨ended ++ [current], [], ?_, ?_, fun _ => rfl, ?_, ?_, ?_, ?_⟩
  · rw [hpushed, RingUnit.unfinished_of_inSequence hopen hnot]
    simp [RingUnit.unfinished, hclosed, wholeSequence]
  · exact fun hcont => absurd (hmode.symm.trans hcont) hnot
  · rwa [hslots]
  · rwa [hslots, hfill]
  · rwa [hslots, hlast]
  · rw [hfifo]
    exact suffix_map_concat _ hlatest

/-- `START` is pushed, no sequence being in progress (R272, R276). -/
theorem State.Stream.start (hrun : t.halted = false → s.halted = false)
    (hmode : t.ring.mode = s.ring.mode) (hnot : s.ring.mode ≠ .continuous)
    (hidle : s.ring.inSequence = false) (hopen : t.ring.inSequence = true)
    (hlast : t.ring.lastEnq = s.ring.lastEnq) (hfill : t.ring.fill = s.ring.fill)
    (hfifo : fifoTokens t = fifoTokens s ++ [some startToken]) :
    t.Stream (pushed ++ [startToken]) := by
  intro hr
  obtain ⟨ended, current, hpushed, hcont, hempty, hrise, hbelow, henq, hlatest⟩ := h (hrun hr)
  obtain rfl := hempty hidle
  refine ⟨ended, [], ?_, ?_, fun _ => rfl, hrise, ?_, ?_, ?_⟩
  · rw [hpushed, RingUnit.unfinished_of_inSequence hopen (hmode ▸ hnot)]
    simp [RingUnit.unfinished, hidle]
  · exact fun hcont => absurd (hmode.symm.trans hcont) hnot
  · rwa [hfill]
  · rwa [hlast]
  · rw [hfifo]
    exact suffix_map_concat _ hlatest

end

/-! ## The tokens in the FIFO (R265, R286 (3), (4)) -/

/-- What a token in use is: a sentinel outside continuous mode, or a completed slot's index up to
`LAST_ENQ` (R261, R265). -/
def State.GoodToken (s : State) (t : Word) : Prop :=
  (t = startToken ∨ t = endToken) ∧ s.ring.mode ≠ .continuous ∨
    isSlotToken t ∧ t.toInt < s.ring.fill.toNat ∧ t.toInt ≤ s.ring.lastEnq.toInt

/-- The slot indexes among these tokens rise (R286 (4)). -/
def Rising (ts : List Word) : Prop :=
  ts.Pairwise fun t u => isSlotToken t → isSlotToken u → t.toInt < u.toInt

/-- The first token is the one at place 0 of the list, and so on (R267). -/
theorem fifoToken_of_tokens {s : State} {ts : List Word} (h : fifoTokens s = ts.map some) {k : Nat}
    (hk : k < s.ring.count.toNat) : fifoToken s k = ts[k]? := by
  have hget := congrArg (·[k]?) h
  rw [fifoTokens] at hget
  simp only [List.getElem?_map, List.getElem?_range hk, Option.map_some] at hget
  cases hts : ts[k]? with
  | none => simp [hts] at hget
  | some t => simpa [hts] using hget

/-- `Tokens`, said of the list of the FIFO's tokens. -/
theorem State.tokens_iff {s : State} : s.Tokens ↔ (s.halted = false → s.Behind ∧
    ∃ ts, fifoTokens s = ts.map some ∧ (∀ t ∈ ts, s.GoodToken t) ∧ Rising ts) := by
  refine forall_congr' fun hrun => and_congr_right fun _ => ⟨fun ⟨hkind, hrise⟩ => ?_,
    fun ⟨ts, hts, hgood, hrise⟩ => ?_⟩
  · have hwritten (k : Nat) (hk : k < s.ring.count.toNat) : fifoToken s k = some (tokenAt s k) := by
      obtain ⟨t, ht, -⟩ := hkind k hk
      rw [tokenAt, ht, Option.getD_some]
    refine ⟨(List.range s.ring.count.toNat).map (tokenAt s), ?_, ?_, ?_⟩
    · rw [fifoTokens, List.map_map]
      exact List.map_congr_left fun k hk => hwritten k (List.mem_range.1 hk)
    · intro t ht
      obtain ⟨k, hk, rfl⟩ := List.mem_map.1 ht
      have hk := List.mem_range.1 hk
      obtain ⟨t, ht, hgood⟩ := hkind k hk
      rwa [tokenAt, ht]
    · refine List.pairwise_map.2 (List.pairwise_lt_range.imp_of_mem fun {j k} hj hk hjk => ?_)
      have hj := List.mem_range.1 hj
      have hk := List.mem_range.1 hk
      exact hrise j k _ _ hjk hk (hwritten j hj) (hwritten k hk)
  · have hlen : ts.length = s.ring.count.toNat := by
      rw [← fifoTokens_length, hts, List.length_map]
    refine ⟨fun k hk => ?_, fun j k t u hjk hk hj hu => ?_⟩
    · refine ⟨ts[k], ?_, hgood _ (List.getElem_mem _)⟩
      rw [fifoToken_of_tokens hts hk]
      exact List.getElem?_eq_getElem _
    · rw [fifoToken_of_tokens hts (by omega)] at hj
      rw [fifoToken_of_tokens hts hk] at hu
      obtain ⟨hj', rfl⟩ := List.getElem?_eq_some_iff.1 hj
      obtain ⟨hk', rfl⟩ := List.getElem?_eq_some_iff.1 hu
      exact List.pairwise_iff_getElem.1 hrise j k hj' hk' hjk

/-- A sentinel is no slot's index (R265). -/
theorem not_isSlotToken_sentinel {t : Word} (h : t = startToken ∨ t = endToken) :
    ¬ isSlotToken t := by
  rcases h with rfl | rfl <;> unfold isSlotToken <;> decide

/-- A token of a stream is a sentinel, outside continuous mode, or one of its slots (R265). -/
theorem mem_pushed_cases {r : RingUnit} {ended : List (List Nat)} {current : List Nat} {t : Word}
    (hcont : r.mode = .continuous → ended = [])
    (ht : t ∈ ended.flatMap wholeSequence ++ r.unfinished current) :
    (t = startToken ∨ t = endToken) ∧ r.mode ≠ .continuous ∨
      ∃ j ∈ ended.flatten ++ current, t = slotToken j := by
  rcases List.mem_append.1 ht with hold | hnew
  · obtain ⟨slots, hslots, hmem⟩ := List.mem_flatMap.1 hold
    have hmode : r.mode ≠ .continuous := fun hc => by
      rw [hcont hc] at hslots
      exact List.not_mem_nil hslots
    simp only [wholeSequence, List.mem_append, List.mem_cons, List.mem_map,
      List.not_mem_nil, or_false] at hmem
    rcases hmem with (hstart | ⟨j, hj, rfl⟩) | hend
    · exact .inl ⟨.inl hstart, hmode⟩
    · exact .inr ⟨j, List.mem_append_left _ (List.mem_flatten.2 ⟨slots, hslots, hj⟩), rfl⟩
    · exact .inl ⟨.inr hend, hmode⟩
  · unfold RingUnit.unfinished at hnew
    split at hnew
    · rcases List.mem_append.1 hnew with hstart | hslot
      · split at hstart
        · exact absurd hstart List.not_mem_nil
        · exact .inl ⟨.inl (List.mem_singleton.1 hstart), ‹_›⟩
      · obtain ⟨j, hj, rfl⟩ := List.mem_map.1 hslot
        exact .inr ⟨j, List.mem_append_right _ hj, rfl⟩
    · exact absurd hnew List.not_mem_nil

/-- The slots of a list of tokens (R265). -/
def slotsOf (ts : List Word) : List Word := ts.filter fun t => 0 ≤ t.toInt

theorem slotsOf_append (ts us : List Word) : slotsOf (ts ++ us) = slotsOf ts ++ slotsOf us :=
  List.filter_append ..

/-- Slot tokens are slots all. -/
theorem slotsOf_slots {slots : List Nat} (h : ∀ j ∈ slots, j < 2 ^ 31) :
    slotsOf (slots.map slotToken) = slots.map slotToken := by
  refine List.filter_eq_self.2 fun t ht => ?_
  obtain ⟨j, hj, rfl⟩ := List.mem_map.1 ht
  rw [toInt_slotToken (h j hj)]
  exact decide_eq_true (Int.natCast_nonneg j)

/-- The slots of a whole sequence (R265). -/
theorem slotsOf_wholeSequence {slots : List Nat} (h : ∀ j ∈ slots, j < 2 ^ 31) :
    slotsOf (wholeSequence slots) = slots.map slotToken := by
  have hstart : slotsOf [startToken] = [] := by decide
  have hend : slotsOf [endToken] = [] := by decide
  rw [wholeSequence, slotsOf_append, hend, List.append_nil, ← List.singleton_append, slotsOf_append,
    hstart, List.nil_append, slotsOf_slots h]

/-- The slots of a stream (R265, R286 (5)). -/
theorem slotsOf_pushed {r : RingUnit} {ended : List (List Nat)} {current : List Nat}
    (hidle : r.inSequence = false → current = [])
    (hbelow : ∀ j ∈ ended.flatten ++ current, j < 2 ^ 31) :
    slotsOf (ended.flatMap wholeSequence ++ r.unfinished current) =
      (ended.flatten ++ current).map slotToken := by
  have hstart : slotsOf [startToken] = [] := by decide
  have hcurrent := slotsOf_slots fun j hj => hbelow j (List.mem_append_right _ hj)
  have hended : slotsOf (ended.flatMap wholeSequence) = ended.flatten.map slotToken := by
    rw [slotsOf, List.filter_flatMap, List.map_flatten, List.flatMap]
    refine congrArg _ (List.map_congr_left fun slots hslots => ?_)
    exact slotsOf_wholeSequence fun j hj =>
      hbelow j (List.mem_append_left _ (List.mem_flatten.2 ⟨slots, hslots, hj⟩))
  have hopen : slotsOf (r.unfinished current) = current.map slotToken := by
    unfold RingUnit.unfinished
    cases hin : r.inSequence with
    | false => rw [hidle hin]; rfl
    | true =>
      rw [if_pos rfl, slotsOf_append, hcurrent]
      split
      · rfl
      · rw [hstart, List.nil_append]
  rw [slotsOf_append, hended, hopen, List.map_append]

/-- Tokens rise when their slots do. -/
theorem rising_iff {ts : List Word} :
    Rising ts ↔ (slotsOf ts).Pairwise fun t u => t.toInt < u.toInt := by
  rw [slotsOf, List.pairwise_filter]
  simp only [Rising, isSlotToken, decide_eq_true_eq]

/-- The tokens of a stream rise as its slots do (R286 (4)). -/
theorem rising_pushed {r : RingUnit} {ended : List (List Nat)} {current : List Nat}
    (hidle : r.inSequence = false → current = [])
    (hrise : (ended.flatten ++ current).Pairwise (· < ·))
    (hbelow : ∀ j ∈ ended.flatten ++ current, j < 2 ^ 31) :
    Rising (ended.flatMap wholeSequence ++ r.unfinished current) := by
  rw [rising_iff, slotsOf_pushed hidle hbelow, List.pairwise_map]
  refine hrise.imp_of_mem fun hj hk hjk => ?_
  rw [toInt_slotToken (hbelow _ hj), toInt_slotToken (hbelow _ hk)]
  exact_mod_cast hjk

/-- `LAST_ENQ` of a stream is -1 or its last slot, which is completed (R39). -/
theorem State.Stream.behind {s : State} {pushed : List Word} (h : s.Stream pushed)
    (hrun : s.halted = false) : s.Behind := by
  obtain ⟨ended, current, -, -, -, -, hbelow, henq, -⟩ := h hrun
  generalize ended.flatten ++ current = slots at hbelow henq
  rw [State.Behind, henq]
  cases hlast : slots.getLast? with
  | none => exact ⟨le_rfl, show (-1 : Int) < _ by omega⟩
  | some j =>
    have hj := hbelow j (List.mem_of_getLast? hlast)
    show (-1 : Int) ≤ (j : Int) ∧ (j : Int) < _
    omega

/-- What the FIFO holds of a stream is as `Tokens` says (R286). -/
theorem State.Stream.tokens {s : State} {pushed : List Word} (h : s.Stream pushed) : s.Tokens := by
  refine State.tokens_iff.2 fun hrun => ⟨h.behind hrun, ?_⟩
  obtain ⟨ended, current, rfl, hcont, hidle, hrise, hbelow, henq, before, hlatest⟩ := h hrun
  have hlt := s.ring.fill.isLt
  have hsmall (j : Nat) (hj : j ∈ ended.flatten ++ current) : j < 2 ^ 31 :=
    (hbelow j hj).trans hlt
  generalize hp : ended.flatMap wholeSequence ++ s.ring.unfinished current = pushed at hlatest
  obtain ⟨old, ts, hsplit, -, hts⟩ := List.map_eq_append_iff.1 hlatest.symm
  have hmem (t : Word) (ht : t ∈ ts) : s.GoodToken t := by
    have hpushed : t ∈ pushed := hsplit ▸ List.mem_append_right _ ht
    rcases mem_pushed_cases hcont (hp ▸ hpushed) with hsentinel | ⟨j, hj, rfl⟩
    · exact .inl hsentinel
    · have hle := le_last_of_rising hrise j hj
      rw [← henq] at hle
      right
      rw [isSlotToken, toInt_slotToken (hsmall j hj)]
      exact ⟨Int.natCast_nonneg j, Int.ofNat_lt.2 (hbelow j hj), hle⟩
  refine ⟨ts, hts.symm, hmem, ?_⟩
  have hall := rising_pushed hidle hrise hsmall
  rw [hp, hsplit] at hall
  obtain ⟨-, hkept, -⟩ := List.pairwise_append.1 hall
  exact hkept

/-! ## What a move does to the stream -/

/-- What one move does to the FIFO's contents and to the registers of its sequence: it pushes nothing,
a slot, or the sentinel at which a sequence starts or ends. -/
inductive TokenMove (s t : State) : Prop
  | kept (hmode : t.ring.mode = s.ring.mode) (hin : t.ring.inSequence = s.ring.inSequence)
      (hlast : t.ring.lastEnq = s.ring.lastEnq)
      (hfill : s.ring.fill.toNat ≤ t.ring.fill.toNat) (hfifo : fifoTokens t = fifoTokens s)
  | slot (j : Nat) (hmode : t.ring.mode = s.ring.mode)
      (hin : t.ring.inSequence = s.ring.inSequence) (hopen : s.ring.inSequence = true)
      (hlast : t.ring.lastEnq.toInt = j) (hlater : s.ring.lastEnq.toInt < j)
      (hj : j < s.ring.fill.toNat) (hfill : t.ring.fill = s.ring.fill)
      (hfifo : fifoTokens t = fifoTokens s ++ [some (slotToken j)])
  | sentinel (w : Word) (hw : w = startToken ∧ s.ring.inSequence = false ∧ t.ring.inSequence = true ∨
        w = endToken ∧ s.ring.inSequence = true ∧ t.ring.inSequence = false)
      (hmode : t.ring.mode = s.ring.mode) (hnot : s.ring.mode ≠ .continuous)
      (hlast : t.ring.lastEnq = s.ring.lastEnq) (hfill : t.ring.fill = s.ring.fill)
      (hfifo : fifoTokens t = fifoTokens s ++ [some w])

/-- The FIFO of a legal build with its cursors in range. -/
def State.FifoOk (s : State) : Prop := s.build.wf = true ∧ s.ring.fifoInv s.build

/-- A push with room, the other registers moved as they may be (R268). -/
theorem State.FifoOk.push {s : State} (h : s.FifoOk) (hroom : s.ring.count.toNat ≠ s.build.fc)
    (w : Word) : (push w s).FifoOk ∧ fifoTokens (push w s) = fifoTokens s ++ [some w] := by
  obtain ⟨hb, hinv⟩ := h
  obtain ⟨hcount, -⟩ := id hinv
  refine ⟨⟨(push_build w s).symm ▸ hb, (push_build w s).symm ▸ push_fifoInv hb hinv w⟩, ?_⟩
  exact fifoTokens_push hb hinv w (by omega)

/-- Every move of the producer is one of these, and keeps the cursors (R268, R286 (2)). -/
theorem ProducerMove.tokenMove {s t : State} (hm : ProducerMove s t) (h : s.FifoOk) :
    t.FifoOk ∧ TokenMove s t := by
  cases hm with
  | store x => exact ⟨h, .kept rfl rfl rfl le_rfl rfl⟩
  | fill hfill =>
    have hnext := toNat_advanceFill hfill
    have hle : s.ring.fill.toNat ≤ (advanceFill s).ring.fill.toNat := by omega
    rw [advanceFill_frame] at hle ⊢
    exact ⟨h, .kept rfl rfl rfl hle rfl⟩
  | enqueue j hroom hin hlast hj =>
    have hfill := s.ring.fill.isLt
    obtain ⟨hok, hfifo⟩ := h.push hroom (slotToken j)
    obtain ⟨hlast', hfill', hmode', hin'⟩ := enqueueSlot_fields j s
    exact ⟨hok, .slot j hmode' hin' hin (by rw [hlast', toInt_slotToken (by omega)]) hlast hj hfill'
      hfifo⟩
  | finish hroom hin hmode =>
    obtain ⟨hok, hfifo⟩ := h.push hroom endToken
    obtain ⟨hlast', hfill', hmode', hin'⟩ := finishSequence_fields s
    refine ⟨?_, .sentinel endToken (.inr ⟨rfl, hin, hin' hmode⟩) hmode' hmode hlast' hfill' ?_⟩
    all_goals rw [finishSequence_eq]
    · exact hok
    · exact hfifo
  | trigger hroom hmode hidle =>
    obtain ⟨hlast', hfill', hmode', htrig', hreading'⟩ := openSequence_fields s
    by_cases htriggered : s.ring.mode = .triggered
    · obtain ⟨hok, hfifo⟩ := State.FifoOk.push (s := s.triggered) h (hroom htriggered) startToken
      have hopen : openSequence s = push startToken s.triggered := if_pos htriggered
      refine ⟨hopen ▸ hok, .sentinel startToken (.inl ⟨rfl, ?_, ?_⟩) hmode' hmode hlast' hfill'
        (hopen ▸ hfifo)⟩
      · simp [RingUnit.inSequence, htriggered, hidle]
      · simp [RingUnit.inSequence, hmode', htriggered, htrig']
    · have hopen : openSequence s = s.triggered := if_neg htriggered
      have hgated : s.ring.mode = .gated := by cases hm : s.ring.mode <;> simp_all
      refine ⟨hopen ▸ h, .kept hmode' ?_ hlast' (by rw [hfill']) (hopen ▸ rfl)⟩
      simp [RingUnit.inSequence, hmode', hgated, hreading']
  | reopen hroom hclosed =>
    obtain ⟨hok, hfifo⟩ := State.FifoOk.push (s := s.opened) h hroom startToken
    obtain ⟨hgated, hreading⟩ := gateClosed_iff.1 hclosed
    rw [reopenGate_eq]
    refine ⟨hok, .sentinel startToken (.inl ⟨rfl, ?_, ?_⟩) (push_mode _ _) (by rw [hgated]; decide)
      (push_lastEnq _ _) (push_fill _ _) hfifo⟩
    · simp [RingUnit.inSequence, hgated, hreading]
    · rw [RingUnit.inSequence_iff, push_mode, push_gatedReading]
      exact .inr (.inr ⟨hgated, rfl⟩)
  | mark flag trig final => exact ⟨h, .kept rfl rfl rfl le_rfl rfl⟩

/-- A move is the producer's (R260). -/
theorem ProducerMove.producerOnly {s t : State} (hm : ProducerMove s t) : ProducerOnly s t := by
  cases hm with
  | store x => exact ⟨rfl, id, id, id⟩
  | fill hfill => exact advanceFill_producerOnly s
  | enqueue j => exact enqueueSlot_producerOnly j s
  | finish =>
    unfold finishSequence
    split
    · exact (endSequence_producerOnly s).trans (closeGate_producerOnly _)
    · exact endSequence_producerOnly s
  | trigger =>
    have htrig : ProducerOnly s s.triggered := ⟨rfl, id, id, id⟩
    unfold openSequence
    split
    · exact htrig.trans (push_producerOnly _ _)
    · exact htrig
  | reopen =>
    have hopened : ProducerOnly s s.opened := ⟨rfl, nofun, id, id⟩
    exact hopened.trans (push_producerOnly _ _)
  | mark => exact ⟨rfl, id, id, id⟩

/-- Every move pushes on (R265, R286). -/
theorem TokenMove.stream {s t : State} {pushed : List Word} (hm : TokenMove s t)
    (hrun : t.halted = false → s.halted = false) (h : s.Stream pushed) :
    ∃ pushed', pushed <+: pushed' ∧ t.Stream pushed' := by
  cases hm with
  | kept hmode hin hlast hfill hfifo =>
    exact ⟨pushed, List.prefix_rfl,
      h.kept hrun hmode hin hlast hfill (hfifo ▸ List.suffix_rfl)⟩
  | slot j hmode hin hopen hlast hlater hj hfill hfifo =>
    exact ⟨_, ⟨_, rfl⟩, h.enqueue hrun hmode hin hopen hlast hlater hj hfill hfifo⟩
  | sentinel w hw hmode hnot hlast hfill hfifo =>
    refine ⟨pushed ++ [w], ⟨_, rfl⟩, ?_⟩
    rcases hw with ⟨rfl, hidle, hopen⟩ | ⟨rfl, hopen, hclosed⟩
    · exact h.start hrun hmode hnot hidle hopen hlast hfill hfifo
    · exact h.finish hrun hmode hnot hopen hclosed hlast hfill hfifo

/-- A token stays good while the counter advances and later slots are enqueued. -/
theorem State.GoodToken.mono {s t : State} {w : Word} (h : s.GoodToken w)
    (hmode : t.ring.mode = s.ring.mode) (hfill : s.ring.fill.toNat ≤ t.ring.fill.toNat)
    (hlast : s.ring.lastEnq.toInt ≤ t.ring.lastEnq.toInt) : t.GoodToken w := by
  rcases h with ⟨hsentinel, hm⟩ | ⟨hslot, hbelow, hle⟩
  · exact .inl ⟨hsentinel, hmode ▸ hm⟩
  · exact .inr ⟨hslot, by omega, hle.trans hlast⟩

/-- One token more, good and later than the slots before it (R265, R286). -/
theorem State.Tokens.concat {s t : State} {w : Word} (h : s.Tokens)
    (hrun : t.halted = false → s.halted = false) (hmode : t.ring.mode = s.ring.mode)
    (hfill : t.ring.fill = s.ring.fill) (hbehind : s.Behind → t.Behind)
    (hlast : s.ring.lastEnq.toInt ≤ t.ring.lastEnq.toInt) (hgood : t.GoodToken w)
    (hlater : isSlotToken w → s.ring.lastEnq.toInt < w.toInt)
    (hfifo : fifoTokens t = fifoTokens s ++ [some w]) : t.Tokens := by
  refine State.tokens_iff.2 fun hr => ?_
  obtain ⟨hb, ts, hts, hall, hrise⟩ := State.tokens_iff.1 h (hrun hr)
  refine ⟨hbehind hb, ts ++ [w], by rw [hfifo, hts, List.map_append]; rfl, fun u hu => ?_, ?_⟩
  · rcases List.mem_append.1 hu with hu | hu
    · exact (hall u hu).mono hmode (by rw [hfill]) hlast
    · exact List.mem_singleton.1 hu ▸ hgood
  · refine List.pairwise_append.2 ⟨hrise, List.pairwise_singleton .., fun u hu v hv hslot hlate => ?_⟩
    obtain rfl := List.mem_singleton.1 hv
    rcases hall u hu with ⟨hsentinel, -⟩ | ⟨-, -, hle⟩
    · exact absurd hslot (not_isSlotToken_sentinel hsentinel)
    · exact hle.trans_lt (hlater hlate)

/-- Every move keeps what is said of the FIFO's tokens (R265, R286). -/
theorem TokenMove.tokens {s t : State} (hm : TokenMove s t)
    (hrun : t.halted = false → s.halted = false) (h : s.Tokens) : t.Tokens := by
  cases hm with
  | kept hmode hin hlast hfill hfifo =>
    refine State.tokens_iff.2 fun hr => ?_
    obtain ⟨⟨hneg, hlt⟩, ts, hts, hgood, hrise⟩ := State.tokens_iff.1 h (hrun hr)
    refine ⟨⟨hlast ▸ hneg, by rw [hlast]; omega⟩, ts, hfifo.trans hts, fun w hw => ?_, hrise⟩
    exact (hgood w hw).mono hmode hfill (by rw [hlast])
  | slot j hmode hin hopen hlast hlater hj hfill hfifo =>
    have hsmall := s.ring.fill.isLt
    have hindex := toInt_slotToken (j := j) (by omega)
    refine h.concat hrun hmode hfill (fun _ => ?_) (by omega) (.inr ?_) (fun _ => by omega) hfifo
    · rw [State.Behind, hlast, hfill]
      omega
    · rw [isSlotToken, hindex, hlast, hfill]
      omega
  | sentinel w hw hmode hnot hlast hfill hfifo =>
    have hsentinel : w = startToken ∨ w = endToken := hw.imp And.left And.left
    refine h.concat hrun hmode hfill (fun hb => ?_) (by rw [hlast]) (.inl ⟨hsentinel, hmode ▸ hnot⟩)
      (fun hslot => absurd hslot (not_isSlotToken_sentinel hsentinel)) hfifo
    rwa [State.Behind, hlast, hfill]

/-- A chain of moves keeps what each move keeps. -/
theorem ProducerMoves.tokens {s t : State} (hm : ProducerMoves s t) (hok : s.FifoOk)
    (h : s.Tokens) : t.FifoOk ∧ t.Tokens := by
  induction hm with
  | refl => exact ⟨hok, h⟩
  | tail _ hlast ih =>
    obtain ⟨hok, h⟩ := ih
    obtain ⟨hok', hmove⟩ := hlast.tokenMove hok
    exact ⟨hok', hmove.tokens hlast.producerOnly.running h⟩

/-- A chain of moves pushes on. -/
theorem ProducerMoves.stream {s t : State} {pushed : List Word} (hm : ProducerMoves s t)
    (hok : s.FifoOk) (h : s.Stream pushed) :
    t.FifoOk ∧ ∃ pushed', pushed <+: pushed' ∧ t.Stream pushed' := by
  induction hm with
  | refl => exact ⟨hok, pushed, List.prefix_rfl, h⟩
  | tail _ hlast ih =>
    obtain ⟨hok, pushed', hprefix, h⟩ := ih
    obtain ⟨hok', hmove⟩ := hlast.tokenMove hok
    obtain ⟨pushed'', hprefix', h'⟩ := hmove.stream hlast.producerOnly.running h
    exact ⟨hok', pushed'', hprefix.trans hprefix', h'⟩

/-! ## The stream and the tokens along every step (R265, R286) -/

/-- The FIFO of a session just started holds the `START` of a gated batch or nothing (R266). -/
theorem ringResetRule_tokens {s : State} (hb : s.build.wf = true) (mode : Mode) :
    fifoTokens (ringResetRule mode s) =
      (if mode = .gated then [startToken] else []).map some := by
  have hempty : fifoTokens (s.cleared mode) = [] := rfl
  obtain ⟨-, -, -, -, -, ⟨hfc, -⟩, -⟩ := Build.bounds hb
  rw [ringResetRule_cleared]
  split
  · exact (fifoTokens_push (s := s.cleared mode) hb (State.cleared_fifoInv hb mode) startToken
      (show 0 < s.build.fc by omega)).trans (by rw [hempty]; rfl)
  · exact hempty

/-- A session starts its stream anew (R266). -/
theorem ringResetRule_stream {s : State} (hb : s.build.wf = true) (hrun : s.halted = false)
    (mode : Mode) : ∃ pushed, (ringResetRule mode s).Stream pushed ∧
      (ringResetRule mode s).SessionStart pushed := by
  have htokens := ringResetRule_tokens hb mode
  obtain ⟨fifo, -, -, hstate⟩ := ringResetRule_state hb hrun mode
  rw [hstate] at htokens ⊢
  refine ⟨if mode = .gated then [startToken] else [], fun _ => ⟨[], [], ?_, fun _ => rfl,
    fun _ => rfl, .nil, ?_, ?_, htokens ▸ List.suffix_rfl⟩, rfl, rfl, rfl, rfl, rfl⟩
  · cases mode <;> rfl
  · exact fun j hj => absurd hj List.not_mem_nil
  · show (0xFFFFFFFF : Word).toInt = -1
    decide

theorem RingKept.stream {s t : State} {pushed : List Word} (hk : RingKept s t)
    (h : s.Stream pushed) : t.Stream pushed := by
  have hfifo : fifoTokens t = fifoTokens s :=
    fifoTokens_congr hk.build hk.fifo (by rw [hk.ring]) (by rw [hk.ring])
  refine h.kept (fun hrun => ?_) ?_ ?_ ?_ ?_ (hfifo ▸ List.suffix_rfl)
  · rwa [State.halted, ← hk.fault]
  · rw [hk.ring]
  · rw [hk.ring]
    rfl
  · rw [hk.ring]
  · rw [hk.ring]

theorem RingKept.tokens {s t : State} (hk : RingKept s t) (h : s.Tokens) : t.Tokens := by
  refine h.congr hk.fault hk.build hk.fifo ?_ ?_ ?_ ?_ ?_ <;> rw [hk.ring]

/-- The consumer's pops keep the cursors. -/
theorem State.FifoOk.pop {s : State} (h : s.FifoOk) (hpos : 0 < s.ring.count.toNat) :
    (pop s).FifoOk := by
  obtain ⟨hb, hinv⟩ := h
  exact ⟨hb, pop_fifoInv hb hinv hpos⟩

/-- The consumer's pops keep the stream, whose latest tokens the FIFO still holds (R269). -/
theorem ringGetnextRule_stream {s : State} {pushed : List Word} (hok : s.FifoOk)
    (h : s.Stream pushed) : (ringGetnextRule s).Stream pushed := by
  refine And.right (ringGetnextRule_induct (P := fun u => u.FifoOk ∧ u.Stream pushed)
    (fun u v huv hu => ?_) (fun u hpos hu => ?_) ⟨hok, h⟩)
  · rw [huv]
    exact hu
  · obtain ⟨huok, hstream⟩ := hu
    refine ⟨huok.pop hpos, hstream.kept id rfl rfl rfl le_rfl ?_⟩
    obtain ⟨hb, hinv⟩ := huok
    rw [fifoTokens_pop hb hinv hpos]
    exact List.suffix_cons _ _

/-- They keep what is said of the tokens left (R269). -/
theorem ringGetnextRule_tokens {s : State} (hok : s.FifoOk) (h : s.Tokens) :
    (ringGetnextRule s).Tokens := by
  refine And.right (ringGetnextRule_induct (P := fun u => u.FifoOk ∧ u.Tokens)
    (fun u v huv hu => ?_) (fun u hpos hu => ?_) ⟨hok, h⟩)
  · rw [huv]
    exact hu
  · obtain ⟨huok, htokens⟩ := hu
    obtain ⟨hb, hinv⟩ := id huok
    exact ⟨huok.pop hpos, pop_tokens hb hinv htokens⟩

theorem State.Inv.fifoOk {s : State} (h : s.Inv) : s.FifoOk := by
  obtain ⟨⟨hb, -, hfifo, -⟩, -⟩ := h.ringInv
  exact ⟨hb, hfifo⟩

theorem RingKept.running {s t : State} (hk : RingKept s t) (hrun : s.halted = false) :
    t.halted = false := by rwa [State.halted, hk.fault]

/-- A hand-over to the ring that ends without a fault is a chain of moves (R196, R270). -/
theorem RingKept.ringAppend_moves {s u : State} (hk : RingKept s u) (hinv : s.Inv)
    (hbehind : u.Behind) {xs : List Half} (hrun : (ringAppend xs u).halted = false) :
    u.FifoOk ∧ ProducerMoves u (ringAppend xs u) := by
  obtain ⟨hb, -, -, -, hring⟩ := hinv
  have hu := RingUnit.inv.ringInv (hk.inv hring) (hk.build ▸ hb)
  obtain ⟨⟨hbu, -, hfifo, -⟩, -⟩ := id hu
  exact ⟨⟨hbu, hfifo⟩, Machine.ringAppend_moves hu hbehind hrun⟩

/-- What an operation makes of the stream (R265, R286). -/
theorem RingEffect.stream {i : Instr} {s t : State} {pushed : List Word} (hinv : s.Inv)
    (h : s.Stream pushed) (he : RingEffect i s t) :
    ∃ pushed', t.Stream pushed' ∧ (pushed <+: pushed' ∨ t.SessionStart pushed') := by
  have hok := hinv.fifoOk
  obtain ⟨hb, -⟩ := id hok
  cases he with
  | kept hk => exact ⟨pushed, hk.stream h, .inl List.prefix_rfl⟩
  | @append xs u hrun hk =>
    by_cases hhalt : (ringAppend xs u).halted = true
    · exact ⟨pushed, fun hr => (nomatch hhalt.symm.trans hr), .inl List.prefix_rfl⟩
    · have hu := hk.stream h
      obtain ⟨hoku, hmoves⟩ :=
        hk.ringAppend_moves hinv (hu.behind (hk.running hrun)) (Bool.eq_false_iff.2 hhalt)
      obtain ⟨-, pushed', hprefix, hafter⟩ := hmoves.stream hoku hu
      exact ⟨pushed', hafter, .inl hprefix⟩
  | session mode hrun =>
    obtain ⟨pushed', hafter, hstart⟩ := ringResetRule_stream hb hrun mode
    exact ⟨pushed', hafter, .inr hstart⟩
  | getnext hrun => exact ⟨pushed, ringGetnextRule_stream hok h, .inl List.prefix_rfl⟩
  | recdone hrun hi =>
    refine ⟨pushed, ?_, .inl List.prefix_rfl⟩
    unfold ringRecdoneRule
    split <;> exact h
  | reset => exact ⟨[], State.resetOf_stream s.build s.env, .inr ⟨rfl, rfl, rfl, rfl, rfl⟩⟩

/-- What an operation makes of the FIFO's tokens (R265, R286). -/
theorem RingEffect.tokens {i : Instr} {s t : State} (hinv : s.Inv) (h : s.Tokens)
    (he : RingEffect i s t) : t.Tokens := by
  have hok := hinv.fifoOk
  obtain ⟨hb, -⟩ := id hok
  cases he with
  | kept hk => exact hk.tokens h
  | @append xs u hrun hk =>
    by_cases hhalt : (ringAppend xs u).halted = true
    · exact fun hr => nomatch hhalt.symm.trans hr
    · have hu := hk.tokens h
      obtain ⟨hbehind, -⟩ := State.tokens_iff.1 hu (hk.running hrun)
      obtain ⟨hoku, hmoves⟩ := hk.ringAppend_moves hinv hbehind (Bool.eq_false_iff.2 hhalt)
      obtain ⟨-, hafter⟩ := hmoves.tokens hoku hu
      exact hafter
  | session mode hrun =>
    obtain ⟨pushed', hafter, -⟩ := ringResetRule_stream hb hrun mode
    exact hafter.tokens
  | getnext hrun => exact ringGetnextRule_tokens hok h
  | recdone hrun hi =>
    unfold ringRecdoneRule
    split <;> exact h
  | reset => exact State.resetOf_tokens s.build s.env

/-- Settles O39: the producer's moves push on, the consumer's pops take the oldest, and a reset starts
anew. -/
theorem stepKeepsTokens : Obligations.StepKeepsTokens := by
  refine ⟨fun s t pushed hinv h hstep => ?_, fun s pushed _ h => h.tokens,
    fun s t hinv h hstep => ?_⟩
  · obtain ⟨i, env, he, -⟩ := step_ringEffect hstep
    exact he.stream (s := { s with env := env }) hinv h
  · obtain ⟨i, env, he, -⟩ := step_ringEffect hstep
    exact he.tokens (s := { s with env := env }) hinv h

end Sys2Proof.Machine

/-!
PROOFS. Samples in continuous mode (O32): they go round the ring in order, and each completed slot is
enqueued once.
-/

namespace Sys2Proof.Machine

/-! ## Samples in continuous mode (R80, R261, R270) -/

/-- Where the `j`-th sample from now on goes, the slots taken round the ring (R80, R270). -/
def State.place (s : State) (j : Nat) : Nat :=
  (s.ring.fill.toNat * s.build.e + s.ring.wpos.toNat + j) / s.build.e % s.build.n * s.build.e +
    (s.ring.fill.toNat * s.build.e + s.ring.wpos.toNat + j) % s.build.e

/-- How many slots `n` samples more complete (R270). -/
def State.slotsDone (s : State) (n : Nat) : Nat := (s.ring.wpos.toNat + n) / s.build.e

/-- The place is that in a buffer of `N * E` samples. -/
theorem State.place_eq_mod (s : State) (j : Nat) :
    s.place j =
      (s.ring.fill.toNat * s.build.e + s.ring.wpos.toNat + j) % (s.build.n * s.build.e) := by
  rw [State.place, Nat.mul_comm s.build.n, Nat.mod_mul, Nat.add_comm, Nat.mul_comm (_ % _)]

/-- Samples less than a turn apart have different places (R80). -/
theorem State.place_ne (s : State) {i j : Nat} (hlt : i < j) (hturn : j < i + s.build.n * s.build.e) :
    s.place i ≠ s.place j := by
  rw [State.place_eq_mod, State.place_eq_mod]
  exact add_mod_ne _ hlt hturn

/-- An element whose bytes are as before is as before. -/
theorem Memory.read16_congr {m m' : Memory} {i : Nat}
    (h : ∀ a, a / 2 = i → m'.readByte a = m.readByte a) : m'.read16 i = m.read16 i := by
  rw [Memory.read16, Memory.read16, h _ (by omega), h _ (by omega)]

/-- `t` is `s`, in continuous mode, with the samples `xs` appended (R270, R274). -/
structure Appended (s : State) (xs : List Half) (t : State) : Prop where
  tokens : fifoTokens t =
    fifoTokens s ++ slotRun s.ring.fill.toNat (s.slotsDone xs.length)
  recent : ∀ j x, xs[j]? = some x → xs.length ≤ j + s.build.n * s.build.e →
    t.mem.slot.read16 (s.place j) = some x
  outside : ∀ a, (∀ j, j < xs.length → a / 2 ≠ s.place j) →
    t.mem.slot.readByte a = s.mem.slot.readByte a
  pushed : s.fifoPushedOnly (s.slotsDone xs.length) t.mem.fifo
  state : t = { s with
    mem := { s.mem with slot := t.mem.slot, fifo := t.mem.fifo }
    ring := { s.ring with
      fill := .ofNat 31 (s.ring.fill.toNat + s.slotsDone xs.length)
      wpos := .ofNat 32 ((s.ring.wpos.toNat + xs.length) % s.build.e)
      tail := tailAfter s (s.slotsDone xs.length)
      count := .ofNat 32 (s.ring.count.toNat + s.slotsDone xs.length)
      lastEnq := if s.slotsDone xs.length = 0 then s.ring.lastEnq
        else .ofNat 32 (s.ring.fill.toNat + s.slotsDone xs.length - 1) } }

section
variable {s : State} (hb : s.build.wf = true) (h : s.ring.inv s.build)
include hb h

/-- No sample, nothing appended. -/
theorem Appended.nil : Appended s [] s := by
  obtain ⟨hwpos, hfifo, -⟩ := h
  have hnone : s.slotsDone 0 = 0 := Nat.div_eq_of_lt hwpos
  refine ⟨?_, fun j x hx => (nomatch hx), fun a _ => rfl, s.fifoPushedOnly_refl _, ?_⟩
  · rw [List.length_nil, hnone]
    simp [slotRun]
  · simp [hnone, tailAfter_zero hb hfifo, Nat.mod_eq_of_lt hwpos]

/-- The registers after samples appended, as numbers. -/
theorem Appended.toNat {xs : List Half} {t : State} (ht : Appended s xs t)
    (hroom : s.ring.count.toNat + s.slotsDone xs.length ≤ s.build.fc)
    (hfill : s.ring.fill.toNat + s.slotsDone xs.length < 2 ^ 31) :
    t.build = s.build ∧ t.ring.fill.toNat = s.ring.fill.toNat + s.slotsDone xs.length ∧
      t.ring.wpos.toNat = (s.ring.wpos.toNat + xs.length) % s.build.e ∧
      t.ring.tail.toNat = (s.ring.tail.toNat + s.slotsDone xs.length) % s.build.fc ∧
      t.ring.count.toNat = s.ring.count.toNat + s.slotsDone xs.length := by
  obtain ⟨-, -, -, ⟨hn, -⟩, ⟨he, hslots⟩, ⟨-, hfc⟩, -⟩ := Build.bounds hb
  obtain ⟨hwpos, hfifo, -⟩ := h
  have hmod := Nat.mod_lt (s.ring.wpos.toNat + xs.length) (by omega : s.build.e > 0)
  have hewide : s.build.e < 2 ^ 32 := by
    have := Nat.le_mul_of_pos_left s.build.e (by omega : 0 < 2 * s.build.n)
    omega
  rw [ht.state]
  refine ⟨rfl, ?_, toNat_ofNat32 (by omega), toNat_tailAfter hb hfifo _, toNat_ofNat32 (by omega)⟩
  show (BitVec.ofNat 31 _).toNat = _
  rw [BitVec.toNat_ofNat, Nat.mod_eq_of_lt hfill]

/-- Samples appended after others: the slots and places go on (R80, R270). -/
theorem Appended.next {xs : List Half} {t : State} (ht : Appended s xs t)
    (hroom : s.ring.count.toNat + s.slotsDone xs.length ≤ s.build.fc)
    (hfill : s.ring.fill.toNat + s.slotsDone xs.length < 2 ^ 31) (n : Nat) :
    s.slotsDone (xs.length + n) = s.slotsDone xs.length + t.slotsDone n ∧
      t.place n = s.place (xs.length + n) ∧
      (t.ring.wpos.toNat + n) % t.build.e = (s.ring.wpos.toNat + (xs.length + n)) % s.build.e := by
  obtain ⟨hbuild, hfill', hwpos, -⟩ := ht.toNat hb h hroom hfill
  obtain ⟨-, -, -, -, ⟨he, -⟩, -⟩ := Build.bounds hb
  have hsplit := Nat.div_add_mod (s.ring.wpos.toNat + xs.length) s.build.e
  have hbase : (s.ring.fill.toNat + s.slotsDone xs.length) * s.build.e +
      (s.ring.wpos.toNat + xs.length) % s.build.e =
      s.ring.fill.toNat * s.build.e + s.ring.wpos.toNat + xs.length := by
    rw [Nat.add_mul, State.slotsDone, Nat.mul_comm (_ / _)]
    omega
  refine ⟨?_, ?_, ?_⟩
  · rw [State.slotsDone, State.slotsDone, State.slotsDone, hbuild, hwpos, ← Nat.add_assoc,
      ← Nat.mul_add_div (by omega), ← Nat.add_assoc, hsplit]
  · rw [State.place, State.place, hbuild, hfill', hwpos, hbase, ← Nat.add_assoc]
  · rw [hbuild, hwpos, Nat.mod_add_mod, Nat.add_assoc]

/-- Samples appended in two parts (R270). -/
theorem Appended.trans {xs ys : List Half} {t u : State} (ht : Appended s xs t)
    (hu : Appended t ys u)
    (hroom : s.ring.count.toNat + s.slotsDone (xs.length + ys.length) ≤ s.build.fc)
    (hfill : s.ring.fill.toNat + s.slotsDone (xs.length + ys.length) < 2 ^ 31) :
    Appended s (xs ++ ys) u := by
  have hdone : s.slotsDone xs.length ≤ s.slotsDone (xs.length + ys.length) :=
    Nat.div_le_div_right (by omega)
  have hnext := ht.next hb h (by omega) (by omega)
  obtain ⟨hbuild, hfill', hwpos, htail, hcount⟩ := ht.toNat hb h (by omega) (by omega)
  obtain ⟨hslots, -, hcursor⟩ := hnext ys.length
  have hturn : t.build.n * t.build.e = s.build.n * s.build.e := by rw [hbuild]
  refine ⟨?tokens, ?recent, ?outside, ?pushed, ?state⟩
  case tokens =>
    rw [hu.tokens, ht.tokens, hfill', List.length_append, hslots, slotRun_add, List.append_assoc]
  case recent =>
    intro j x hx hlast
    rw [List.length_append] at hlast
    by_cases hj : j < xs.length
    · rw [List.getElem?_append_left hj] at hx
      rw [← ht.recent j x hx (by omega)]
      refine Memory.read16_congr fun a ha => hu.outside a fun i hi => ?_
      obtain ⟨-, hplace, -⟩ := hnext i
      rw [ha, hplace]
      exact s.place_ne (by omega) (by omega)
    · rw [List.getElem?_append_right (by omega)] at hx
      obtain ⟨-, hplace, -⟩ := hnext (j - xs.length)
      rw [← hu.recent (j - xs.length) x hx (by omega), hplace, Nat.add_sub_cancel' (by omega)]
  case outside =>
    intro a ha
    rw [List.length_append] at ha
    rw [hu.outside a fun i hi => ?_, ht.outside a fun i hi => ha i (by omega)]
    obtain ⟨-, hplace, -⟩ := hnext i
    exact hplace ▸ ha (xs.length + i) (by omega)
  case pushed =>
    rw [List.length_append, hslots]
    exact State.fifoPushedOnly_trans hbuild htail ht.pushed hu.pushed
  case state =>
    have hlast : (if t.slotsDone ys.length = 0 then t.ring.lastEnq
          else .ofNat 32 (t.ring.fill.toNat + t.slotsDone ys.length - 1)) =
        if s.slotsDone (xs.length + ys.length) = 0 then s.ring.lastEnq
          else .ofNat 32 (s.ring.fill.toNat + s.slotsDone (xs.length + ys.length) - 1) := by
      have hlast' : t.ring.lastEnq = if s.slotsDone xs.length = 0 then s.ring.lastEnq
          else .ofNat 32 (s.ring.fill.toNat + s.slotsDone xs.length - 1) := by rw [ht.state]
      rw [hfill', hslots, hlast']
      split_ifs <;> simp_all [Nat.add_assoc]
    have htail' : tailAfter t (t.slotsDone ys.length) =
        tailAfter s (s.slotsDone xs.length + t.slotsDone ys.length) := by
      rw [tailAfter, tailAfter, hbuild, htail, Nat.mod_add_mod, Nat.add_assoc]
    rw [hu.state, hlast, htail', hcursor, hfill', hcount, List.length_append, ← hslots,
      Nat.add_assoc, ← hslots, Nat.add_assoc, ← hslots, ht.state]

end

/-- The slot just completed is enqueued in continuous mode (R274). -/
theorem onSlotFull_continuous {s : State} (hb : s.build.wf = true) (h : s.ring.fifoInv s.build)
    (hmode : s.ring.mode = .continuous) (hroom : s.ring.count.toNat < s.build.fc)
    (hfill : s.ring.fill.toNat < 2 ^ 31 - 1) :
    fifoTokens (onSlotFull s) = fifoTokens s ++ slotRun s.ring.fill.toNat 1 ∧
      s.fifoPushedOnly 1 (onSlotFull s).mem.fifo ∧
      onSlotFull s = { s with
        mem := { s.mem with fifo := (onSlotFull s).mem.fifo }
        ring := { s.ring with
          fill := .ofNat 31 (s.ring.fill.toNat + 1)
          wpos := 0
          tail := tailAfter s 1
          count := .ofNat 32 (s.ring.count.toNat + 1)
          lastEnq := slotToken s.ring.fill.toNat } } := by
  have hslot : onSlotFull s = setLastEnq (slotToken s.ring.fill.toNat)
      (push (slotToken s.ring.fill.toNat) (advanceFill s)) := if_pos hmode
  rw [advanceFill_next hfill] at hslot
  obtain ⟨hall, hbytes, hstate⟩ := pushed_push (s := { s with
    ring := { s.ring with wpos := 0, fill := .ofNat 31 (s.ring.fill.toNat + 1) } }) hb h
      (slotToken s.ring.fill.toNat) hroom
  rw [hslot, slotRun_eq]
  refine ⟨hall, hbytes, ?_⟩
  rw [hstate]
  rfl

section
variable {s : State} (hb : s.build.wf = true) (h : s.ring.inv s.build)
  (hmode : s.ring.mode = .continuous)
include hb h hmode

/-- One sample appended (R270). -/
theorem appended_appendSample (x : Half)
    (hroom : s.ring.count.toNat + s.slotsDone 1 ≤ s.build.fc)
    (hfill : s.ring.fill.toNat + s.slotsDone 1 < 2 ^ 31) : Appended s [x] (appendSample x s) := by
  obtain ⟨-, hstored⟩ := storeSample_cursorInv (h.ringInv hb) x
  obtain ⟨-, -, -, -, ⟨he, -⟩, -⟩ := Build.bounds hb
  obtain ⟨hwpos, hfifo, -⟩ := h
  have hplace : slotOf s.build s.ring.fill.toNat * s.build.e + s.ring.wpos.toNat = s.place 0 := by
    have hdiv : (s.ring.fill.toNat * s.build.e + s.ring.wpos.toNat) / s.build.e =
        s.ring.fill.toNat := by
      rw [Nat.mul_comm, Nat.mul_add_div he, Nat.div_eq_of_lt hwpos, Nat.add_zero]
    have hmod : (s.ring.fill.toNat * s.build.e + s.ring.wpos.toNat) % s.build.e =
        s.ring.wpos.toNat := by
      rw [Nat.mul_comm, Nat.mul_add_mod, Nat.mod_eq_of_lt hwpos]
    rw [slotOf_nat, State.place, Nat.add_zero, hdiv, hmod]
  have hslot : (storeSample x s).mem.slot = s.mem.slot.write16 (s.place 0) x := by
    rw [storeSample_eq, hplace]
  have hrecent (j : Nat) (y : Half) (hy : [x][j]? = some y) :
      (storeSample x s).mem.slot.read16 (s.place j) = some y := by
    obtain ⟨rfl, rfl⟩ : j = 0 ∧ x = y := by
      simpa [List.getElem?_cons, List.getElem?_nil] using hy
    rw [hslot, Memory.read16_write16_same]
  have houtside (a : Nat) (ha : ∀ j, j < [x].length → a / 2 ≠ s.place j) :
      (storeSample x s).mem.slot.readByte a = s.mem.slot.readByte a := by
    rw [hslot, Memory.readByte_write16_other _ _ (ha 0 Nat.zero_lt_one)]
  by_cases hlast : s.ring.wpos.toNat + 1 = s.build.e
  · have hone : s.slotsDone [x].length = 1 := by
      show (s.ring.wpos.toNat + 1) / s.build.e = 1
      rw [hlast, Nat.div_self he]
    have hzero : (s.ring.wpos.toNat + [x].length) % s.build.e = 0 := by
      show (s.ring.wpos.toNat + 1) % s.build.e = 0
      rw [hlast, Nat.mod_self]
    have hroom : s.ring.count.toNat + 1 ≤ s.build.fc := hone ▸ hroom
    have hfill : s.ring.fill.toNat + 1 < 2 ^ 31 := hone ▸ hfill
    obtain ⟨hall, hbytes, hstate⟩ := onSlotFull_continuous (s := storeSample x s) hb hfifo hmode
      (by exact hroom) (by exact Nat.lt_sub_of_add_lt hfill)
    have happend : appendSample x s = onSlotFull (storeSample x s) := if_pos (hstored.trans hlast)
    have hsame : (onSlotFull (storeSample x s)).mem.slot = (storeSample x s).mem.slot := by
      rw [hstate]
    rw [happend]
    refine ⟨?_, ?_, ?_, ?_, ?_⟩
    · rw [hone]
      exact hall
    · exact fun j y hy _ => hsame ▸ hrecent j y hy
    · exact fun a ha => hsame ▸ houtside a ha
    · rw [hone]
      exact hbytes
    · rw [hone, hzero, hsame]
      exact hstate
  · have hnone : s.slotsDone [x].length = 0 := Nat.div_eq_of_lt (by
      show s.ring.wpos.toNat + 1 < s.build.e
      omega)
    have happend : appendSample x s = storeSample x s := if_neg (hstored.trans_ne hlast)
    rw [happend]
    refine ⟨?_, fun j y hy _ => hrecent j y hy, houtside, s.fifoPushedOnly_refl _, ?_⟩
    · rw [hnone]
      exact (List.append_nil _).symm
    · rw [hnone, tailAfter_zero hb hfifo, Nat.mod_eq_of_lt (by
        show s.ring.wpos.toNat + 1 < s.build.e
        omega)]
      simp [storeSample_eq]

end

/-- Samples appended in continuous mode (R261, R270, R274). -/
theorem appended_appendSamples {s : State} (hb : s.build.wf = true) (h : s.ring.inv s.build)
    (hmode : s.ring.mode = .continuous) (xs : List Half)
    (hroom : s.ring.count.toNat + s.slotsDone xs.length ≤ s.build.fc)
    (hfill : s.ring.fill.toNat + s.slotsDone xs.length < 2 ^ 31) :
    Appended s xs (appendSamples xs s) := by
  induction xs generalizing s with
  | nil => exact .nil hb h
  | cons x xs ih =>
    rw [List.length_cons, Nat.add_comm xs.length] at hroom hfill
    have hdone : s.slotsDone 1 ≤ s.slotsDone (1 + xs.length) := Nat.div_le_div_right (by omega)
    have hone := appended_appendSample hb h hmode x (by omega) (by omega)
    obtain ⟨hbuild, hfill', -, -, hcount⟩ := hone.toNat hb h (show _ + s.slotsDone 1 ≤ _ by omega)
      (show _ + s.slotsDone 1 < _ by omega)
    obtain ⟨hslots, -⟩ := hone.next hb h (show _ + s.slotsDone 1 ≤ _ by omega)
      (show _ + s.slotsDone 1 < _ by omega) xs.length
    rw [List.length_singleton] at hfill' hcount hslots
    obtain ⟨⟨-, -, hfifo, hflags⟩, hwpos⟩ := appendSample_ringInv (h.ringInv hb) x
    have hmode' : (appendSample x s).ring.mode = .continuous := by
      rw [hone.state]
      exact hmode
    rw [appendSamples_cons_open x xs (gateClosed_of_mode (by rw [hmode]; decide))]
    refine hone.trans hb h (ih (by rwa [hbuild]) ⟨hwpos, hfifo, hflags⟩ hmode' ?_ ?_) hroom hfill
    · rw [hbuild, hcount]
      omega
    · rw [hfill']
      omega

/-- Settles O32, by induction on the samples. -/
theorem continuousAppendKeepsOrder : Obligations.ContinuousAppendKeepsOrder := by
  intro s xs hb h hmode q n base place hroom hfill
  obtain ⟨hall, hrecent, houtside, hbytes, hstate⟩ :=
    appended_appendSamples hb h hmode xs hroom hfill
  exact ⟨hall, _, _, hrecent, houtside, hbytes, hstate⟩

end Sys2Proof.Machine

/-!
PROOFS. Whole runs of the ring: one round of it in continuous mode (O33), and a triggered sequence from its
trigger to its `END` (O34).
-/

namespace Sys2Proof.Machine

/-! ## Calls of `RingAppend` without a trigger (R270, R287) -/

/-- Two runs of samples are one (R270). -/
theorem appendSamples_append (xs ys : List Half) (s : State) :
    appendSamples (xs ++ ys) s = appendSamples ys (appendSamples xs s) := by
  induction xs generalizing s with
  | nil => rfl
  | cons x xs ih =>
    cases hgate : gateClosed s with
    | true =>
      rw [appendSamples_closed _ hgate, appendSamples_closed (x :: xs) hgate,
        appendSamples_closed _ hgate]
    | false =>
      rw [List.cons_append, appendSamples_cons_open _ _ hgate, appendSamples_cons_open _ _ hgate, ih]

/-- In continuous mode, no trigger raised, a call appends its samples (R270). -/
theorem ringAppend_continuous {s : State} (hmode : s.ring.mode = .continuous)
    (hflag : s.trigFlag = false) (xs : List Half) : ringAppend xs s = appendSamples xs s := by
  have hopen : gateClosed s = false := gateClosed_of_mode (by rw [hmode]; decide)
  have htaken : { s with trigFlag := false } = s := by rw [← hflag]
  simp only [ringAppend, hopen, hmode, htaken, Bool.false_eq_true, if_false, ne_eq, not_true_eq_false,
    and_false]

/-- However the samples are split into calls (R287). -/
theorem foldl_ringAppend_continuous {s : State} (hmode : s.ring.mode = .continuous)
    (hflag : s.trigFlag = false) (calls : List (List Half)) :
    calls.foldl (fun u xs => ringAppend xs u) s = appendSamples calls.flatten s := by
  induction calls generalizing s with
  | nil => rfl
  | cons xs calls ih =>
    obtain ⟨hmode', -⟩ := (appendSamples_producerOnly xs s).fields
    obtain ⟨-, -, -, hflag', -⟩ := (appendSamples_ringOnly xs s).fields
    rw [List.foldl_cons, ringAppend_continuous hmode hflag, List.flatten_cons, appendSamples_append]
    exact ih (hmode'.trans hmode) (hflag'.trans hflag)

/-- A session of continuous mode starts with everything at zero (R266). -/
theorem ringResetRule_continuous {s r : State} (hb : s.build.wf = true) (hrun : s.halted = false)
    (hr : ringResetRule .continuous s = r) :
    (r.build = s.build ∧ r.ring.mode = .continuous ∧ r.trigFlag = false ∧ r.halted = false) ∧
      (r.ring.fill.toNat = 0 ∧ r.ring.wpos.toNat = 0 ∧ r.ring.count.toNat = 0 ∧ fifoTokens r = []) ∧
      r.ring.inv s.build := by
  obtain ⟨-, -, -, -, ⟨he, -⟩, -⟩ := Build.bounds hb
  obtain ⟨fifo, -, -, hstate⟩ := ringResetRule_state hb hrun .continuous
  have hempty := ringResetRule_tokens hb .continuous
  rw [hr] at hstate hempty
  refine ⟨?_, ⟨?_, ?_, ?_, hempty⟩, ?_⟩
  · rw [hstate]
    exact ⟨rfl, rfl, rfl, hrun⟩
  · rw [hstate]
    rfl
  · rw [hstate]
    rfl
  · rw [hstate]
    rfl
  · rw [hstate]
    exact ⟨he, State.cleared_fifoInv hb .continuous, nofun, nofun, nofun⟩

/-- Settles O33: after the reset the samples of one round complete `N` slots. -/
theorem roundOfTheRing : Obligations.RoundOfTheRing := by
  intro s r calls hb hrun hexec hlen t
  obtain ⟨-, -, -, ⟨hn, hmax⟩, ⟨he, -⟩, ⟨hfc, -⟩, -⟩ := Build.bounds hb
  have hr : ringResetRule .continuous s = r := by
    rw [exec_command (.ringReset .continuous) hrun nofun nofun] at hexec
    exact Host.Outcome.next.inj hexec
  obtain ⟨⟨hbuild, hmode, hflag, hhalted⟩, ⟨hfill, hwpos, hcount, hempty⟩, hinv⟩ :=
    ringResetRule_continuous hb hrun hr
  rw [← hbuild] at hb hinv
  have hdone : r.slotsDone calls.flatten.length = s.build.n := by
    rw [State.slotsDone, hwpos, hlen, hbuild, Nat.zero_add, Nat.mul_div_cancel _ he]
  have hfits : r.ring.count.toNat + r.slotsDone calls.flatten.length ≤ r.build.fc := by
    rw [hcount, hdone, hbuild]
    omega
  have hcounts : r.ring.fill.toNat + r.slotsDone calls.flatten.length < 2 ^ 31 := by
    rw [hfill, hdone]
    omega
  have happ : Appended r calls.flatten t := by
    rw [show t = appendSamples calls.flatten r from foldl_ringAppend_continuous hmode hflag calls]
    exact appended_appendSamples hb hinv hmode calls.flatten hfits hcounts
  obtain ⟨hbuild', hfill', hwpos', -⟩ := happ.toNat hb hinv hfits hcounts
  have htokens := happ.tokens
  rw [hdone, hfill] at htokens hfill'
  rw [Nat.zero_add] at hfill'
  refine ⟨?tokens, hfill', ?cursor, ?index, ?last, ?running⟩
  case tokens => rw [htokens, hempty, List.nil_append]
  case cursor =>
    apply BitVec.eq_of_toNat_eq
    rw [hwpos', hwpos, hlen, hbuild, Nat.zero_add, Nat.mul_mod_left]
    rfl
  case index =>
    rw [csrRead, slotOf_nat, hfill', hbuild', hbuild, Nat.mod_self]
    rfl
  case last =>
    rw [happ.state, hdone, hfill, if_neg (by omega), Nat.zero_add]
    exact toNat_ofNat32 (by omega)
  case running =>
    rw [happ.state]
    exact hhalted

/-! ## Samples in triggered mode (R262, R274, R275) -/

/-- A sample goes into the slot being filled, and completes it or not (R270). -/
theorem appendSample_cases {s : State} (h : s.RingInv False) (x : Half) :
    (appendSample x s = storeSample x s ∧
        ∀ n, s.slotsDone (n + 1) = (appendSample x s).slotsDone n) ∨
      (appendSample x s = onSlotFull (storeSample x s) ∧
        ∀ n, s.slotsDone (n + 1) = (appendSample x s).slotsDone n + 1) := by
  obtain ⟨-, hstored⟩ := storeSample_cursorInv h x
  obtain ⟨⟨hb, -⟩, -⟩ := h
  obtain ⟨-, -, -, -, ⟨he, -⟩, -⟩ := Build.bounds hb
  by_cases hlast : s.ring.wpos.toNat + 1 = s.build.e
  · have hone : appendSample x s = onSlotFull (storeSample x s) := if_pos (hstored.trans hlast)
    obtain ⟨hbuild, -⟩ := (appendSample_ringOnly x s).fields
    obtain ⟨hwpos, -⟩ := onSlotFull_wpos_fill (storeSample x s)
    refine .inr ⟨hone, fun n => ?_⟩
    rw [State.slotsDone, State.slotsDone, hbuild, hone, hwpos, Nat.add_comm n, ← Nat.add_assoc, hlast,
      Nat.add_div_left _ he]
    simp
  · have hone : appendSample x s = storeSample x s := if_neg (hstored.trans_ne hlast)
    refine .inl ⟨hone, fun n => ?_⟩
    rw [State.slotsDone, State.slotsDone, hone, hstored, Nat.add_comm n, ← Nat.add_assoc]
    rfl

/-- No sample completes no slot. -/
theorem State.RingInv.slotsDone_zero {s : State} (h : s.RingInv False) : s.slotsDone 0 = 0 := by
  obtain ⟨-, hwpos⟩ := h
  exact Nat.div_eq_of_lt hwpos

/-- `t` comes after `s` outside a sequence of triggered mode, `n` slots completed (R262). -/
structure Idled (s : State) (n : Nat) (t : State) : Prop where
  mode : t.ring.mode = .triggered
  idle : t.ring.isTriggered = false
  tokens : fifoTokens t = fifoTokens s
  lastEnq : t.ring.lastEnq = s.ring.lastEnq
  fill : t.ring.fill.toNat = s.ring.fill.toNat + n
  fault : t.fault = s.fault

theorem Idled.trans {s t u : State} {n m : Nat} (h : Idled s n t) (k : Idled t m u) :
    Idled s (n + m) u where
  mode := k.mode
  idle := k.idle
  tokens := k.tokens.trans h.tokens
  lastEnq := k.lastEnq.trans h.lastEnq
  fill := by rw [k.fill, h.fill, Nat.add_assoc]
  fault := k.fault.trans h.fault

/-- Outside a sequence of triggered mode a completed slot is counted alone (R274). -/
theorem idled_onSlotFull {s : State} (hmode : s.ring.mode = .triggered)
    (hidle : s.ring.isTriggered = false) (hfill : s.ring.fill.toNat < 2 ^ 31 - 1) :
    Idled s 1 (onSlotFull s) := by
  have hslot : onSlotFull s = advanceFill s := by
    simp [onSlotFull_eq, slotCounted, enqueues, endsAt, hmode, hidle]
  have hnext := toNat_advanceFill hfill
  rw [hslot]
  rw [advanceFill_next hfill] at hnext ⊢
  exact ⟨hmode, hidle, rfl, rfl, hnext, rfl⟩

/-- Outside a sequence samples push nothing (R262, R274). -/
theorem idled_appendSamples {s : State} (h : s.RingInv False) (hmode : s.ring.mode = .triggered)
    (hidle : s.ring.isTriggered = false) (xs : List Half)
    (hfill : s.ring.fill.toNat + s.slotsDone xs.length < 2 ^ 31) :
    Idled s (s.slotsDone xs.length) (appendSamples xs s) := by
  induction xs generalizing s with
  | nil => exact ⟨hmode, hidle, rfl, rfl, by rw [List.length_nil, h.slotsDone_zero]; rfl, rfl⟩
  | cons x xs ih =>
    have hinv := appendSample_ringInv h x
    have hstore : Idled s 0 (storeSample x s) := ⟨hmode, hidle, rfl, rfl, rfl, rfl⟩
    rw [appendSamples_cons_open x xs (gateClosed_of_mode (by rw [hmode]; decide))]
    rw [List.length_cons] at hfill ⊢
    obtain ⟨c, hone, hdone⟩ : ∃ c, Idled s c (appendSample x s) ∧
        s.slotsDone (xs.length + 1) = c + (appendSample x s).slotsDone xs.length := by
      rcases appendSample_cases h x with ⟨heq, hdone⟩ | ⟨heq, hdone⟩
      · exact ⟨0, heq ▸ hstore, by rw [hdone, Nat.zero_add]⟩
      · have hnext : s.ring.fill.toNat < 2 ^ 31 - 1 := by
          rw [hdone] at hfill
          omega
        refine ⟨0 + 1, ?_, by rw [hdone, Nat.add_comm]⟩
        rw [heq]
        exact hstore.trans (idled_onSlotFull (s := storeSample x s) hmode hidle hnext)
    rw [hdone] at hfill ⊢
    exact hone.trans (ih hinv hone.mode hone.idle (by rw [hone.fill]; omega))

/-! ## The window of a trigger (R272, R274, R275) -/

/-- `s` is in a sequence of triggered mode whose final slot is `m` slots after the one being filled
(R275), with room for the rest of its tokens. -/
structure State.InWindow (s : State) (m : Nat) : Prop where
  mode : s.ring.mode = .triggered
  isTriggered : s.ring.isTriggered = true
  final : s.ring.finalIndex.toNat = s.ring.fill.toNat + m
  room : s.ring.count.toNat + m + 2 ≤ s.build.fc

/-- `t` comes after `s` and its window of `m` further slots, `n` slots completed: the window's slots and
`END` have been pushed and no more (R262, R275). -/
structure WindowDone (s : State) (m n : Nat) (t : State) : Prop where
  idle : t.ring.isTriggered = false
  tokens : fifoTokens t = fifoTokens s ++ slotRun s.ring.fill.toNat (m + 1) ++ [some endToken]
  lastEnq : t.ring.lastEnq.toNat = s.ring.fill.toNat + m
  fill : t.ring.fill.toNat = s.ring.fill.toNat + n
  fault : t.fault = s.fault

/-- The slot that a window ends with (R274). -/
theorem State.InWindow.onSlotFull_last {s : State} (h : s.InWindow 0)
    (hinv : s.CursorInv False) (hfill : s.ring.fill.toNat < 2 ^ 31 - 1) :
    WindowDone s 0 1 (onSlotFull s) ∧ (onSlotFull s).ring.mode = .triggered := by
  obtain ⟨hb, -, hfifo, -⟩ := hinv
  obtain ⟨hmode, htrig, hfinal, hroom⟩ := h
  have henq : enqueues s = true := by simp [enqueues, htrig]
  obtain ⟨hall, fifo, -, hstate⟩ := onSlotFull_room hb hfifo (by omega) (ended := true)
    (by simp [endsAt, hmode, htrig, hfinal])
  have hnext := toNat_advanceFill hfill
  rw [advanceFill_next hfill] at hstate hnext
  rw [henq] at hall hstate
  refine ⟨⟨?_, ?_, ?_, ?_, ?_⟩, ?_⟩
  · rw [hstate]
    exact Bool.and_false _
  · rw [hall, slotRun_eq, List.append_assoc]
    rfl
  · rw [hstate]
    exact toNat_ofNat32 (by omega)
  · rw [hstate]
    exact hnext
  · rw [hstate]
  · rw [hstate]
    exact hmode

/-- A slot of a window before its last (R274). -/
theorem State.InWindow.onSlotFull_next {s : State} {m : Nat} (h : s.InWindow (m + 1))
    (hinv : s.CursorInv False) (hfill : s.ring.fill.toNat < 2 ^ 31 - 1) :
    (onSlotFull s).InWindow m ∧
      fifoTokens (onSlotFull s) = fifoTokens s ++ slotRun s.ring.fill.toNat 1 ∧
      (onSlotFull s).ring.fill.toNat = s.ring.fill.toNat + 1 ∧ (onSlotFull s).fault = s.fault := by
  obtain ⟨hb, -, hfifo, -⟩ := hinv
  obtain ⟨hmode, htrig, hfinal, hroom⟩ := h
  obtain ⟨-, -, -, -, -, ⟨-, hfc⟩, -⟩ := Build.bounds hb
  have henq : enqueues s = true := by simp [enqueues, htrig]
  obtain ⟨hall, fifo, -, hstate⟩ := onSlotFull_room hb hfifo (by omega) (ended := false)
    (by simp [endsAt, hmode, htrig, hfinal])
  have hnext := toNat_advanceFill hfill
  rw [advanceFill_next hfill] at hstate hnext
  rw [henq] at hall hstate
  have hcount : (onSlotFull s).ring.count.toNat = s.ring.count.toNat + 1 := by
    rw [hstate]
    exact toNat_ofNat32 (n := s.ring.count.toNat + 1) (by omega)
  have hfill' : (onSlotFull s).ring.fill.toNat = s.ring.fill.toNat + 1 := by
    rw [hstate]
    exact hnext
  refine ⟨⟨?_, ?_, ?_, ?_⟩, ?_, hfill', ?_⟩
  · rw [hstate]
    exact hmode
  · rw [hstate]
    exact (Bool.and_true _).trans htrig
  · rw [hfill', hstate]
    show s.ring.finalIndex.toNat = _
    omega
  · rw [hcount, hstate]
    show _ ≤ s.build.fc
    omega
  · rw [hall, slotRun_eq]
    rfl
  · rw [hstate]

/-- Enough samples complete a window (R262, R275). -/
theorem State.InWindow.appendSamples {s : State} {m : Nat} (h : s.InWindow m)
    (hinv : s.RingInv False) (xs : List Half) (hdone : m + 1 ≤ s.slotsDone xs.length)
    (hfill : s.ring.fill.toNat + s.slotsDone xs.length < 2 ^ 31) :
    WindowDone s m (s.slotsDone xs.length) (appendSamples xs s) := by
  induction xs generalizing s m with
  | nil =>
    rw [List.length_nil, hinv.slotsDone_zero] at hdone
    omega
  | cons x xs ih =>
    have hopen : gateClosed s = false := gateClosed_of_mode (by rw [h.mode]; decide)
    have hinv' := appendSample_ringInv hinv x
    obtain ⟨hstored, -⟩ := storeSample_cursorInv hinv x
    have hstore : (storeSample x s).InWindow m := ⟨h.mode, h.isTriggered, h.final, h.room⟩
    rw [appendSamples_cons_open x xs hopen]
    rw [List.length_cons] at hdone hfill ⊢
    rcases appendSample_cases hinv x with ⟨hone, hslots⟩ | ⟨hone, hslots⟩
    · rw [hslots] at hdone hfill ⊢
      rw [hone] at hinv' hdone hfill ⊢
      obtain ⟨hidle, htokens, hlast, hfill', hfault⟩ := ih hstore hinv' hdone hfill
      exact ⟨hidle, htokens, hlast, hfill', hfault⟩
    · rw [hslots] at hdone hfill ⊢
      have hlt : (storeSample x s).ring.fill.toNat < 2 ^ 31 - 1 :=
        show s.ring.fill.toNat < 2 ^ 31 - 1 by omega
      have hsame : (storeSample x s).ring.fill.toNat = s.ring.fill.toNat := rfl
      rw [hone] at hinv' hdone hfill ⊢
      cases m with
      | zero =>
        obtain ⟨hend, hmode⟩ := hstore.onSlotFull_last hstored hlt
        have hrest := idled_appendSamples hinv' hmode hend.idle xs (by rw [hend.fill, hsame]; omega)
        refine ⟨hrest.idle, hrest.tokens.trans hend.tokens, ?_, ?_, hrest.fault.trans hend.fault⟩
        · rw [hrest.lastEnq, hend.lastEnq, hsame]
        · rw [hrest.fill, hend.fill, hsame]
          omega
      | succ m =>
        obtain ⟨hnext, htokens, hfill', hfault⟩ := hstore.onSlotFull_next hstored hlt
        obtain ⟨hidle, htokens', hlast, hfill'', hfault'⟩ :=
          ih hnext hinv' (by omega) (by rw [hfill', hsame]; omega)
        have hsplit : slotRun s.ring.fill.toNat (m + 1 + 1) =
            slotRun s.ring.fill.toNat 1 ++ slotRun (s.ring.fill.toNat + 1) (m + 1) := by
          rw [Nat.add_comm (m + 1), slotRun_add]
        refine ⟨hidle, ?_, ?_, ?_, hfault'.trans hfault⟩
        · rw [htokens', htokens, hfill', hsame, hsplit, ← List.append_assoc]
          rfl
        · rw [hlast, hfill', hsame]
          omega
        · rw [hfill'', hfill', hsame]
          omega

/-- A first trigger in triggered mode opens a window of `MIN_SLOTS` further slots (R272, R275). -/
theorem onTrigger_inWindow {s : State} (hb : s.build.wf = true) (h : s.ring.fifoInv s.build)
    (hmode : s.ring.mode = .triggered) (hidle : s.ring.isTriggered = false)
    (hfinal : s.ring.fill.toNat + s.ring.minSlots.toNat < 2 ^ 32)
    (hroom : s.ring.count.toNat + (s.ring.fill.toNat - backfillFirst s) + s.ring.minSlots.toNat + 3 ≤
      s.build.fc) :
    (onTrigger s).InWindow s.ring.minSlots.toNat ∧
      fifoTokens (onTrigger s) = fifoTokens s ++ [some startToken] ++
        slotRun (backfillFirst s) (s.ring.fill.toNat - backfillFirst s) ∧
      (onTrigger s).build = s.build ∧ (onTrigger s).ring.fill = s.ring.fill ∧
      (onTrigger s).ring.wpos = s.ring.wpos ∧ (onTrigger s).fault = s.fault := by
  obtain ⟨-, -, -, -, -, ⟨-, hfc⟩, -⟩ := Build.bounds hb
  have hlen : (triggerTokens s).length = s.ring.fill.toNat - backfillFirst s + 1 := by
    rw [triggerTokens, if_pos hmode, List.length_append, slotsFrom_length, Nat.add_comm]
    rfl
  obtain ⟨hall, -, hpushed⟩ := pushed_pushAll hb h (triggerTokens s) (by omega)
  have htrigger : onTrigger s = firstTrigger s := if_neg (by simp [hidle])
  have hstate := htrigger.trans (firstTrigger_eq s)
  have htokens : fifoTokens (onTrigger s) = fifoTokens (pushAll (triggerTokens s) s) := by
    rw [hstate]
    exact fifoTokens_congr rfl rfl rfl rfl
  rw [hpushed] at hstate
  have hcount : (onTrigger s).ring.count.toNat =
      s.ring.count.toNat + (s.ring.fill.toNat - backfillFirst s + 1) := by
    rw [hstate, ← hlen]
    exact toNat_ofNat32 (n := s.ring.count.toNat + (triggerTokens s).length) (by omega)
  have hbuild : (onTrigger s).build = s.build := by rw [hstate]
  have hfill : (onTrigger s).ring.fill = s.ring.fill := by rw [hstate]
  refine ⟨⟨?_, ?_, ?_, ?_⟩, ?_, hbuild, hfill, ?_, ?_⟩
  · rw [hstate]
    exact hmode
  · rw [hstate]
  · rw [hfill, hstate]
    exact toNat_ofNat32 hfinal
  · rw [hbuild, hcount]
    omega
  · rw [htokens, hall, triggerTokens, if_pos hmode, List.map_append, ← slotRun_eq, ← List.append_assoc]
    rfl
  · rw [hstate]
  · rw [hstate]

/-- Settles O34: the trigger opens a window, which the samples complete. -/
theorem triggeredSequenceIsWhole : Obligations.TriggeredSequenceIsWhole := by
  intro s xs hb h hmode hidle k m first n hdone hlast hroom t
  have hinv : (onTrigger s).RingInv False :=
    onTrigger_ringInv (h.ringInv hb) (by rw [hmode]; decide)
      (gateClosed_of_mode (by rw [hmode]; decide))
  obtain ⟨-, hfifo, -⟩ := h
  obtain ⟨hwindow, htokens, hbuild, hfill, hwpos, hfault⟩ :=
    onTrigger_inWindow hb hfifo hmode hidle (by omega) hroom
  have hn : (onTrigger s).slotsDone xs.length = n := by
    rw [State.slotsDone, hwpos, hbuild]
  obtain ⟨hended, hall, hlastEnq, hfill', hfault'⟩ :=
    hwindow.appendSamples hinv xs (hn ▸ hdone) (by rw [hn, hfill]; exact hlast)
  rw [hfill] at hall hlastEnq hfill'
  rw [htokens] at hall
  exact ⟨hall, hended, hlastEnq, hn ▸ hfill', hfault'.trans hfault⟩

end Sys2Proof.Machine

/-!
PROOFS. The statements on errors and on the halted core (60_exceptions.md): when `ERR_STATE`, `ERR_CMD` and
`ERR_BUS` are raised (O17, O48, O59), and what a halted core refuses and ignores (O44).
-/

namespace Sys2Proof.Machine

/-! ## `SYS.RESET`, as the command or as its word (R153, R154) -/

/-- What carries `SYS.RESET` resets the core, halted or not (R154). -/
theorem exec_carried_sysReset {i : Instr} (h : carried i = .sysReset) (s : State) :
    exec i s = .next s.resetCore := by
  cases i with
  | sysReset => rfl
  | busWr addr data =>
    obtain ⟨rfl, hd⟩ := decodeCommand_of_carried (by rw [h]; rfl)
    rw [h] at hd
    rw [commandWordPerformsOperation data .sysReset s hd]
    rfl
  | _ => exact nomatch h

/-! ## `ERR_STATE` (R325) -/

/-- A detector command that the state does not permit (R221, R222, R223, R325). -/
def misused (j : Instr) (s : State) : Bool :=
  match j with
  | .detBegin => s.det.busy
  | .detWin => !s.det.busy || decide (s.build.nsw ≤ s.det.win.toNat)
  | .detCommit => !s.det.busy
  | _ => false

/-- The misuse of O17 is that of the operation carried. -/
theorem misused_eq (j : Instr) (s : State) :
    misused j s = ((j == .detBegin && s.det.busy) ||
      (j == .detWin && (!s.det.busy || decide (s.build.nsw ≤ s.det.win.toNat))) ||
      (j == .detCommit && !s.det.busy)) := by
  cases j <;> simp [misused, beq_eq_decide]

/-- Only the detector's commands can be misused (R325). -/
theorem isDetector_of_misused {j : Instr} {s : State} (h : misused j s = true) :
    isDetector j = true := by
  cases j with
  | detBegin | detWin | detCommit => rfl
  | _ => exact nomatch h

/-- The detector's commands are commands, and no reset (R127). -/
theorem command_of_isDetector {j : Instr} (h : isDetector j = true) :
    isCommand j = true ∧ j ≠ .sysReset := by
  cases j with
  | detBegin | detWin | detCommit => exact ⟨rfl, nofun⟩
  | _ => exact nomatch h

/-- A misused command reports `ERR_STATE` and does nothing else (R325). -/
theorem perform_of_misused {j : Instr} {s : State} (h : misused j s = true) :
    perform j s = s.errState := by
  cases j with
  | detBegin => exact if_pos h
  | detWin => exact if_pos (by simpa [misused] using h)
  | detCommit => exact if_pos (by simpa [misused] using h)
  | _ => exact nomatch h

/-- A detector command that the state permits touches no sticky bit (R221, R222, R223). -/
theorem perform_sticky_of_permitted {j : Instr} {s : State} (hdet : isDetector j = true)
    (h : misused j s = false) : (perform j s).sticky = s.sticky := by
  cases j with
  | detBegin =>
    have hidle : ¬ s.det.busy = true := Bool.eq_false_iff.1 h
    rw [perform, detBeginRule, if_neg hidle]
    split <;> rfl
  | detWin =>
    obtain ⟨hbusy, hwin⟩ : s.det.busy = true ∧ s.det.win.toNat < s.build.nsw := by
      simpa [misused] using h
    rw [perform, detWinRule_open hbusy hwin]
    rfl
  | detCommit =>
    have hbusy : ¬ s.det.busy = false := by simpa [misused] using h
    simp only [perform, detCommitRule, if_neg hbusy]
    split
    · split <;> rfl
    · rfl
  | _ => exact nomatch hdet

/-- An operation of a running core that carries a detector command performs its rule (R154). -/
theorem exec_of_carried_detector {i : Instr} {s : State} (hdet : isDetector (carried i) = true)
    (hrun : s.halted = false) : exec i s = .next (perform (carried i) s) := by
  obtain ⟨hcommand, hreset⟩ := command_of_isDetector hdet
  rw [exec_of_carried hcommand hreset, command_running _ hrun]

/-- Settles O17: a misused detector command only reports, a permitted one touches no sticky bit, a reset
clears them, and by the rules of the flags (O41) no other operation raises `ERR_STATE`. -/
theorem onlyDetectorMisuseIsStateError : Obligations.OnlyDetectorMisuseIsStateError := by
  intro i s hrun
  dsimp only
  rw [← misused_eq]
  by_cases hdet : isDetector (carried i) = true
  · refine ⟨_, exec_of_carried_detector hdet hrun, perform_of_misused, fun hpermitted hset => ?_⟩
    rwa [perform_sticky_of_permitted hdet hpermitted] at hset
  have hnever (t : State) : misused (carried i) s = true →
      t = { s with sticky := { s.sticky with errState := true }, resp := 0xFFFFFFFF } :=
    fun h => absurd (isDetector_of_misused h) hdet
  by_cases hreset : carried i = .sysReset
  · exact ⟨_, exec_carried_sysReset hreset s, hnever _, fun _ h => nomatch h⟩
  · obtain ⟨t, hexec, hflags, -⟩ := eachUnitWritesItsOwn i s hreset
    obtain ⟨hset, -⟩ := hflags.errState
    exact ⟨t, hexec, hnever t, fun _ => hset (by rw [Bool.eq_false_iff.2 hdet, Bool.false_and])⟩

/-! ## `ERR_CMD` (R128, R324) -/

/-- Settles O48: a word that selects no row does not decode (O47). -/
theorem illegalWordIsRefused : Obligations.IllegalWordIsRefused := by
  intro w s hnone hrun
  cases hd : decodeCommand w with
  | error e => exact exec_undecodedWord hd hrun
  | ok i =>
    obtain ⟨r, hr, hselects⟩ := selects_of_decode hd
    exact absurd hselects (by rw [hnone r hr]; decide)

/-! ## `ERR_BUS` (R48, R83, R89, R326) -/

/-- A register's address is in its space (R81). -/
theorem spaceOf_of_targetOf_csr {b : Build} {addr : Word} {r : Csr}
    (h : targetOf b addr = some (.csr r)) : spaceOf addr = some .csr := by
  unfold targetOf at h
  split at h
  case h_1 hspace => exact hspace
  all_goals simp at h

/-- A write that reaches a raw sample is one that R326 does not name. -/
theorem goodWrite_of_targetOf_raw {s : State} {addr : Word} {i : Nat}
    (h : targetOf s.build addr = some (.raw i)) : goodWrite s addr := by
  have haddr := toNat_of_spaceOf_raw (spaceOf_of_targetOf_raw h)
  have hoff : offsetOf addr = addr.toNat % 2 ^ 28 := (slice_parts addr).2
  have hspace : addr.toNat / 2 ^ 28 = 1 := by omega
  rw [targetOf_of_space_raw _ hspace] at h
  simp only [goodWrite, hspace]
  exact inRange_of_elementAt h

/-- A write that reaches a register that is not read-only is one that R326 does not name. -/
theorem goodWrite_of_targetOf_csr {s : State} {addr : Word} {r : Csr}
    (h : targetOf s.build addr = some (.csr r)) (hacc : r.access ≠ .ro) : goodWrite s addr := by
  have hspace : addr.toNat / 2 ^ 28 = 0 :=
    Nat.div_eq_of_lt (toNat_lt_of_spaceOf_csr (spaceOf_of_targetOf_csr h))
  obtain ⟨hwo, hw1c, hrw⟩ := csrAt_access (csrAt_of_targetOf h)
  simp only [goodWrite, hspace]
  cases hr : r.access with
  | wo => exact .inl (BitVec.eq_of_toNat_eq (hwo hr))
  | w1c => exact .inr (.inl (BitVec.eq_of_toNat_eq (hw1c hr)))
  | rw => exact .inr (.inr (hrw hr))
  | ro => exact absurd hr hacc

/-- A write that R326 names reaches nothing that can be written, and sets `ERR_BUS` (R151). -/
theorem busWrRule_of_not_goodWrite {s : State} {addr : Word} (data : Word) (h : ¬ goodWrite s addr) :
    busWrRule addr data s = s.errBus := by
  refine busWrRule_bad data fun t ht => ?_
  cases t with
  | csr r => exact .inl ⟨r, rfl, by_contra fun hacc => h (goodWrite_of_targetOf_csr ht hacc)⟩
  | raw i => exact absurd (goodWrite_of_targetOf_raw ht) h
  | hf i => exact .inr (.inl ⟨i, rfl⟩)
  | slot i => exact .inr (.inr (.inl ⟨i, rfl⟩))
  | fifo i => exact .inr (.inr (.inr ⟨i, rfl⟩))

/-- Settles O59: a bad read has no target and a bad write none that can be written; a reset clears
`ERR_BUS`, and by the rules of the flags (O41) no other operation raises it. -/
theorem badAccessSetsErrBus : Obligations.BadAccessSetsErrBus := by
  intro s hb
  refine ⟨fun addr hbad => ?read, fun addr data hbad => ?write, fun i hread hwrite => ?other⟩
  case read => exact exec_busRd_none (targetOf_of_not_goodRead hbad)
  case write => exact congrArg Host.Outcome.next (busWrRule_of_not_goodWrite data hbad)
  case other =>
    by_cases hreset : carried i = .sysReset
    · exact ⟨_, exec_carried_sysReset hreset s, fun h => nomatch h⟩
    · obtain ⟨t, hexec, hflags, -⟩ := eachUnitWritesItsOwn i s hreset
      obtain ⟨hset, -⟩ := hflags.errBus
      exact ⟨t, hexec, hset hb hread hwrite⟩

/-! ## The halted core (R154, R322) -/

section
variable {s : State} (hhalt : s.halted = true)
include hhalt

/-- A command but `SYS.RESET` is refused (R322). -/
theorem exec_command_halted {i : Instr} (hcommand : isCommand i = true) (hreset : i ≠ .sysReset) :
    exec i s = .next { s with resp := 0xFFFFFFFF } := by
  rw [exec_eq_command hcommand hreset, command_halted _ hhalt]

/-- A command word but `SYS.RESET`'s is refused before it is decoded (R154). -/
theorem cmdWrite_halted {w : Word} (hw : w ≠ sysResetWord) :
    cmdWrite w s = { s with resp := 0xFFFFFFFF } :=
  if_pos ⟨hhalt, hw⟩

/-- A write to a read-write register is ignored (R151). -/
theorem exec_busWr_register_halted {off : Nat} {r : Csr} (data : Word) (hlt : off < 2 ^ 28)
    (hr : csrAt s.build off = some r) (hacc : r.access = .rw) :
    exec (.busWr (.ofNat 32 off) data) s = .next s := by
  have htarget : targetOf s.build (.ofNat 32 off) = some (.csr r) := by
    rw [targetOf_csr _ hlt, hr]
    rfl
  show Host.Outcome.next (busWrRule (.ofNat 32 off) data s) = _
  simp only [busWrRule, htarget, writeCsr, hacc, hhalt, if_true]

end

/-- Settles O44: the halted test stands before the rule of every command, before the decoding of every
word but `SYS.RESET`'s, and before the store of every register; a reset clears both faults. -/
theorem haltedCoreRefuses : Obligations.HaltedCoreRefuses := by
  intro s hhalt
  refine ⟨fun i => exec_command_halted hhalt, fun w hw => ?word, fun w => ?status,
    fun off width w hb hmem => ?register, s.resetCore, rfl, s.resetCore_halted⟩
  case word =>
    refine congrArg Host.Outcome.next ?_
    rw [busWrRule_cmd, cmdWrite_halted hhalt hw]
  case status =>
    refine congrArg Host.Outcome.next ?_
    rw [busWrRule_status, if_pos hhalt]
  case register =>
    obtain ⟨r, hin, rfl, hwidth⟩ := exists_csr_of_mem_rwFields hmem
    exact exec_busWr_register_halted hhalt w (offset_lt_of_mem_csrs hb hin)
      (csrAt_eq_some_iff.2 ⟨hin, rfl⟩) (access_of_fieldWidth hwidth)

end Sys2Proof.Machine

/-!
PROOFS. The statements on reset and on the hazards between masters (70_reset_and_hazards.md): the reset
input (O3), who writes configuration (O42), an evaluation that a publication overtakes (O21), and how the
core behaves right after reset (O46).
-/

namespace Sys2Proof.Machine

/-! ## The reset input (R360) -/

/-- Settles O3: the pin, the only offer, is taken; `SYS.RESET` resets the same registers and leaves the
surroundings alone. -/
theorem resetPinActsAsSysReset : Obligations.ResetPinActsAsSysReset := fun s hpin =>
  ⟨s.resetCore, rfl, step_of_choose_resetPin (Env.choose_of_single hpin)⟩

/-! ## Commands and the configuration (R365, R374) -/

/-- Settles O42: by the rules of O41 only bus writes write the configuration registers and `RAW`, and no
command is a bus write. -/
theorem commandsKeepConfiguration : Obligations.CommandsKeepConfiguration := by
  intro i s hcommand hreset
  have hbus (addr data : Word) : i ≠ .busWr addr data := by
    rintro rfl
    exact nomatch hcommand
  obtain ⟨t, hexec, -, hregs, hmems⟩ :=
    eachUnitWritesItsOwn i s (by rwa [carried_of_isCommand hcommand])
  exact ⟨t, hexec, hregs.config fun off _ data _ => hbus (.ofNat 32 off) data,
    hmems.raw fun addr data hi => absurd hi (hbus addr data)⟩

/-! ## An evaluation that a publication overtakes (R223, R377) -/

/-- An evaluation of the Half-Frame of generation `gen` is open (R221). -/
def State.Evaluating (s : State) (gen : Word) : Prop := s.det.busy = true ∧ s.det.gen = gen

/-- `DET.BEGIN` during an evaluation leaves the detector alone, refused or reported (R221, R322). -/
theorem exec_detBegin_busy {i : Instr} {s t : State} (hi : carried i = .detBegin)
    (hbusy : s.det.busy = true) (h : exec i s = .next t) : t.det = s.det := by
  rw [exec_of_carried (by rw [hi]; rfl) (by rw [hi]; nofun), hi] at h
  obtain rfl := Host.Outcome.next.inj h
  have hmisused : misused .detBegin s = true := hbusy
  cases hhalt : s.halted with
  | true => rw [command_halted _ hhalt]
  | false => rw [command_running _ hhalt, perform_of_misused hmisused, State.errState_det]

/-- Only `DET.COMMIT` and a reset end an evaluation, and nothing changes the generation it is of (R22,
R33). -/
theorem State.Evaluating.exec {i : Instr} {s t : State} {gen : Word} (h : s.Evaluating gen)
    (hreset : carried i ≠ .sysReset) (hcommit : carried i ≠ .detCommit)
    (hexec : exec i s = .next t) : t.Evaluating gen := by
  obtain ⟨hbusy, hgen⟩ := h
  obtain ⟨u, hu, hflags, hregs, -⟩ := eachUnitWritesItsOwn i s hreset
  obtain rfl := Host.Outcome.next.inj (hu.symm.trans hexec)
  obtain ⟨-, hopen⟩ := hflags.detBusy
  refine ⟨hopen (beq_false_of_ne hcommit) hbusy, ?_⟩
  by_cases hbegin : carried i = .detBegin
  · rw [exec_detBegin_busy hbegin hbusy hexec, hgen]
  · rw [hregs.detGen hbegin, hgen]

/-- `DET.COMMIT` of an evaluation of a Half-Frame that is no longer the latest closes it, publishing
nothing (R223). -/
theorem exec_detCommit_overtaken {s : State} (hrun : s.halted = false) (hbusy : s.det.busy = true)
    (hgen : s.acq.gen ≠ s.det.gen) :
    exec .detCommit s = .next { s with
      det := { s.det with busy := false }, resp := if s.det.acc then 2 else 0 } := by
  rw [detCommitGuardsTheRace.2 s hrun]
  cases hacc : s.det.acc with
  | false => simp [hbusy]
  | true => simp [hbusy, hgen]

/-- Settles O21: the evaluation is still the one of the generation it began with, and the publications,
fewer than `2^32`, have moved `GEN` away from it (O19). -/
theorem overtakenEvaluationIsDiscarded : Obligations.OvertakenEvaluationIsDiscarded := by
  intro s t is hrun hidle hready hbegin hreset hcommit hsome hfew hend
  obtain rfl := Host.Outcome.next.inj ((exec_detBegin_ready hrun hready hidle).symm.trans hbegin)
  have hopen : (s.inEvaluation 0 false 1 s.det.matchVec s.det.matchCnt).Evaluating s.acq.gen :=
    ⟨rfl, rfl⟩
  obtain ⟨hbusy, hdetGen⟩ := runOps_induct (P := (State.Evaluating · s.acq.gen)) hopen
    fun i hi _ _ h => h.exec (hreset i hi) (hcommit i hi)
  obtain ⟨-, hmoved⟩ := publicationsAdvanceGen is _ hreset hend
  have hgen := hdetGen ▸ hmoved hsome hfew
  exact ⟨_, exec_detCommit_overtaken hend hbusy hgen, rfl, rfl, rfl, rfl, rfl⟩

/-! ## The core right after reset (R361) -/

/-- `HF.READY` of a running core with no processor registered publishes and hands over to nobody (R191,
R196). -/
theorem exec_hfReady_unregistered {s : State} (half : BitVec 1) (offset : Half) (shift : BitVec 4)
    (hrun : s.halted = false) (hproc : s.acq.proc = .none) :
    ∃ xs ovl env, exec (.hfReady half offset shift) s =
      .next ((s.afterPublication xs ovl env).setResp 0) := by
  obtain ⟨xs, ovl, env, heq⟩ := hfReadyRule_eq half offset shift s
  refine ⟨xs, ovl, env, ?_⟩
  rw [exec_command (.hfReady half offset shift) hrun nofun nofun, perform, heq,
    handOver_of_none xs (s := s.afterPublication xs ovl env) hproc]

/-- `RING.GETNEXT` on an empty FIFO answers 0, gate open or closed (R280). -/
theorem ringGetnextRule_empty {s : State} (h : s.ring.count = 0) :
    ringGetnextRule s = s.setResp 0 := by
  rw [ringGetnextRule, h]
  split <;> rfl

/-- The detector can match nothing and has reported nothing: every threshold is disabled, no sub-window
has fired or matched, no trigger is pending (R361). -/
structure State.Quiet (s : State) : Prop where
  disabled : ∀ k, (thrEntry s k).en = false
  acc : s.det.acc = false
  matchCnt : s.det.matchCnt = 0
  trigFlag : s.trigFlag = false

/-- After reset the detector is quiet (R44, R60). -/
theorem State.resetOf_quiet (b : Build) (env : Env) : (State.resetOf b env).Quiet where
  disabled k := congrArg Threshold.en (thrEntry_reset b k)
  acc := rfl
  matchCnt := rfl
  trigFlag := rfl

/-- With every threshold disabled no bucket matches (R222). -/
theorem matchBits_count_disabled {s : State} (h : ∀ k, (thrEntry s k).en = false)
    (p : Nat → BitVec 64) : (matchBits s p).count true = 0 := by
  rw [matchBits_count, List.countP_eq_zero]
  intro k _
  have hen : (s.det.thr.getD k Threshold.reset).en = false := h k
  simp only [bucketMatch_eq, hen, Bool.false_and, Bool.false_eq_true, not_false_eq_true]

/-- `DET.BEGIN` clears `ACC` or leaves it alone (R221). -/
theorem State.Quiet.detBeginRule {s : State} (h : s.Quiet) : (detBeginRule s).Quiet := by
  unfold Machine.detBeginRule
  split
  · exact ⟨h.disabled, h.acc, h.matchCnt, h.trigFlag⟩
  · split
    · exact ⟨h.disabled, rfl, h.matchCnt, h.trigFlag⟩
    · exact ⟨h.disabled, h.acc, h.matchCnt, h.trigFlag⟩

/-- A sub-window without a match does not fire (R227). -/
theorem State.Quiet.detWinRule {s : State} (h : s.Quiet) : (detWinRule s).Quiet := by
  unfold Machine.detWinRule
  split
  · exact ⟨h.disabled, h.acc, h.matchCnt, h.trigFlag⟩
  · have hcnt := matchBits_count_disabled (s := s.setDraws (subWindow s).2) h.disabled
      (bucketPower s.build (subWindow s).1)
    have hfired : fired s.det.trigMaxCnt 0 = false := rfl
    rw [judgeWindow_eq hcnt hfired]
    exact ⟨h.disabled, (Bool.or_false _).trans h.acc, rfl, h.trigFlag⟩

/-- `DET.COMMIT` of an evaluation that never fired sets no trigger (R223). -/
theorem State.Quiet.detCommitRule {s : State} (h : s.Quiet) : (detCommitRule s).Quiet := by
  unfold Machine.detCommitRule
  split
  · exact ⟨h.disabled, h.acc, h.matchCnt, h.trigFlag⟩
  · have hacc : ¬ s.det.acc = true := Bool.eq_false_iff.1 h.acc
    simp only [if_neg hacc]
    exact ⟨h.disabled, h.acc, h.matchCnt, h.trigFlag⟩

/-- The detector's own commands keep it quiet, by their rules or refused (R221 to R223, R322). -/
theorem State.Quiet.exec_detector {i : Instr} {s t : State} (h : s.Quiet)
    (hdet : isDetector i = true) (hexec : exec i s = .next t) : t.Quiet := by
  obtain ⟨hcommand, hreset⟩ := command_of_isDetector hdet
  rw [exec_eq_command hcommand hreset] at hexec
  obtain rfl := Host.Outcome.next.inj hexec
  cases hhalt : s.halted with
  | true =>
    rw [command_halted _ hhalt]
    exact ⟨h.disabled, h.acc, h.matchCnt, h.trigFlag⟩
  | false =>
    rw [command_running _ hhalt]
    cases i with
    | detBegin => exact h.detBeginRule
    | detWin => exact h.detWinRule
    | detCommit => exact h.detCommitRule
    | _ => exact nomatch hdet

/-- The other commands keep it quiet, because they write neither its registers nor the thresholds, and do
not set `TRIG_FLAG` (O41). -/
theorem State.Quiet.exec_other {i : Instr} {s t : State} (h : s.Quiet) (hcommand : isCommand i = true)
    (hreset : i ≠ .sysReset) (hdet : ¬ isDetector i = true) (hexec : exec i s = .next t) :
    t.Quiet := by
  have hself := carried_of_isCommand hcommand
  have hne {j : Instr} (hj : isDetector j = true) : carried i ≠ j := by
    rintro rfl
    exact hdet (hself ▸ hj)
  obtain ⟨u, hu, hflags, hregs, -⟩ := eachUnitWritesItsOwn i s (by rwa [hself])
  obtain rfl := Host.Outcome.next.inj (hu.symm.trans hexec)
  obtain ⟨-, -, -, -, -, -, hthr, -⟩ := hregs.config fun _ _ _ _ hi => nomatch hi ▸ hcommand
  obtain ⟨-, hacc⟩ := hregs.detWin (hne rfl) (hne rfl)
  obtain ⟨-, hcnt⟩ := hregs.matchResult (hne rfl)
  obtain ⟨hset, -⟩ := hflags.trigFlag
  refine ⟨fun k => ?disabled, hacc.trans h.acc, hcnt.trans h.matchCnt, ?trigFlag⟩
  case disabled =>
    rw [thrEntry, hthr]
    exact h.disabled k
  case trigFlag =>
    refine Bool.eq_false_iff.2 fun htrig => ?_
    exact nomatch (hset (beq_false_of_ne (hne rfl)) htrig).symm.trans h.trigFlag

/-- No command but `SYS.RESET` disturbs a quiet detector. -/
theorem State.Quiet.exec {i : Instr} {s t : State} (h : s.Quiet) (hcommand : isCommand i = true)
    (hreset : i ≠ .sysReset) (hexec : exec i s = .next t) : t.Quiet := by
  by_cases hdet : isDetector i = true
  · exact h.exec_detector hdet hexec
  · exact h.exec_other hcommand hreset hdet hexec

/-- Settles O46: no processor is registered, the detector starts quiet and stays so, the FIFO is empty. -/
theorem resetStateIsSafe : Obligations.ResetStateIsSafe := by
  intro b env _ s
  refine ⟨fun half offset shift => ?publishes, fun is his => ?quiet, ?empty⟩
  case publishes =>
    obtain ⟨xs, ovl, env', hexec⟩ := exec_hfReady_unregistered (s := s) half offset shift rfl rfl
    exact ⟨_, hexec, rfl, rfl, rfl, rfl, rfl, rfl, rfl, rfl, rfl, rfl⟩
  case quiet =>
    have hcommand (i : Instr) (hi : i ∈ is) : isCommand i = true ∧ i ≠ .sysReset := by
      rcases his i hi with hpub | rfl | rfl | rfl
      · exact (command_of_isPublication hpub).1
      all_goals exact ⟨rfl, nofun⟩
    have hquiet : (runOps is s).Quiet := runOps_induct (State.resetOf_quiet b env)
      fun i hi _ _ h => h.exec (hcommand i hi).1 (hcommand i hi).2
    exact ⟨hquiet.acc, hquiet.matchCnt, hquiet.trigFlag⟩
  case empty =>
    rw [exec_command (s := s) .ringGetnext rfl nofun nofun, perform, ringGetnextRule_empty rfl]
    rfl

end Sys2Proof.Machine
